-- ==== Sys2Proof/Word.lean ====
section
/-! DEFINITION. The words that travel on the ports of the FPK block and stand in its registers
(spec R13, R25, R26, R71). -/

namespace Sys2Proof

/-- A byte, value 0 to 255 (R13). -/
abbrev Byte := BitVec 8

/-- A register value or a command's `arg` field: 32 bits, unsigned (R14, R26, R72). -/
abbrev Word := BitVec 32

/-- A palette code, 3 bits, 0 to 7 (R2); the beat of `code_in` and `code_out` (R25). -/
abbrev Code := BitVec 3

/-- A command word, 40 bits, presented whole as one beat of `cmd` (R71). -/
abbrev CmdWord := BitVec 40

/-- One beat of `byte_in` (R25): a data byte, or the end-of-stream marker, which carries nothing. -/
inductive Beat where
  | data (b : Byte)
  | eos
  deriving DecidableEq, Repr

/-- `zext_32` of a byte (R14): what `FAULT_INFO` records of an opcode or of a key (R201). -/
def zext (b : Byte) : Word := b.setWidth 32

end Sys2Proof
end

