-- ==== Sys2Proof/Config.lean ====
section
/-! DEFINITION. The constants of the hardware (spec R10), the one open parameter `MAX_NPIX` (R11) as
the value that `State.reset` starts with, and the free values the spec leaves open (93, U16). -/

namespace Sys2Proof.Config

/-- `CODE_BITS`: bits of a pixel code (R10). -/
def codeBits : Nat := 3

/-- `MAX_RUN`: the largest run count (R10). -/
def maxRun : Nat := 127

/-- `MIN_REP`: the shortest repeat run that the encoder emits (R10). -/
def minRep : Nat := 3

/-- `LIT_FLAG`: key bit 7, 1 in a literal run (R10). -/
def litFlag : Byte := 0x80

/-- `CNT_MASK`: key bits 6 to 0, the count (R10). -/
def cntMask : Byte := 0x7F

/-- The capacity `MAX_NPIX` of the one block that `State.reset` describes. The spec leaves it OPEN (R11):
the model takes it as an argument by holding it in `State.cap`, and no definition but `State.reset`
reads this number. DESIGN CHOICE (log 1), unsafe for a claim that rests on 64: it is the value that the spec's own vectors
use (95_test_vectors.md). -/
def maxNpix : Word := 64

/-- FREE VALUE (log 8; R231, R232, 93 U16): what the `cmd` queue holds after the `n`-th hardware reset that
cut a command short. Nothing constrains it. -/
opaque cmdAfterReset : Nat → List CmdWord

/-- FREE VALUE (log 8; R231, 93 U16): what `code_in` holds after such a hardware reset. -/
opaque codesAfterReset : Nat → List Code

/-- FREE VALUE (log 8; R231, 93 U16): what `byte_in` holds after such a hardware reset. -/
opaque beatsAfterReset : Nat → List Beat

end Sys2Proof.Config
end

