-- ==== Sys2Proof/Syntax.lean ====
section
/-! DEFINITION. The instructions: one constructor per row of spec/opcode_table.json, the fourteen
command words (R73) and the two runs that the decoder interprets (R76, R77). -/

namespace Sys2Proof

/-- What the block decodes (R70). A command that does not use its `arg` has no operand here: every
value of `arg` is accepted and ignored (R72), so all its words decode to the one instruction. -/
inductive Instr where
  /-- `RST`, soft reset (R191). -/
  | rst
  /-- `SETW arg`, write the width (R192). -/
  | setw (arg : Word)
  /-- `SETH arg`, write the height (R193). -/
  | seth (arg : Word)
  /-- `INIT`, validate the geometry and start a sequence (R194). -/
  | init
  /-- `PACK`, pack one frame of codes (R105). -/
  | pack
  /-- `DELTA`, delta-encode one packed frame (R124). -/
  | delta
  /-- `RLEENC LEN`, run-length encode a buffer (R150). -/
  | rleenc (len : Word)
  /-- `ENCF`, encode one frame (R181). -/
  | encf
  /-- `RLEDEC LEN`, run-length decode a buffer (R170). -/
  | rledec (len : Word)
  /-- `FOLD`, XOR one delta frame into the frame store (R125). -/
  | fold
  /-- `DECF`, decode one frame (R183). -/
  | decf
  /-- `EXTRACT i`, read the code of one pixel (R108). -/
  | extract (i : Word)
  /-- `UNPACK`, read every code of the frame store (R110). -/
  | unpack
  /-- `DUMP`, read the frame store as bytes (R111). -/
  | dump
  /-- The repeat run `REP count, v` (R76, R167). -/
  | rep (count : BitVec 7) (v : Byte)
  /-- The literal run `LIT n: payload`, whose count is the number of payload bytes (R77, R166). -/
  | lit (payload : List Byte)
  deriving DecidableEq, Repr

/-- Is the instruction a command word of the `cmd` port (R70 (a)), and not a run of `byte_in` (R70 (b))? -/
def Instr.isCommand : Instr → Bool
  | .rst | .setw _ | .seth _ | .init | .pack | .delta | .rleenc _ | .encf | .rledec _ | .fold | .decf
  | .extract _ | .unpack | .dump => true
  | .rep _ _ | .lit _ => false

end Sys2Proof
end

