-- ==== Sys2Proof/WellFormed.lean ====
section
/-! DEFINITION. Which instructions have an encoding (spec R72, R75 to R77). -/

namespace Sys2Proof

/-- A command is well formed for every 32-bit `arg` (R72): its legality is checked when it runs. A run
is well formed when its count is 1 to 127 (R75): a count of 0 is a reserved key (R80). -/
def Instr.wellFormed : Instr → Bool
  | .rst | .setw _ | .seth _ | .init | .pack | .delta | .rleenc _ | .encf | .rledec _ | .fold | .decf
  | .extract _ | .unpack | .dump => true
  | .rep count _ => count != 0
  | .lit payload => payload.length != 0 && payload.length ≤ Config.maxRun

end Sys2Proof
end

