-- ==== Sys2Proof/Decode.lean ====
section
/-! DEFINITION. The encodings: the command word (spec R71 to R74), the run (R75 to R82), the decoder,
total on every word and every byte string, and the encoder written from the same tables. -/

namespace Sys2Proof

/-- Why an encoded item is no instruction, by name. -/
inductive DecodeError where
  /-- One of the 242 values of `op` outside the opcode map (R74). -/
  | reservedOpcode (op : Byte)
  /-- A key with count 0: 0x00 or 0x80 (R80). -/
  | reservedKey (key : Byte)
  /-- The byte string ends before the run does (R78 gives the run's length). -/
  | truncatedRun
  deriving DecidableEq, Repr

/-! The opcode map (R73). -/

def opRst : Byte := 0x01
def opSetw : Byte := 0x02
def opSeth : Byte := 0x03
def opInit : Byte := 0x04
def opPack : Byte := 0x10
def opDelta : Byte := 0x11
def opRleenc : Byte := 0x12
def opEncf : Byte := 0x13
def opRledec : Byte := 0x20
def opFold : Byte := 0x21
def opDecf : Byte := 0x22
def opExtract : Byte := 0x30
def opUnpack : Byte := 0x31
def opDump : Byte := 0x32

/-- The opcode map: each `op` with the instruction that it and an `arg` stand for (R72, R73). -/
def opcodeTable : List (Byte × (Word → Instr)) :=
  [(opRst, fun _ => .rst),
   (opSetw, fun arg => .setw arg),
   (opSeth, fun arg => .seth arg),
   (opInit, fun _ => .init),
   (opPack, fun _ => .pack),
   (opDelta, fun _ => .delta),
   (opRleenc, fun arg => .rleenc arg),
   (opEncf, fun _ => .encf),
   (opRledec, fun arg => .rledec arg),
   (opFold, fun _ => .fold),
   (opDecf, fun _ => .decf),
   (opExtract, fun arg => .extract arg),
   (opUnpack, fun _ => .unpack),
   (opDump, fun _ => .dump)]

/-- The opcodes of the map; every other value is reserved (R73, R74). -/
def opcodes : List Byte := opcodeTable.map Prod.fst

/-- The field `op`, bits 39:32 of a command word (R71). -/
def opOf (w : CmdWord) : Byte := w.extractLsb' 32 8

/-- The field `arg`, bits 31:0 of a command word (R71). -/
def argOf (w : CmdWord) : Word := w.extractLsb' 0 32

/-- The command word with the given fields, `op` first (R71). -/
def cmdWord (op : Byte) (arg : Word) : CmdWord := op ++ arg

/-- Decode a command word (R71 to R74). -/
def decodeCmd (w : CmdWord) : Except DecodeError Instr :=
  match opcodeTable.find? fun row => row.1 == opOf w with
  | some row => .ok (row.2 (argOf w))
  | none => .error (.reservedOpcode (opOf w))

/-- The count of a key, `key & 0x7F`, used as it is (R75). -/
def keyCount (key : Byte) : Nat := (key &&& Config.cntMask).toNat

/-- The mode of a key, bit 7: true in a literal run (R75). -/
def keyIsLit (key : Byte) : Bool := (key &&& Config.litFlag) != 0

/-- How many bytes follow the key: `count` in a literal run, one in a repeat run (R78). -/
def payloadLen (key : Byte) : Nat := if keyIsLit key then keyCount key else 1

/-- The run of a key and its payload bytes (R76, R77). -/
def runOf (key : Byte) (payload : List Byte) : Instr :=
  if keyIsLit key then .lit payload else .rep (key.extractLsb' 0 7) (payload.headD 0)

/-- Decode the run at the head of a byte string, and give the bytes after it (R75 to R80). -/
def decodeRun : List Byte → Except DecodeError (Instr × List Byte)
  | [] => .error .truncatedRun
  | key :: rest =>
    if keyCount key = 0 then .error (.reservedKey key)
    else if rest.length < payloadLen key then .error .truncatedRun
    else .ok (runOf key (rest.take (payloadLen key)), rest.drop (payloadLen key))

/-- One encoded item (R70): a command word of `cmd`, or the bytes of a run. -/
inductive Encoded where
  | cmd (w : CmdWord)
  | run (bytes : List Byte)
  deriving DecidableEq, Repr

/-- Decode one encoded item; of a run, the bytes after it too. -/
def decode : Encoded → Except DecodeError (Instr × List Byte)
  | .cmd w => (decodeCmd w).map fun i => (i, [])
  | .run bytes => decodeRun bytes

/-! The encoder. -/

/-- The key of a repeat run: `key = count` (R82). -/
def repKey (count : Nat) : Byte := BitVec.ofNat 8 count

/-- The key of a literal run: `key = 0x80 | count` (R82). -/
def litKey (count : Nat) : Byte := Config.litFlag ||| BitVec.ofNat 8 count

/-- The bytes of a repeat run (R76). -/
def repBytes (count : Nat) (v : Byte) : List Byte := [repKey count, v]

/-- The bytes of a literal run (R77). -/
def litBytes (payload : List Byte) : List Byte := litKey payload.length :: payload

/-- The encoding of an instruction. A command without an argument is written with `arg = 0` (R85). -/
def encode : Instr → Encoded
  | .rst => .cmd (cmdWord opRst 0)
  | .setw arg => .cmd (cmdWord opSetw arg)
  | .seth arg => .cmd (cmdWord opSeth arg)
  | .init => .cmd (cmdWord opInit 0)
  | .pack => .cmd (cmdWord opPack 0)
  | .delta => .cmd (cmdWord opDelta 0)
  | .rleenc len => .cmd (cmdWord opRleenc len)
  | .encf => .cmd (cmdWord opEncf 0)
  | .rledec len => .cmd (cmdWord opRledec len)
  | .fold => .cmd (cmdWord opFold 0)
  | .decf => .cmd (cmdWord opDecf 0)
  | .extract i => .cmd (cmdWord opExtract i)
  | .unpack => .cmd (cmdWord opUnpack 0)
  | .dump => .cmd (cmdWord opDump 0)
  | .rep count v => .run (repBytes count.toNat v)
  | .lit payload => .run (litBytes payload)

/-! Streams of runs. -/

/-- The logical bytes that a run stands for (R75 to R77). -/
def Instr.logical : Instr → List Byte
  | .rep count v => List.replicate count.toNat v
  | .lit payload => payload
  | .rst | .setw _ | .seth _ | .init | .pack | .delta | .rleenc _ | .encf | .rledec _ | .fold | .decf
  | .extract _ | .unpack | .dump => []

/-- The bytes of a run, its key first (R76, R77). -/
def Instr.runBytes (i : Instr) : List Byte :=
  match encode i with
  | .run bytes => bytes
  | .cmd _ => []

/-- A sequence of legal runs (R75). -/
abbrev legalRuns (rs : List Instr) : Prop := ∀ r ∈ rs, r.isCommand = false ∧ r.wellFormed = true

/-- The stream of a sequence of runs (R83). -/
def streamOf (rs : List Instr) : List Byte := rs.flatMap Instr.runBytes

/-- The logical bytes of a sequence of runs (R83). -/
def logicalOf (rs : List Instr) : List Byte := rs.flatMap Instr.logical

/-! The opcode table's words, as the host's checks number their bits. -/

/-- The width of a command row of spec/opcode_table.json; every other width is a run's. -/
def cmdBits : Nat := 40

/-- The bytes of a table word, first byte in its low bits, the bits above `nbits` zero, as many as the
longest run has (R77: 128). -/
def tableBytes (nbits w : Nat) : List Byte :=
  (List.range (Config.maxRun + 1)).map fun k => BitVec.ofNat 8 ((w % 2 ^ nbits) / 2 ^ (8 * k))

/-- The bytes of the run that a table word holds: its key and as many bytes as the key asks for (R78). -/
def tableRun (nbits w : Nat) : List Byte :=
  let bytes := tableBytes nbits w
  bytes.take (1 + payloadLen (bytes.headD 0))

/-- The instruction that the decoder reads from a word of the opcode table. A 40-bit row is a command;
a row of any other width is a run (log 4). -/
def decodeTableWord (nbits w : Nat) : Option Instr :=
  if nbits = cmdBits then
    match decodeCmd (BitVec.ofNat 40 w) with
    | .ok i => some i
    | .error _ => none
  else
    match decodeRun (tableRun nbits w) with
    | .ok (i, _) => some i
    | .error _ => none

end Sys2Proof
end

