-- ==== Sys2Proof/Machine/State.lean ====
section
/-! DEFINITION. The state of the FPK block (spec R20 to R37), the reasons a step can stop, and the state
after reset (R38, R230). Plain data throughout. -/

namespace Sys2Proof.Machine

/-- The frame store `FS` (R23) as address and byte pairs: an index that is not listed holds 0, the value
that reset and `INIT` give every byte (R38, R194). -/
abbrev Memory := List Host.Cell

/-- The causes of a block fault (R201). Raising one is no stop of the machine: the command answers a next
state with the fault recorded (R205, `State.raise`). -/
inductive Cause where
  /-- The command word's `op` is reserved. -/
  | illcmd
  /-- A command that needs a geometry while `STATUS.CONFIGURED = 0`. -/
  | nocfg
  /-- `INIT` with an illegal geometry. -/
  | badcfg
  /-- `LEN > MAX_LEN`, or a pixel index `>= NPIX`. -/
  | badarg
  /-- An `Eos` beat where a data byte was needed. -/
  | trunc
  /-- A run's count is greater than the logical bytes left. -/
  | overrun
  /-- A run key with count 0. -/
  | zerocnt
  deriving DecidableEq, Repr

/-- The unit registers of `frame_packer` (R33). -/
structure PackerRegs where
  /-- `pk_acc`: the bits accepted but not yet emitted, low bit oldest. -/
  acc : BitVec 10
  /-- `pk_n`: how many bits of `pk_acc` are valid. -/
  n : BitVec 4
  /-- `pix`: the number of codes taken this frame. -/
  pix : Nat
  deriving DecidableEq, Repr

/-- The unit registers of `rle_encoder` (R34). -/
structure EncoderRegs where
  /-- `off`: the cursor, the source's `offset`. -/
  off : Nat
  /-- `count`: the count of the run formed last. -/
  count : Nat
  /-- `last`: the last byte that a literal scan accepted. -/
  last : Byte
  deriving DecidableEq, Repr

/-- The unit registers of `rle_decoder` (R35) and the part of the work buffer `WB` (R24) that the command
has written: the decoder's `out`, `WB[0 .. wr-1]`. Two of R35's registers are views of these fields:
`count` is the low bits of `key`, and `wr` is the length of `wb` (`Decoder.count`, `Decoder.wr`). -/
structure Decoder where
  /-- `exp`: the logical bytes still to produce, the source's `expectedLength`. -/
  exp : Nat
  /-- `key`: the key byte of the run taken last. -/
  key : Byte
  /-- `WB[0 .. wr-1]`: the logical bytes produced. -/
  wb : List Byte
  deriving DecidableEq, Repr

/-- The commands that the decoder works for (R170, R183): which one is in progress. -/
inductive Busy where
  | rledec
  | decf
  deriving DecidableEq, Repr

/-- The registers between frames and buffers: all 0 (R33 to R35, R38). -/
def PackerRegs.zero : PackerRegs := { acc := 0, n := 0, pix := 0 }
def EncoderRegs.zero : EncoderRegs := { off := 0, count := 0, last := 0 }
def Decoder.zero : Decoder := { exp := 0, key := 0, wb := [] }

/-- The state of the block (R20). -/
structure State where
  /-- `CFG_W`, register 0 (R27). -/
  cfgW : Word
  /-- `CFG_H`, register 1 (R27). -/
  cfgH : Word
  /-- `STATUS`, register 2: `CONFIGURED` in bit 0, `FAULT` in bits 7:4, the rest reserved (R28). -/
  status : Word
  /-- `FAULT_INFO`, register 3 (R29). -/
  faultInfo : Word
  /-- `FRAMES`, register 4 (R30). -/
  frames : Word
  /-- `CAP`, register 5: hardwired to the parameter `MAX_NPIX` (R11, R31). No command writes it; holding it
  here is how the model takes the parameter as an argument (log 1). -/
  cap : Word
  /-- The frame store `FS` (R23). -/
  fs : Memory
  /-- The registers of `frame_packer` (R33), 0 between commands (R20). -/
  pk : PackerRegs
  /-- The registers of `rle_encoder` (R34), 0 between commands (R20). -/
  enc : EncoderRegs
  /-- The registers of `rle_decoder` (R35) and its part of `WB` (R24), 0 and empty between commands (R20). -/
  dec : Decoder
  /-- The command whose run stream the decoder is in the middle of (R20, R22); none between commands. -/
  busy : Option Busy
  /-- The `cmd` queue, head first (R25). -/
  cmd : List CmdWord
  /-- The `code_in` queue, head first (R25). -/
  codeIn : List Code
  /-- The `byte_in` queue, head first (R25). -/
  byteIn : List Beat
  /-- What the block has put on `byte_out`, oldest first (R25). -/
  byteOut : List Byte
  /-- What the block has put on `code_out`, oldest first (R25). -/
  codeOut : List Code
  /-- The model's own: how many hardware resets have cut a command short, the argument of the free values
  of Config (log 8). -/
  hwResets : Nat
  deriving DecidableEq, Repr

/-- Why no step happens. A block fault (R201) is not here: it is a next state. -/
inductive Fault where
  /-- Raised by `step` when `cmd` is empty: the block is idle, keeps all its state and takes the next command
  whenever it comes (R218, R253). No transition is enabled, and the state is as it was. Safe (log 2). -/
  | idle
  /-- Raised by `PACK` and `ENCF` when `code_in` holds fewer than `NPIX` beats: the command waits, has done
  nothing, and its word is still at the head of `cmd` (R62, R247, 93 U15 "stuck"). Safe (log 2). -/
  | waitsForCode
  /-- Raised by `DELTA`, `FOLD`, `RLEENC`, `RLEDEC`, `DECF`, `REP` and `LIT` when `byte_in` ends before the beats
  that decide the outcome: the command waits, as above (R62, R247, 93 U15 "stuck"). Safe (log 2). -/
  | waitsForByte
  /-- Raised by a command that would reach `FS[j]` with `j >= MAX_LEN`, a byte that does not exist (R15, R16).
  It needs a configured geometry beyond the capacity, which no run reaches (R39 (b)). Safe (log 3). -/
  | noSuchFrameByte
  deriving DecidableEq, Repr

/-- Why an instruction has no meaning. -/
inductive Refusal where
  /-- Raised by an arm of `exec` whose instruction is not modelled yet; no arm is left. Safe. -/
  | notModelled (mnemonic : String)
  deriving DecidableEq, Repr

/-- The state of a block of capacity `cap` after hardware reset (R38, R230), its queues empty: what they
hold is the host's (log 5). -/
def State.resetWith (cap : Word) : State :=
  { cfgW := 0, cfgH := 0, status := 0, faultInfo := 0, frames := 0, cap := cap, fs := [],
    pk := .zero, enc := .zero, dec := .zero, busy := none,
    cmd := [], codeIn := [], byteIn := [], byteOut := [], codeOut := [], hwResets := 0 }

/-- The machine right after reset (R38, R230), at the capacity of Config (log 1). -/
def State.reset : State := State.resetWith Config.maxNpix

end Sys2Proof.Machine
end

