-- ==== Sys2Proof/Machine/Flags.lean ====
section
/-! DEFINITION. The fields of `STATUS` (spec R28) and the cause codes (R201). The block has no condition
codes and no arithmetic flags (R32). -/

namespace Sys2Proof.Machine

/-- The code of a cause in `STATUS.FAULT` (R201); 0 is no fault, 8 to 15 never occur. -/
def Cause.code : Cause → BitVec 4
  | .illcmd => 1
  | .nocfg => 2
  | .badcfg => 3
  | .badarg => 4
  | .trunc => 5
  | .overrun => 6
  | .zerocnt => 7

/-- The bits of `STATUS` that a field owns: `CONFIGURED` in bit 0, `FAULT` in bits 7:4 (R28). -/
def statusFields : Word := 0xF1

/-- `STATUS.CONFIGURED`, bit 0 (R28). -/
def statusConfigured (status : Word) : Bool := status.getLsbD 0

/-- `STATUS.FAULT`, bits 7:4 (R28). -/
def statusFault (status : Word) : BitVec 4 := status.extractLsb' 4 4

/-- Write `STATUS.CONFIGURED` and keep every other bit. -/
def statusSetConfigured (status : Word) (b : Bool) : Word :=
  (status &&& 0xFFFFFFFE#32) ||| (if b then 1#32 else 0#32)

/-- Write `STATUS.FAULT` and keep every other bit. -/
def statusSetFault (status : Word) (code : BitVec 4) : Word :=
  (status &&& 0xFFFFFF0F#32) ||| (code.setWidth 32 <<< 4)

def State.configured (s : State) : Bool := statusConfigured s.status

def State.faultCode (s : State) : BitVec 4 := statusFault s.status

/-- A fault is recorded, and stays so until reset (R28, R206). -/
def State.faulted (s : State) : Bool := s.faultCode != 0

/-- The output line `fault`: a level, high exactly when `STATUS.FAULT != 0` (R207); nothing masks it (R220). -/
def State.faultLine (s : State) : Bool := s.faulted

end Sys2Proof.Machine
end

