-- ==== Sys2Proof/Machine/Operands.lean ====
section
/-! DEFINITION. The operands of a command: the configured geometry and the capacity (spec R11, R12), and
which commands need the geometry (R73). All are natural numbers, computed exactly. -/

namespace Sys2Proof.Machine

/-- `MAX_NPIX`, the capacity in pixels (R11). -/
def State.maxNpix (s : State) : Nat := s.cap.toNat

/-- `MAX_LEN = ceil(3*MAX_NPIX/8)`, the capacity in bytes (R11). -/
def State.maxLen (s : State) : Nat := (Config.codeBits * s.maxNpix + 7) / 8

/-- `W` (R12). -/
def State.width (s : State) : Nat := s.cfgW.toNat

/-- `H` (R12). -/
def State.height (s : State) : Nat := s.cfgH.toNat

/-- `NPIX = W * H`, exact (R12). -/
def State.npix (s : State) : Nat := s.width * s.height

/-- `NBITS = 3 * NPIX` (R12). -/
def State.nbits (s : State) : Nat := Config.codeBits * s.npix

/-- `PSZ = ceil(NBITS / 8)`, the source's `packedSize` (R12). -/
def State.psz (s : State) : Nat := (s.nbits + 7) / 8

/-- `TAILBITS = NBITS mod 8`, 0 meaning all 8 (R12). -/
def State.tailBits (s : State) : Nat := s.nbits % 8

/-- The mask of the used bits of a last byte that has `tailBits` of them (R12). -/
def maskOfTail (tailBits : Nat) : Byte :=
  if tailBits = 0 then 0xFF else BitVec.ofNat 8 (2 ^ tailBits - 1)

/-- `TAILMASK` (R12). -/
def State.tailMask (s : State) : Byte := maskOfTail s.tailBits

/-- `PADBITS`, the unused bits at the top of the last byte (R12). -/
def State.padBits (s : State) : Nat := 8 * s.psz - s.nbits

/-- The legal geometries, which `INIT` checks (R27, R194); the product is exact and never wraps. -/
def State.legalGeometry (s : State) : Bool :=
  s.cfgW != 0 && s.cfgH != 0 && s.npix ≤ s.maxNpix

end Sys2Proof.Machine

namespace Sys2Proof

/-- The opcode of a command (R73); a run has none. -/
def Instr.opcode : Instr → Option Byte
  | .rst => some opRst
  | .setw _ => some opSetw
  | .seth _ => some opSeth
  | .init => some opInit
  | .pack => some opPack
  | .delta => some opDelta
  | .rleenc _ => some opRleenc
  | .encf => some opEncf
  | .rledec _ => some opRledec
  | .fold => some opFold
  | .decf => some opDecf
  | .extract _ => some opExtract
  | .unpack => some opUnpack
  | .dump => some opDump
  | .rep _ _ | .lit _ => none

/-- The commands that need `STATUS.CONFIGURED` (R73). -/
def Instr.needsConfigured : Instr → Bool
  | .pack | .delta | .encf | .fold | .decf | .extract _ | .unpack | .dump => true
  | .rst | .setw _ | .seth _ | .init | .rleenc _ | .rledec _ | .rep _ _ | .lit _ => false

end Sys2Proof
end

