-- ==== Sys2Proof/Machine/Ops.lean ====
section
/-! DEFINITION. The named operations over the frame store, the registers and the ports (spec R16, R26, R62,
R195), taking a fault (R205) and leaving the faulted state (R191, R212), and the check that every
command makes first (R204). -/

namespace Sys2Proof.Machine

/-- What a meaning answers. -/
abbrev Result := Host.Outcome State Fault Refusal

/-! ## The frame store -/

/-- The canonical form: indices strictly rising, no byte listed that an unlisted index reads as. -/
abbrev Memory.wf (m : Memory) : Prop :=
  List.Pairwise (fun a b : Host.Cell => a.1 < b.1) m ∧ ∀ c ∈ m, c.2 ≠ 0

/-- `FS[j]` (R16); an unlisted byte is 0 (R38). -/
def Memory.read : Memory → Nat → Byte
  | [], _ => 0
  | (k, b) :: rest, j => if k = j then b else Memory.read rest j

/-- `FS[j] <- b` (R16), keeping the canonical form. -/
def Memory.write : Memory → Nat → Byte → Memory
  | [], j, b => if b = 0 then [] else [(j, b)]
  | (k, v) :: rest, j, b =>
    if j < k then (if b = 0 then (k, v) :: rest else (j, b) :: (k, v) :: rest)
    else if j = k then (if b = 0 then rest else (j, b) :: rest)
    else (k, v) :: Memory.write rest j b

/-- `FS[j], FS[j+1], ..` written with the given bytes, in ascending order (R198). -/
def Memory.writeFrom : Memory → Nat → List Byte → Memory
  | m, _, [] => m
  | m, j, b :: bs => Memory.writeFrom (Memory.write m j b) (j + 1) bs

/-- `MemRead(FS, j, n)`: `n` bytes assembled little-endian (R16, R52). -/
def memRead (m : Memory) (j : Nat) : Nat → Nat
  | 0 => 0
  | n + 1 => (Memory.read m j).toNat + 256 * memRead m (j + 1) n

/-- `MemWrite(FS, j, n, v)`: the `n` little-endian bytes of `v` (R16). -/
def memWrite (m : Memory) (j : Nat) : Nat → Nat → Memory
  | 0, _ => m
  | n + 1, v => memWrite (Memory.write m j (BitVec.ofNat 8 v)) (j + 1) n (v / 256)

/-- `FS[0 .. PSZ-1]`, the frame that the store holds (R23). -/
def State.frame (s : State) : List Byte := (List.range s.psz).map (Memory.read s.fs)

/-- The frame, when the store has all its bytes; none when one of them does not exist (R16: `0 <= j < MAX_LEN`). -/
def State.frame? (s : State) : Option (List Byte) :=
  if s.psz ≤ s.maxLen then some s.frame else none

/-- `for j in 0 .. PSZ-1: FS[j] <- p[j]`. -/
def State.storeFrame (s : State) (p : List Byte) : State :=
  { s with fs := Memory.writeFrom s.fs 0 p }

/-- `FRAMES <- (FRAMES + 1) mod 2^32` (R30, R131). -/
def State.countFrame (s : State) : State := { s with frames := s.frames + 1 }

/-- Go on with the frame that the store holds. -/
def withFrame (s : State) (body : List Byte → Result) : Result :=
  match s.frame? with
  | some f => body f
  | none => .fault .noSuchFrameByte

/-! ## Registers -/

/-- The names of the six registers (R26). -/
inductive RegName where
  | cfgW | cfgH | status | faultInfo | frames | cap
  deriving DecidableEq, Repr

/-- A register by its number on the status interface (R26). -/
def regOfNumber : Nat → Option RegName
  | 0 => some .cfgW
  | 1 => some .cfgH
  | 2 => some .status
  | 3 => some .faultInfo
  | 4 => some .frames
  | 5 => some .cap
  | _ => none

/-- A read on the status interface (R195): the value that the last committed command left, without side
effect. -/
def State.readReg (s : State) : RegName → Word
  | .cfgW => s.cfgW
  | .cfgH => s.cfgH
  | .status => s.status
  | .faultInfo => s.faultInfo
  | .frames => s.frames
  | .cap => s.cap

/-! ## The end of a command, and faults -/

/-- The unit registers are 0 between commands, and no command is in progress (R20, R33 to R35). -/
def State.endCommand (s : State) : State :=
  { s with pk := .zero, enc := .zero, dec := .zero, busy := none }

/-- TAKING A FAULT (R205): record the cause and its information, keep every other register and the frame store, and
abandon the command. The beats that the command took (R209) are gone already from the state given
here, and nothing it would have emitted is there. -/
def State.raise (s : State) (c : Cause) (info : Word) : State :=
  { s with status := statusSetFault s.status c.code, faultInfo := info }.endCommand

/-- LEAVING THE FAULTED STATE (R212): there is no return, only reset. The reset state of R38, which leaves the
port queues as they are (R191, R232). -/
def State.softReset (s : State) : State :=
  { s with cfgW := 0, cfgH := 0, status := 0, faultInfo := 0, frames := 0, fs := [] }.endCommand

/-- `Precheck()` (R204), steps 2 and 4, of a command that is not `RST`: once a fault is recorded the
command is dropped (R206); a command that needs the geometry raises `NOCFG` without one. -/
def precheck (op : Byte) (needsConfigured : Bool) (s : State) (body : Result) : Result :=
  if s.faulted then .next s
  else if needsConfigured && !s.configured then .next (s.raise .nocfg (zext op))
  else body

/-- A command word whose `op` is reserved (R204, steps 2 and 3; R74). -/
def illegalCommand (op : Byte) (s : State) : Result :=
  if s.faulted then .next s else .next (s.raise .illcmd (zext op))

/-! ## Ports -/

/-- `EmitByte`, once for each byte in order (R16). -/
def State.emitBytes (s : State) (bs : List Byte) : State := { s with byteOut := s.byteOut ++ bs }

/-- `EmitCode`, once for each code in order (R16). -/
def State.emitCodes (s : State) (cs : List Code) : State := { s with codeOut := s.codeOut ++ cs }

/-- What `n` calls of `TakeByte` come to (R16, R62, R168). -/
inductive Taken where
  /-- The bytes taken and the beats left. -/
  | got (bytes : List Byte) (rest : List Beat)
  /-- An `Eos` beat was met, and is taken too (R209). -/
  | trunc (rest : List Beat)
  /-- The queue ends first: nothing is taken (R62). -/
  | wait
  deriving DecidableEq, Repr

/-- Take `n` data bytes from the head of a queue. -/
def takeBytes : Nat → List Beat → Taken
  | 0, q => .got [] q
  | _ + 1, [] => .wait
  | _ + 1, .eos :: q => .trunc q
  | n + 1, .data b :: q =>
    match takeBytes n q with
    | .got bs rest => .got (b :: bs) rest
    | .trunc rest => .trunc rest
    | .wait => .wait

/-- Go on with `n` bytes taken from `byte_in`; `TRUNC` at an `Eos`, and wait when the queue ends. -/
def withBytes (n : Nat) (s : State) (body : List Byte → State → Result) : Result :=
  match takeBytes n s.byteIn with
  | .got bs rest => body bs { s with byteIn := rest }
  | .trunc rest => .next ({ s with byteIn := rest }.raise .trunc 0)
  | .wait => .fault .waitsForByte

/-- Go on with `n` codes taken from `code_in`; wait when it holds fewer. It has no `Eos` (R25, R62). -/
def withCodes (n : Nat) (s : State) (body : List Code → State → Result) : Result :=
  if s.codeIn.length < n then .fault .waitsForCode
  else body (s.codeIn.take n) { s with codeIn := s.codeIn.drop n }

end Sys2Proof.Machine
end

