-- ==== Sys2Proof/Machine/Control.lean ====
section
/-! DEFINITION. The control commands (spec 45): `RST`, `SETW`, `SETH`, `INIT`. -/

namespace Sys2Proof.Machine

/-- Write `STATUS.CONFIGURED`. -/
def State.setConfigured (s : State) (b : Bool) : State :=
  { s with status := statusSetConfigured s.status b }

/-- `RST` (R191): carried out whatever `STATUS.FAULT` is. -/
def execRst (s : State) : Result := .next s.softReset

/-- `SETW arg` (R192). -/
def execSetw (arg : Word) (s : State) : Result :=
  precheck opSetw false s <| .next ({ s with cfgW := arg }.setConfigured false)

/-- `SETH arg` (R193). -/
def execSeth (arg : Word) (s : State) : Result :=
  precheck opSeth false s <| .next ({ s with cfgH := arg }.setConfigured false)

/-- `INIT` (R194). -/
def execInit (s : State) : Result :=
  precheck opInit false s <|
    if s.legalGeometry then .next ({ s with fs := [], frames := 0 }.setConfigured true)
    else .next (s.raise .badcfg 0)

end Sys2Proof.Machine
end

