-- ==== Sys2Proof/Machine/Delta.lean ====
section
/-! DEFINITION. The delta transform and the XOR fold (spec 41): `DELTA`, `FOLD`. -/

namespace Sys2Proof.Machine

/-- The byte-wise XOR of two frames (R129). -/
def xorF (f p : List Byte) : List Byte := List.zipWith (· ^^^ ·) f p

/-- `MaskF(D, m)` (R121): the last byte ANDed with the mask. -/
def maskF : List Byte → Byte → List Byte
  | [], _ => []
  | [b], m => [b &&& m]
  | b :: c :: rest, m => b :: maskF (c :: rest) m

/-- `DeltaF(f, p)` (R122): the masked XOR of the held frame and the new one. -/
def deltaF (f p : List Byte) (tailMask : Byte) : List Byte := maskF (xorF f p) tailMask

/-! The beat-by-beat forms (R130), one byte at index `j`. -/

/-- `DELTA` at beat `j`: the byte put out, and the frame store with `p` in its place. -/
def deltaBeat (psz : Nat) (tailMask : Byte) (fs : Memory) (j : Nat) (p : Byte) : Byte × Memory :=
  ((Memory.read fs j ^^^ p) &&& (if j + 1 = psz then tailMask else 0xFF), Memory.write fs j p)

/-- `DELTA`'s beats from index `j` on. -/
def deltaBeats (psz : Nat) (tailMask : Byte) : Memory → Nat → List Byte → List Byte × Memory
  | fs, _, [] => ([], fs)
  | fs, j, p :: ps =>
    let h := deltaBeat psz tailMask fs j p
    let t := deltaBeats psz tailMask h.2 (j + 1) ps
    (h.1 :: t.1, t.2)

/-- `FOLD` at beat `j`. -/
def foldBeat (fs : Memory) (j : Nat) (d : Byte) : Memory :=
  Memory.write fs j (Memory.read fs j ^^^ d)

/-- `FOLD`'s beats from index `j` on. -/
def foldBeats : Memory → Nat → List Byte → Memory
  | fs, _, [] => fs
  | fs, j, d :: ds => foldBeats (foldBeat fs j d) (j + 1) ds

/-! The commands. -/

/-- `DELTA` (R124): the store takes the frame as given, its pad bits not masked (R126). -/
def execDelta (s : State) : Result :=
  precheck opDelta true s <|
    withBytes s.psz s fun p s =>
      withFrame s fun f =>
        .next ((s.emitBytes (deltaF f p s.tailMask)).storeFrame p).countFrame

/-- `FOLD` (R125). -/
def execFold (s : State) : Result :=
  precheck opFold true s <|
    withBytes s.psz s fun d s =>
      withFrame s fun f => .next (s.storeFrame (xorF f d)).countFrame

end Sys2Proof.Machine
end

