-- ==== Sys2Proof/Machine/Packer.lean ====
section
/-! DEFINITION. The frame packer and its inverse (spec 40): `PACK`, `EXTRACT`, `UNPACK`, `DUMP`. -/

namespace Sys2Proof.Machine

/-- OR a byte into a buffer at an index. -/
def orByte (P : List Byte) (j : Nat) (b : Byte) : List Byte := P.set j (P.getD j 0 ||| b)

/-- Write the code of pixel `i` at bit offset `3*i`, least-significant bit first: the body of `PackF`'s
loop (R101). -/
def packAt (P : List Byte) (i : Nat) (c : Code) : List Byte :=
  let j := Config.codeBits * i / 8
  let s := Config.codeBits * i % 8
  let P := orByte P j (c.setWidth 8 <<< s)
  if s > 5 then orByte P (j + 1) (c.setWidth 8 >>> (8 - s)) else P

/-- `PackF`'s loop from pixel `i` on. -/
def packFrom : List Byte → Nat → List Code → List Byte
  | P, _, [] => P
  | P, i, c :: cs => packFrom (packAt P i c) (i + 1) cs

/-- The number of bytes of `n` packed codes, `ceil(3*n/8)` (R101). -/
def packedLen (n : Nat) : Nat := (Config.codeBits * n + 7) / 8

/-- `PackF(codes)` (R101): the codes OR-ed into a pre-zeroed buffer. -/
def packF (codes : List Code) : List Byte :=
  packFrom (List.replicate (packedLen codes.length) 0) 0 codes

/-- `ExtractF(P, i)` (R106): the code of pixel `i` in a packed frame. -/
def extractF (P : List Byte) (i : Nat) : Code :=
  let j := Config.codeBits * i / 8
  let s := Config.codeBits * i % 8
  if s ≤ 5 then (P.getD j 0 >>> s).setWidth 3
  else (P.getD j 0 >>> s ||| P.getD (j + 1) 0 <<< (8 - s)).setWidth 3

/-- The codes of pixels `0 .. n-1` of a packed frame, in order (R110). -/
def unpackF (P : List Byte) (n : Nat) : List Code := (List.range n).map (extractF P)

/-! The beat-by-beat form (R103), on the unit registers of R33. -/

/-- A code's bits go above the bits that wait. -/
def packPush (r : PackerRegs) (c : Code) : PackerRegs :=
  { acc := r.acc ||| (c.setWidth 10 <<< r.n.toNat), n := r.n + 3, pix := r.pix + 1 }

/-- A full byte is emitted. -/
def packEmit (r : PackerRegs) : PackerRegs × List Byte :=
  if 8 ≤ r.n.toNat then ({ r with acc := r.acc >>> 8, n := r.n - 8 }, [r.acc.setWidth 8]) else (r, [])

/-- After the frame's last code the partial byte is emitted. -/
def packFlush (npix : Nat) (r : PackerRegs) : PackerRegs × List Byte :=
  if r.pix = npix ∧ 0 < r.n.toNat then ({ r with acc := 0, n := 0 }, [r.acc.setWidth 8]) else (r, [])

/-- One code beat: the registers after it and the bytes emitted. -/
def packBeat (npix : Nat) (r : PackerRegs) (c : Code) : PackerRegs × List Byte :=
  let e := packEmit (packPush r c)
  let f := packFlush npix e.1
  (f.1, e.2 ++ f.2)

/-- A streaming packer: `packBeat` on each code, from the given registers. -/
def packBeats (npix : Nat) : PackerRegs → List Code → PackerRegs × List Byte
  | r, [] => (r, [])
  | r, c :: cs =>
    let h := packBeat npix r c
    let t := packBeats npix h.1 cs
    (t.1, h.2 ++ t.2)

/-! The commands. -/

/-- `PACK` (R105). -/
def execPack (s : State) : Result :=
  precheck opPack true s <|
    withCodes s.npix s fun codes s => .next (s.emitBytes (packF codes)).endCommand

/-- `EXTRACT i` (R108). -/
def execExtract (i : Word) (s : State) : Result :=
  precheck opExtract true s <|
    if s.npix ≤ i.toNat then .next (s.raise .badarg i)
    else withFrame s fun f => .next (s.emitCodes [extractF f i.toNat])

/-- `UNPACK` (R110). -/
def execUnpack (s : State) : Result :=
  precheck opUnpack true s <|
    withFrame s fun f => .next (s.emitCodes (unpackF f s.npix))

/-- `DUMP` (R111). -/
def execDump (s : State) : Result :=
  precheck opDump true s <|
    withFrame s fun f => .next (s.emitBytes f)

end Sys2Proof.Machine
end

