-- ==== Sys2Proof/Machine/RleDecoder.lean ====
section
/-! DEFINITION. The run-length decoder (spec 43): its two instructions, the runs `REP` and `LIT`, the
function `RleDecF` that interprets a stream of them, and `RLEDEC`. -/

namespace Sys2Proof.Machine

/-- `count`, the low 7 bits of the register `key` (R35). -/
def Decoder.count (d : Decoder) : BitVec 7 := d.key.extractLsb' 0 7

/-- `wr`, the number of logical bytes produced (R35). -/
def Decoder.wr (d : Decoder) : Nat := d.wb.length

/-- The decoder at the start of a buffer of `L` logical bytes: `exp` starts at `L` (R35). -/
def Decoder.start (L : Nat) : Decoder := { exp := L, key := 0, wb := [] }

/-! ## One run -/

/-- The tests on a run's count, before any payload byte is taken (R164, R165, R169). -/
def countFault (exp count : Nat) : Option Cause :=
  if count = 0 then some .zerocnt else if exp < count then some .overrun else none

/-- The effect of a repeat run on the decoder: `count` copies of `v` (R167). -/
def repRun (count : Nat) (v : Byte) (d : Decoder) : Decoder :=
  { d with wb := d.wb ++ List.replicate count v, exp := d.exp - count }

/-- The effect of a literal run on the decoder: the payload, verbatim (R166). -/
def litRun (payload : List Byte) (d : Decoder) : Decoder :=
  { d with wb := d.wb ++ payload, exp := d.exp - payload.length }

/-- The run `REP count, v` as an instruction of the interpreter (R167), its key taken already. -/
def execRep (count : BitVec 7) (v : Byte) (s : State) : Result :=
  match countFault s.dec.exp count.toNat with
  | some c => .next (s.raise c (zext (repKey count.toNat)))
  | none => withBytes 1 s fun _ s => .next { s with dec := repRun count.toNat v s.dec }

/-- The run `LIT` as an instruction of the interpreter (R166), its key taken already. -/
def execLit (payload : List Byte) (s : State) : Result :=
  match countFault s.dec.exp payload.length with
  | some c => .next (s.raise c (zext (litKey payload.length)))
  | none => withBytes payload.length s fun _ s => .next { s with dec := litRun payload s.dec }

/-! ## The stream -/

/-- What the head of a run stream comes to (R62, R163 to R169). -/
inductive RunFetch where
  /-- A whole run: its key, its payload, the beats after the key and the beats after the run. -/
  | run (key : Byte) (payload : List Byte) (afterKey rest : List Beat)
  /-- A fault, its information, and the beats left (R209). -/
  | raise (c : Cause) (info : Word) (rest : List Beat)
  /-- The queue ends before the outcome is decided. -/
  | wait
  deriving DecidableEq, Repr

/-- Read the run at the head of a stream when `exp` bytes are wanted, testing in the order of R169. -/
def fetchRun (exp : Nat) : List Beat → RunFetch
  | [] => .wait
  | .eos :: q => .raise .trunc 0 q
  | .data key :: q =>
    match countFault exp (keyCount key) with
    | some c => .raise c (zext key) q
    | none =>
      match takeBytes (payloadLen key) q with
      | .got payload rest => .run key payload q rest
      | .trunc rest => .raise .trunc 0 rest
      | .wait => .wait

/-- The effect of one whole run on the decoder: the dispatch on `key[7]` (R161). -/
def applyRun (key : Byte) (payload : List Byte) (d : Decoder) : Decoder :=
  let d := { d with key := key }
  if keyIsLit key then litRun payload d else repRun (keyCount key) (payload.headD 0) d

/-- The result of `RleDecF` (R161): the bytes decoded, or a fault, each with the beats left; or the
stream ends first. -/
inductive Decoded where
  | done (out : List Byte) (rest : List Beat)
  | raise (c : Cause) (info : Word) (rest : List Beat)
  | wait
  deriving DecidableEq, Repr

/-- `RleDecF`'s loop, at most `fuel` runs. -/
def decLoop : Nat → Decoder → List Beat → Decoded
  | fuel, d, q =>
    if d.exp = 0 then .done d.wb q
    else
      match fuel with
      | 0 => .wait
      | fuel + 1 =>
        match fetchRun d.exp q with
        | .run key payload _ rest => decLoop fuel (applyRun key payload d) rest
        | .raise c info rest => .raise c info rest
        | .wait => .wait

/-- `RleDecF(S, L)` (R161). Every run produces a byte, so `L` runs are enough. -/
def rleDecF (S : List Beat) (L : Nat) : Decoded := decLoop L (Decoder.start L) S

/-! ## RLEDEC -/

/-- What a decoding command does with the `out` that its run stream came to (R162): `RLEDEC` emits it (R170),
`DECF` folds it into the frame store and counts the frame (R183). -/
def finishDecode (b : Busy) (out : List Byte) (s : State) : Result :=
  match b with
  | .rledec => .next (s.emitBytes out).endCommand
  | .decf => withFrame s fun f => .next ((s.storeFrame (xorF f out)).countFrame).endCommand

/-- Decode `L` logical bytes from `byte_in` for a command (R170, R183). -/
def decodeFor (b : Busy) (L : Nat) (s : State) : Result :=
  match rleDecF s.byteIn L with
  | .done out rest => finishDecode b out { s with byteIn := rest }
  | .raise c info rest => .next ({ s with byteIn := rest }.raise c info)
  | .wait => .fault .waitsForByte

/-- `RLEDEC LEN` (R170). -/
def execRledec (len : Word) (s : State) : Result :=
  precheck opRledec false s <|
    if s.maxLen < len.toNat then .next (s.raise .badarg len)
    else decodeFor .rledec len.toNat s

/-! ## Run by run (R22, R35, R160): the command in progress is in `State.busy`, its registers in `State.dec` -/

/-- The state in which the decoder is about to read the first run for a command. -/
def State.beginDecode (s : State) (b : Busy) (L : Nat) : State :=
  { s with busy := some b, dec := Decoder.start L }

/-- Take the key at the head of `byte_in` into the register `key` (R163). -/
def State.takeKey (s : State) (key : Byte) : State :=
  { s with byteIn := s.byteIn.drop 1, dec := { s.dec with key := key } }

/-- The interpreter's next step while a command is in progress: the run at the head of `byte_in`, or the
end of the command. -/
def decodeTick (b : Busy) (s : State) : Result :=
  if s.dec.exp = 0 then finishDecode b s.dec.wb s
  else
    match fetchRun s.dec.exp s.byteIn with
    | .run key payload _ _ =>
      if keyIsLit key then execLit payload (s.takeKey key)
      else execRep (key.extractLsb' 0 7) (payload.headD 0) (s.takeKey key)
    | .raise c info rest => .next ({ s with byteIn := rest }.raise c info)
    | .wait => .fault .waitsForByte

/-- At most `fuel` interpreter steps, stopping when no command is in progress. -/
def decodeTicks : Nat → State → Result
  | 0, s => .next s
  | fuel + 1, s =>
    match s.busy with
    | none => .next s
    | some b =>
      match decodeTick b s with
      | .next s => decodeTicks fuel s
      | .fault r => .fault r
      | .refused r => .refused r

end Sys2Proof.Machine
end

