-- ==== Sys2Proof/Machine/RleEncoder.lean ====
section
/-! DEFINITION. The run-length encoder (spec 42): `RLEENC`. -/

namespace Sys2Proof.Machine

/-- Step 2's extension (R144): from `count` equal bytes `b`, with `tail = B[off+count ..]` ahead. -/
def repeatLen (b : Byte) : Nat → List Byte → Nat
  | count, [] => count
  | count, a :: tail => if count < Config.maxRun ∧ a = b then repeatLen b (count + 1) tail else count

/-- Step 3's scan (R145, R146): from `count` bytes accepted, the last of them `last`, with
`tail = B[off+count ..]` ahead. The cap is tested first; the lookahead needs two bytes, and gives up the last
byte accepted. Answers the run's count and the register `last`. -/
def literalLen : Nat → Byte → List Byte → Nat × Byte
  | count, last, [] => (count, last)
  | count, last, a :: tail =>
    if count < Config.maxRun then
      if a = last ∧ tail.head? = some last then (count - 1, last)
      else literalLen (count + 1) a tail
    else (count, last)

/-- One pass of `RleEncF`'s loop at the cursor `off` (R141): the bytes of the run it emits and the
registers after it; none at the end of the buffer (R142). -/
def encPass (B : List Byte) (r : EncoderRegs) : Option (List Byte × EncoderRegs) :=
  match B.drop r.off with
  | [] => none
  | [a] => some (litBytes [a], { r with off := r.off + 1, count := 1 })
  | [a, b] => some (litBytes [a, b], { r with off := r.off + 2, count := 2 })
  | a :: b :: c :: tail =>
    if a = b ∧ a = c then
      let count := repeatLen a Config.minRep tail
      some (repBytes count a, { r with off := r.off + count, count := count })
    else
      let (count, last) := literalLen 3 c tail
      some (litBytes ((a :: b :: c :: tail).take count),
        { off := r.off + count, count := count, last := last })

/-- `RleEncF`'s loop, at most `fuel` passes. -/
def encLoop (B : List Byte) : Nat → EncoderRegs → List Byte
  | 0, _ => []
  | fuel + 1, r =>
    match encPass B r with
    | none => []
    | some (bytes, r) => bytes ++ encLoop B fuel r

/-- `RleEncF(B)` (R141). Every pass moves the cursor, so `len(B)` passes are enough. -/
def rleEncF (B : List Byte) : List Byte := encLoop B B.length .zero

/-- `RLEENC LEN` (R150). -/
def execRleenc (len : Word) (s : State) : Result :=
  precheck opRleenc false s <|
    if s.maxLen < len.toNat then .next (s.raise .badarg len)
    else withBytes len.toNat s fun B s => .next (s.emitBytes (rleEncF B)).endCommand

end Sys2Proof.Machine
end

