-- ==== Sys2Proof/Machine/Pipeline.lean ====
section
/-! DEFINITION. The frame pipelines (spec 44): `ENCF`, `DECF`. -/

namespace Sys2Proof.Machine

/-- `ENCF` (R181): packer, then delta, then encoder. -/
def execEncf (s : State) : Result :=
  precheck opEncf true s <|
    withCodes s.npix s fun codes s =>
      withFrame s fun f =>
        let p := packF codes
        let d := deltaF f p s.tailMask
        .next (((s.emitBytes (rleEncF d)).storeFrame p).countFrame).endCommand

/-- `DECF` (R183): decoder, then fold. The fold happens only after the whole frame has decoded. -/
def execDecf (s : State) : Result :=
  precheck opDecf true s <| decodeFor .decf s.psz s

end Sys2Proof.Machine
end

