-- ==== Sys2Proof/Machine/Dispatch.lean ====
section
/-! DEFINITION. The meaning of every instruction: one arm per constructor. The item's first word is taken already:
a command's word from `cmd` (spec R204), a run's key from `byte_in` (R163). -/

namespace Sys2Proof.Machine

def exec (i : Instr) (s : State) : Host.Outcome State Fault Refusal :=
  match i with
  | .rst => Sys2Proof.Machine.execRst s
  | .setw arg => Sys2Proof.Machine.execSetw arg s
  | .seth arg => Sys2Proof.Machine.execSeth arg s
  | .init => Sys2Proof.Machine.execInit s
  | .pack => Sys2Proof.Machine.execPack s
  | .delta => Sys2Proof.Machine.execDelta s
  | .rleenc len => Sys2Proof.Machine.execRleenc len s
  | .encf => Sys2Proof.Machine.execEncf s
  | .rledec len => Sys2Proof.Machine.execRledec len s
  | .fold => Sys2Proof.Machine.execFold s
  | .decf => Sys2Proof.Machine.execDecf s
  | .extract px => Sys2Proof.Machine.execExtract px s
  | .unpack => Sys2Proof.Machine.execUnpack s
  | .dump => Sys2Proof.Machine.execDump s
  | .rep count v => Sys2Proof.Machine.execRep count v s
  | .lit payload => Sys2Proof.Machine.execLit payload s

end Sys2Proof.Machine
end

