-- ==== Sys2Proof/Machine/Step.lean ====
section
/-! DEFINITION. One step of the block (spec R22, R61, R62, R204): the next command word of `cmd`, or, while a run
stream is being decoded, its next run. -/

namespace Sys2Proof.Machine

/-- One transition. Between commands the word at the head of `cmd` is taken, decoded and carried out as one
step; a reserved word is an `ILLCMD`. A command that waits, and a block that is idle, have no transition
(R62, R218). In a state inside a decoding command the next run is carried out (log 4). -/
def step (s : State) : Host.Outcome State Fault Refusal :=
  match s.busy with
  | some b => decodeTick b s
  | none =>
    match s.cmd with
    | [] => .fault .idle
    | w :: rest =>
      match decodeCmd w with
      | .ok i => exec i { s with cmd := rest }
      | .error _ => illegalCommand (opOf w) { s with cmd := rest }

/-- A word of the opcode table placed where `step` takes its next instruction from: a command at the head of
`cmd`; a run at the head of `byte_in`, with the decoder in progress and wanting at least its count (log 4). -/
def State.withFetchWord (s : State) (nbits w : Nat) : State :=
  if nbits = cmdBits then { s with cmd := BitVec.ofNat 40 w :: s.cmd, busy := none }
  else
    let bytes := tableRun nbits w
    { s with
      byteIn := bytes.map Beat.data ++ s.byteIn
      busy := some (s.busy.getD .rledec)
      dec := { s.dec with exp := max s.dec.exp (max 1 (keyCount (bytes.headD 0))) } }

end Sys2Proof.Machine
end

