-- ==== Sys2Proof/Machine/HostPort.lean ====
section
/-! DEFINITION. What the host can do to the block between steps (spec R25, R195, R231): append beats to the input
queues, take beats from the output queues, and pull hardware reset. None of them is a step of the
block. -/

namespace Sys2Proof.Machine

/-- The host appends a command word to `cmd`. -/
def State.sendCommand (s : State) (w : CmdWord) : State := { s with cmd := s.cmd ++ [w] }

/-- The host appends a code to `code_in`. -/
def State.supplyCode (s : State) (c : Code) : State := { s with codeIn := s.codeIn ++ [c] }

/-- The host appends a data beat or the `Eos` beat to `byte_in`. -/
def State.supplyBeat (s : State) (b : Beat) : State := { s with byteIn := s.byteIn ++ [b] }

/-- The host takes the oldest byte from `byte_out`. -/
def State.drainByte (s : State) : Option (Byte × State) :=
  match s.byteOut with
  | [] => none
  | b :: rest => some (b, { s with byteOut := rest })

/-- The host takes the oldest code from `code_out`. -/
def State.drainCode (s : State) : Option (Code × State) :=
  match s.codeOut with
  | [] => none
  | c :: rest => some (c, { s with codeOut := rest })

/-- The command at the head waits for input: no step is enabled (R62). -/
def State.waits (s : State) : Bool :=
  match step s with
  | .fault .waitsForCode => true
  | .fault .waitsForByte => true
  | _ => false

/-- A command has been taken up and has not happened: it waits for input, or its runs are being decoded (R62, R253). -/
def State.inCommand (s : State) : Bool := s.busy.isSome || s.waits

/-- Hardware reset (R230): the state of R38 at once. Between commands the queues stay as they are. A
command that it cuts short is abandoned without effect, and then the input queues hold values that
the spec leaves open (R231, R232, 93 U16): free values, log 8. What is on the output queues stays. -/
def State.hardwareReset (s : State) : State :=
  if s.inCommand then
    { s.softReset with
      cmd := Config.cmdAfterReset s.hwResets
      codeIn := Config.codesAfterReset s.hwResets
      byteIn := Config.beatsAfterReset s.hwResets
      hwResets := s.hwResets + 1 }
  else s.softReset

end Sys2Proof.Machine
end

