-- ==== Sys2Proof/Safety.lean ====
section
/-! DEFINITION. What claims are stated in terms of: the invariants between commands (spec R39), how a run
ends (R253), and running a list of instructions. -/

namespace Sys2Proof.Machine

/-- Between commands: the unit registers are 0 and no command is in progress (R20, R39 (d)). -/
abbrev State.between (s : State) : Prop :=
  s.pk = .zero ∧ s.enc = .zero ∧ s.dec = .zero ∧ s.busy = none

/-- R39 (b): a configured block has a legal geometry, its frame fits the store, and the store is 0 from
`PSZ` on. -/
abbrev State.configuredOk (s : State) : Prop :=
  s.configured = true →
    1 ≤ s.width ∧ 1 ≤ s.height ∧ s.npix ≤ s.maxNpix ∧ 1 ≤ s.psz ∧ s.psz ≤ s.maxLen ∧
      ∀ c ∈ s.fs, c.1 < s.psz

/-- The invariants that a model may rely on between commands (R39), with the two the model's own data adds: the frame store is in
canonical form and lists only bytes that exist (R23). -/
structure State.Inv (s : State) : Prop where
  /-- R39 (a): the reserved bits of `STATUS` are 0. -/
  reserved : s.status &&& ~~~statusFields = 0
  /-- R39 (a): `STATUS.FAULT <= 7`. -/
  faultSmall : s.faultCode ≤ 7
  /-- R39 (b). -/
  configuredOk : s.configuredOk
  /-- R39 (c). -/
  noFaultNoInfo : s.faulted = false → s.faultInfo = 0
  /-- R39 (d). -/
  between : s.between
  /-- The canonical form of the frame store. -/
  fsWf : Memory.wf s.fs
  /-- `FS` has `MAX_LEN` bytes (R23). -/
  fsBound : ∀ c ∈ s.fs, c.1 < s.maxLen
  /-- `1 <= MAX_NPIX` (R11). -/
  capPos : 1 ≤ s.maxNpix

/-- How a run stands (R253). -/
inductive RunStatus where
  /-- `cmd` is empty, no command is in progress and `STATUS.FAULT = 0`. -/
  | endedWell
  /-- So, but `STATUS.FAULT != 0`: some commands were dropped, and this is never a success (R221). -/
  | endedInFault
  /-- The command at the head of `cmd` waits for input: the run has not ended. -/
  | waiting
  /-- A step is enabled. -/
  | running
  deriving DecidableEq, Repr

/-- How a run stands in a state (R253). -/
def State.runStatus (s : State) : RunStatus :=
  if s.waits then .waiting
  else if s.cmd = [] ∧ s.busy = none then (if s.faulted then .endedInFault else .endedWell)
  else .running

/-- A command that needs the geometry gets past `Precheck()` (R204): no fault is recorded and the block is
configured. -/
abbrev State.ready (s : State) : Prop := s.faulted = false ∧ s.configured = true

/-- The frame lies within the store (R39 (b)). -/
abbrev State.fits (s : State) : Prop := s.psz ≤ s.maxLen

/-- Carry out a list of instructions one after the other. -/
def execAll : List Instr → State → Result
  | [], s => .next s
  | i :: is, s =>
    match exec i s with
    | .next t => execAll is t
    | .fault r => .fault r
    | .refused r => .refused r

end Sys2Proof.Machine
end

