-- ==== Sys2Proof/Certificates/Slice0/Obligations.lean ====
section
/-! DEFINITION. The statements for the provers, in the order of the spec's files. Each docstring names the rule that it
formalises. A statement about a command's next state writes it as the state before with the changed fields replaced, so that
it says the frame too: every field that is not named is unchanged. -/

open Sys2Proof Sys2Proof.Machine

/-! ## Geometry -/

/-- R12: the derived values, and their table by `NPIX mod 8`. -/
def Obligations.TailValuesDependOnPixelCountModEight : Prop :=
  ∀ s : State,
    s.nbits = 3 * (s.cfgW.toNat * s.cfgH.toNat) ∧ 8 * s.psz = s.nbits + s.padBits ∧ s.padBits < 8 ∧
    s.tailBits = [0, 3, 6, 1, 4, 7, 2, 5].getD (s.npix % 8) 0 ∧
    s.tailMask = ([0xFF, 0x07, 0x3F, 0x01, 0x0F, 0x7F, 0x03, 0x1F] : List Byte).getD (s.npix % 8) 0 ∧
    s.padBits = [0, 5, 2, 7, 4, 1, 6, 3].getD (s.npix % 8) 0

/-! ## State, reset, invariants -/

/-- R38, R39: the state after reset, at every capacity that R11 allows, meets the invariants, and its registers and frame
store hold what R38 says. (The reset state of the model is the instance of log 1; its empty queues are log 5.) -/
def Obligations.ResetMeetsTheInvariants : Prop :=
  (∀ cap : Word, 1 ≤ cap.toNat →
    (State.resetWith cap).Inv ∧
    (∀ r : RegName, (State.resetWith cap).readReg r = if r = .cap then cap else 0) ∧
    (∀ j, Memory.read (State.resetWith cap).fs j = 0) ∧
    (State.resetWith cap).faultLine = false ∧ (State.resetWith cap).configured = false) ∧
  State.reset.Inv

/-- R39: every step from a state that meets the invariants leads to one that meets them. -/
def Obligations.EveryStepKeepsTheInvariants : Prop :=
  ∀ s t : State, s.Inv → step s = .next t → t.Inv

/-- R26, R23, R31: which instructions can change which register, and the frame store. `CAP` never changes. -/
def Obligations.RegistersChangeOnlyByTheirCommands : Prop :=
  ∀ (i : Instr) (s t : State), exec i s = .next t →
    (t.cfgW ≠ s.cfgW → i = .rst ∨ ∃ a, i = .setw a) ∧
    (t.cfgH ≠ s.cfgH → i = .rst ∨ ∃ a, i = .seth a) ∧
    (t.faultInfo ≠ s.faultInfo → i = .rst ∨ t.faulted = true) ∧
    (t.frames ≠ s.frames → i ∈ [.delta, .fold, .encf, .decf, .init, .rst]) ∧
    (t.fs ≠ s.fs → i ∈ [.delta, .fold, .encf, .decf, .init, .rst]) ∧
    (t.configured ≠ s.configured → i ∈ [.init, .rst] ∨ ∃ a, i = .setw a ∨ i = .seth a) ∧
    t.cap = s.cap

/-! ## Memory and ordering -/

/-- R54: a byte of a packed frame belongs to pixels `(8*j) div 3` to `(8*j+7) div 3`; changing it changes the code of no
other pixel. -/
def Obligations.AByteTouchesOnlyItsPixels : Prop :=
  ∀ (P : List Byte) (j : Nat) (b : Byte) (i : Nat), i < 8 * j / 3 ∨ (8 * j + 7) / 3 < i →
    extractF (P.set j b) i = extractF P i

/-- R25, R61: the queues are first-in first-out. A step between commands takes exactly the oldest command word; input
queues lose beats at their heads only, output queues gain beats at their ends only. -/
def Obligations.QueuesAreFirstInFirstOut : Prop :=
  ∀ s t : State, step s = .next t →
    (s.busy = none → ∃ w, s.cmd = w :: t.cmd) ∧ (s.busy ≠ none → t.cmd = s.cmd) ∧
    t.codeIn <:+ s.codeIn ∧ t.byteIn <:+ s.byteIn ∧
    s.byteOut <+: t.byteOut ∧ s.codeOut <+: t.codeOut

/-- R61, R62: a step that is enabled depends only on the beats it takes; what the host appends later stays behind them. -/
def Obligations.LaterInputDoesNotChangeAStep : Prop :=
  ∀ s t : State, step s = .next t →
    (∀ w, step (s.sendCommand w) = .next (t.sendCommand w)) ∧
    (∀ c, step (s.supplyCode c) = .next (t.supplyCode c)) ∧
    (∀ b, step (s.supplyBeat b) = .next (t.supplyBeat b))

/-- R62, R168: a command without the beats that decide its outcome has no transition. For `RLEDEC` and `DECF` these are the
beats that `RleDecF` needs (`DecoderStopsAtTheFirstBadBeat` says when it waits). -/
def Obligations.TooLittleInputWaits : Prop :=
  (∀ s : State, s.ready → s.codeIn.length < s.npix →
    exec .pack s = .fault .waitsForCode ∧ exec .encf s = .fault .waitsForCode) ∧
  (∀ (s : State) (bs : List Byte), s.ready → s.byteIn = bs.map Beat.data → bs.length < s.psz →
    exec .delta s = .fault .waitsForByte ∧ exec .fold s = .fault .waitsForByte) ∧
  (∀ (s : State) (bs : List Byte) (len : Word), s.faulted = false → s.byteIn = bs.map Beat.data →
    bs.length < len.toNat → len.toNat ≤ s.maxLen → exec (.rleenc len) s = .fault .waitsForByte) ∧
  (∀ (s : State) (len : Word), s.faulted = false → len.toNat ≤ s.maxLen →
    rleDecF s.byteIn len.toNat = .wait → exec (.rledec len) s = .fault .waitsForByte) ∧
  (∀ s : State, s.ready → rleDecF s.byteIn s.psz = .wait → exec .decf s = .fault .waitsForByte)

/-- R62, R247: a wait ends when the host supplies input: an `Eos` on `byte_in` turns it into a `TRUNC` fault, and codes
on `code_in` let the command run. -/
def Obligations.AWaitEndsWhenInputComes : Prop :=
  ∀ s : State, s.Inv →
    (step s = .fault .waitsForByte →
      ∃ t, step (s.supplyBeat .eos) = .next t ∧ t.faultCode = Cause.trunc.code ∧ t.faultInfo = 0) ∧
    (step s = .fault .waitsForCode →
      ∀ cs : List Code, s.npix ≤ (s.codeIn ++ cs).length →
        ∃ t, step { s with codeIn := s.codeIn ++ cs } = .next t ∧ t.faulted = false)

/-- R221, R253: between commands, a step answers a next state, or the block is idle with `cmd` empty, or the command at the
head waits; it never refuses. -/
def Obligations.AStepStopsOnlyIdleOrWaiting : Prop :=
  ∀ s : State, s.Inv →
    (∃ t, step s = .next t) ∨ (step s = .fault .idle ∧ s.cmd = []) ∨
      ((step s = .fault .waitsForCode ∨ step s = .fault .waitsForByte) ∧ s.runStatus = .waiting)

/-! ## Encodings -/

/-- R70 to R82: decoding the encoding of a well-formed instruction gives it back, a run's whatever bytes follow. -/
def Obligations.DecodeOfEncodeIsTheInstruction : Prop :=
  ∀ i : Instr, i.wellFormed = true →
    decode (encode i) = .ok (i, []) ∧
    (i.isCommand = true → ∃ w, encode i = .cmd w ∧ decodeCmd w = .ok i ∧ i.opcode = some (opOf w)) ∧
    (i.isCommand = false → ∀ rest, decodeRun (i.runBytes ++ rest) = .ok (i, rest))

/-- R70 to R82, the other direction: what decodes is well formed, and its encoding is the word or the bytes it came
from, but for an `arg` that the command does not use. -/
def Obligations.EncodeOfDecodeIsTheWord : Prop :=
  (∀ (w : CmdWord) (i : Instr), decodeCmd w = .ok i →
    i.wellFormed = true ∧ i.isCommand = true ∧
    (encode i = .cmd w ∨
      encode i = .cmd (cmdWord (opOf w) 0) ∧ ∀ arg, decodeCmd (cmdWord (opOf w) arg) = .ok i)) ∧
  (∀ (bytes : List Byte) (i : Instr) (rest : List Byte), decodeRun bytes = .ok (i, rest) →
    i.wellFormed = true ∧ i.isCommand = false ∧ bytes = i.runBytes ++ rest)

/-- R74, R201: the 242 other values of `op` are illegal, and a command word that carries one raises `ILLCMD`, code 1. -/
def Obligations.ReservedOpcodesAreIllegal : Prop :=
  ((List.range 256).filter fun n => decide (BitVec.ofNat 8 n ∉ opcodes)).length = 242 ∧
  (0x00 : Byte) ∉ opcodes ∧
  (∀ w : CmdWord, opOf w ∈ opcodes → ∃ i, decodeCmd w = .ok i) ∧
  (∀ w : CmdWord, opOf w ∉ opcodes → decodeCmd w = .error (.reservedOpcode (opOf w))) ∧
  (∀ (s : State) (w : CmdWord) (rest : List CmdWord), s.busy = none → s.faulted = false →
    s.cmd = w :: rest → opOf w ∉ opcodes →
    ∃ t : State, step s = .next t ∧ t = { s with cmd := rest }.raise .illcmd (zext (opOf w)) ∧
      t.faultCode = 1 ∧ t.faultInfo = zext (opOf w))

/-- R71, R73, R75 to R77: words that the spec writes out. -/
def Obligations.WordsOfTheSpecDecode : Prop :=
  decodeCmd 0x0100000000 = .ok .rst ∧ decodeCmd 0x0200000004 = .ok (.setw 4) ∧
  decodeCmd 0x0300000002 = .ok (.seth 2) ∧ decodeCmd 0x0400000000 = .ok .init ∧
  decodeCmd 0x120000000F = .ok (.rleenc 15) ∧ decodeCmd 0x2200000000 = .ok .decf ∧
  decodeCmd 0x3000000007 = .ok (.extract 7) ∧
  decodeRun [0x05, 0x05] = .ok (.rep 5 0x05, []) ∧
  decodeRun [0x82, 0x09, 0x09] = .ok (.lit [0x09, 0x09], [])

/-- R72: `arg` is the operand as it stands where a command uses it, and is ignored where it does not. -/
def Obligations.UnusedArgIsIgnored : Prop :=
  ∀ arg arg' : Word,
    (∀ op ∈ [opRst, opInit, opPack, opDelta, opEncf, opFold, opDecf, opUnpack, opDump],
      decodeCmd (cmdWord op arg) = decodeCmd (cmdWord op arg')) ∧
    decodeCmd (cmdWord opSetw arg) = .ok (.setw arg) ∧ decodeCmd (cmdWord opSeth arg) = .ok (.seth arg) ∧
    decodeCmd (cmdWord opRleenc arg) = .ok (.rleenc arg) ∧
    decodeCmd (cmdWord opRledec arg) = .ok (.rledec arg) ∧
    decodeCmd (cmdWord opExtract arg) = .ok (.extract arg)

/-- R79: the complete map of the key byte. -/
def Obligations.KeyByteMap : Prop :=
  ∀ (key : Byte) (rest : List Byte),
    (key = 0x00 ∨ key = 0x80 → decodeRun (key :: rest) = .error (.reservedKey key)) ∧
    (0x01 ≤ key ∧ key ≤ 0x7F → ∀ v,
      decodeRun (key :: v :: rest) = .ok (.rep (BitVec.ofNat 7 key.toNat) v, rest)) ∧
    (0x81 ≤ key → ∀ payload : List Byte, payload.length = key.toNat - 0x80 →
      decodeRun (key :: payload ++ rest) = .ok (.lit payload, rest))

/-! ## The step -/

/-- R22, R61, R163: a step carries out the instruction that the decoder reads. A command word is taken from `cmd` and
carried out; inside a decoding command, the run at the head of `byte_in` is, its key taken first. -/
def Obligations.AStepRunsTheDecodedInstruction : Prop :=
  (∀ (s : State) (w : CmdWord) (rest : List CmdWord) (i : Instr), s.busy = none → s.cmd = w :: rest →
    decodeCmd w = .ok i → step s = exec i { s with cmd := rest }) ∧
  (∀ (s : State) (b : Busy) (i : Instr) (rest : List Beat), s.busy = some b → s.dec.exp ≠ 0 →
    i.isCommand = false → i.wellFormed = true → s.byteIn = i.runBytes.map Beat.data ++ rest →
    step s = exec i (s.takeKey (i.runBytes.headD 0)))

/-- The model's own loading of one instruction (log 4): the next step carries out exactly the instruction that the table
word decodes to. -/
def Obligations.AFetchWordIsTheNextInstruction : Prop :=
  (∀ (s : State) (w : Nat) (i : Instr), decodeTableWord 40 w = some i →
    step (s.withFetchWord 40 w) = exec i { s with busy := none }) ∧
  (∀ (s : State) (nbits w : Nat) (i : Instr), nbits ≠ 40 → s.busy = none → s.dec.exp = 0 →
    decodeTableWord nbits w = some i →
    ∃ u : State, step (s.withFetchWord nbits w) = exec i u ∧ u.dec.exp = i.logical.length ∧
      u.byteIn = (i.runBytes.drop 1).map Beat.data ++ s.byteIn)

/-! ## Frame packer -/

/-- R101: `PackF`, bit for bit. -/
def Obligations.PackPlacesEveryBit : Prop :=
  ∀ codes : List Code,
    (packF codes).length = (3 * codes.length + 7) / 8 ∧
    (∀ i k, i < codes.length → k < 3 →
      ((packF codes).getD ((3 * i + k) / 8) 0).getLsbD ((3 * i + k) % 8) = (codes.getD i 0).getLsbD k) ∧
    (∀ o, 3 * codes.length ≤ o → ((packF codes).getD (o / 8) 0).getLsbD (o % 8) = false)

/-- R102 (a) to (c): `PackF` is the little-endian bytes of one number, is injective, and splits at multiples of eight
codes. -/
def Obligations.PackIsALittleEndianNumber : Prop :=
  (∀ codes : List Code,
    ((packF codes).mapIdx fun j b => b.toNat * 256 ^ j).sum =
      (codes.mapIdx fun i c => c.toNat * 8 ^ i).sum) ∧
  (∀ a b : List Code, a.length = b.length → packF a = packF b → a = b) ∧
  (∀ a b : List Code, a.length % 8 = 0 → packF (a ++ b) = packF a ++ packF b)

/-- R103: the streaming packer gives the same bytes in the same order; between beats its bit cursor is `3*pix`; a beat
emits at most one byte, the last one at most two; at the end nothing waits. -/
def Obligations.StreamingPackerEqualsPack : Prop :=
  ∀ codes : List Code,
    packBeats codes.length .zero codes = ({ acc := 0, n := 0, pix := codes.length }, packF codes) ∧
    ∀ (pre : List Code) (c : Code) (post : List Code), codes = pre ++ c :: post →
      (packBeats codes.length .zero pre).1.pix = pre.length ∧
      (packBeats codes.length .zero pre).1.n.toNat = 3 * pre.length % 8 ∧
      (packBeat codes.length (packBeats codes.length .zero pre).1 c).2.length ≤ 2 ∧
      (post ≠ [] → (packBeat codes.length (packBeats codes.length .zero pre).1 c).2.length ≤ 1)

/-- R106: `ExtractF`, bit for bit, and as a read of two bytes where the code straddles. -/
def Obligations.ExtractReadsTheCodesBits : Prop :=
  (∀ (P : List Byte) (i k : Nat), 3 * i + 2 < 8 * P.length → k < 3 →
    (extractF P i).getLsbD k = (P.getD ((3 * i + k) / 8) 0).getLsbD ((3 * i + k) % 8)) ∧
  (∀ (m : Memory) (n i : Nat), 3 * i + 2 < 8 * n → 5 < 3 * i % 8 →
    (extractF ((List.range n).map (Memory.read m)) i).toNat =
      memRead m (3 * i / 8) 2 / 2 ^ (3 * i % 8) % 8)

/-- R107: the laws of `ExtractF`: it inverts `PackF`; it reads used bits only; its result is in 0..7; packing what it
reads gives the frame back with the pad bits cleared. -/
def Obligations.ExtractInvertsPack : Prop :=
  (∀ (codes : List Code) (i : Nat), i < codes.length → extractF (packF codes) i = codes.getD i 0) ∧
  (∀ (P Q : List Byte) (n i : Nat), P.length = packedLen n → Q.length = packedLen n → i < n →
    (∀ o, o < 3 * n → (P.getD (o / 8) 0).getLsbD (o % 8) = (Q.getD (o / 8) 0).getLsbD (o % 8)) →
    extractF P i = extractF Q i) ∧
  (∀ (P : List Byte) (i : Nat), (extractF P i).toNat ≤ 7) ∧
  (∀ (P : List Byte) (n : Nat), 1 ≤ n → P.length = packedLen n →
    packF (unpackF P n) = maskF P (maskOfTail (3 * n % 8)))

/-- R105: `PACK` takes `NPIX` codes, emits their packed bytes, and leaves the frame store, the registers and every other
queue alone. -/
def Obligations.PackEmitsThePackedFrame : Prop :=
  ∀ s : State, s.ready → s.between → s.npix ≤ s.codeIn.length →
    exec .pack s = .next { s with
      codeIn := s.codeIn.drop s.npix
      byteOut := s.byteOut ++ packF (s.codeIn.take s.npix) }

/-- R108: `EXTRACT i` emits the code at bit address `3*i` of the frame store and changes nothing else; an index beyond the
frame raises `BADARG` with the index. -/
def Obligations.ExtractEmitsOnePixel : Prop :=
  (∀ (s : State) (i : Word), s.ready → s.fits → i.toNat < s.npix →
    ∃ c : Code, exec (.extract i) s = .next { s with codeOut := s.codeOut ++ [c] } ∧
      ∀ k, k < 3 →
        c.getLsbD k = (Memory.read s.fs ((3 * i.toNat + k) / 8)).getLsbD ((3 * i.toNat + k) % 8)) ∧
  (∀ (s : State) (i : Word), s.ready → s.npix ≤ i.toNat →
    exec (.extract i) s = .next (s.raise .badarg i))

/-- R110, R111: `UNPACK` emits every code of the frame in pixel order, `DUMP` every byte as stored; neither changes anything
else. -/
def Obligations.UnpackAndDumpReadTheFrame : Prop :=
  ∀ s : State, s.ready → s.fits →
    exec .unpack s = .next { s with codeOut := s.codeOut ++ (List.range s.npix).map (extractF s.frame) } ∧
    exec .dump s = .next { s with byteOut := s.byteOut ++ (List.range s.psz).map (Memory.read s.fs) }

/-- R110: `UNPACK` equals the commands `EXTRACT 0` to `EXTRACT NPIX-1`. -/
def Obligations.UnpackEqualsAllExtracts : Prop :=
  ∀ s : State, s.ready → s.npix ≤ s.maxNpix →
    execAll ((List.range s.npix).map fun i => .extract (BitVec.ofNat 32 i)) s = exec .unpack s

/-! ## Delta and fold -/

/-- R121, R122: `DeltaF` is the byte-wise XOR, its last byte ANDed with the mask; a mask of 0xFF changes nothing. -/
def Obligations.DeltaMasksTheLastByteOnly : Prop :=
  (∀ (f p : List Byte) (m : Byte), f.length = p.length →
    (deltaF f p m).length = p.length ∧
    ∀ j, j < p.length →
      (deltaF f p m).getD j 0 =
        if j + 1 = p.length then (f.getD j 0 ^^^ p.getD j 0) &&& m else f.getD j 0 ^^^ p.getD j 0) ∧
  (∀ (D : List Byte) (b m : Byte), maskF (D ++ [b]) m = D ++ [b &&& m]) ∧
  (∀ D : List Byte, maskF D 0xFF = D)

/-- R124, R126: `DELTA` emits the delta against the held frame and replaces that frame with its input as given, pad bits
not masked. -/
def Obligations.DeltaReplacesTheFrame : Prop :=
  ∀ (s : State) (p : List Byte) (rest : List Beat), s.ready → s.fits → Memory.wf s.fs →
    p.length = s.psz → s.byteIn = p.map Beat.data ++ rest →
    ∃ t : State, exec .delta s = .next t ∧
      t = { s with
        byteIn := rest
        byteOut := s.byteOut ++ deltaF s.frame p s.tailMask
        fs := t.fs
        frames := s.frames + 1 } ∧
      ∀ j, Memory.read t.fs j = if j < s.psz then p.getD j 0 else Memory.read s.fs j

/-- R125, R126: `FOLD` XORs all eight bits of every delta byte into the frame store and counts the frame. -/
def Obligations.FoldXorsTheFrameInPlace : Prop :=
  ∀ (s : State) (d : List Byte) (rest : List Beat), s.ready → s.fits → Memory.wf s.fs →
    d.length = s.psz → s.byteIn = d.map Beat.data ++ rest →
    ∃ t : State, exec .fold s = .next t ∧
      t = { s with byteIn := rest, fs := t.fs, frames := s.frames + 1 } ∧
      ∀ j, Memory.read t.fs j =
        if j < s.psz then Memory.read s.fs j ^^^ d.getD j 0 else Memory.read s.fs j

/-- R124, R125, R150, R209: `DELTA`, `FOLD` and `RLEENC` raise `TRUNC` when an `Eos` comes before the bytes they need, with the data
beats before it and the `Eos` taken, and change nothing else. -/
def Obligations.AnEosTruncatesByteCommands : Prop :=
  (∀ (s : State) (bs : List Byte) (rest : List Beat), s.ready → s.byteIn = bs.map Beat.data ++ .eos :: rest →
    bs.length < s.psz →
    exec .delta s = .next ({ s with byteIn := rest }.raise .trunc 0) ∧
    exec .fold s = .next ({ s with byteIn := rest }.raise .trunc 0)) ∧
  (∀ (s : State) (bs : List Byte) (rest : List Beat) (len : Word), s.faulted = false →
    s.byteIn = bs.map Beat.data ++ .eos :: rest → bs.length < len.toNat → len.toNat ≤ s.maxLen →
    exec (.rleenc len) s = .next ({ s with byteIn := rest }.raise .trunc 0))

/-- R130: the beat-by-beat forms of `DELTA` and `FOLD` give the same output and the same frame store. -/
def Obligations.DeltaAndFoldByBeats : Prop :=
  ∀ (s : State) (p : List Byte), Memory.wf s.fs → p.length = s.psz →
    deltaBeats s.psz s.tailMask s.fs 0 p =
      (deltaF s.frame p s.tailMask, (s.storeFrame p).fs) ∧
    foldBeats s.fs 0 p = (s.storeFrame (xorF s.frame p)).fs

/-- R127, R128: `n` `DELTA`s after `INIT` emit `DeltaF(0, P[0])`, `DeltaF(P[0], P[1])`, ..; after the `k`-th `FOLD` of them
the decoder's frame is `P[k-1]` with its pad bits cleared. -/
def Obligations.FoldingDeltasGivesTheFramesBack : Prop :=
  ∀ (s : State) (Ps : List (List Byte)) (k : Nat), s.ready → s.fits → s.fs = [] →
    (∀ P ∈ Ps, P.length = s.psz) → 1 ≤ k → k ≤ Ps.length →
    ∃ e d : State,
      execAll (List.replicate Ps.length .delta)
        { s with byteIn := Ps.flatten.map Beat.data, byteOut := [] } = .next e ∧
      e.byteOut = (List.zipWith (fun f p => deltaF f p s.tailMask)
        (List.replicate s.psz 0 :: Ps) Ps).flatten ∧
      execAll (List.replicate k .fold) { s with byteIn := e.byteOut.map Beat.data } = .next d ∧
      d.frame = maskF (Ps.getD (k - 1) []) s.tailMask ∧
      (maskF (Ps.getD (k - 1) []) s.tailMask = Ps.getD (k - 1) [] → d.frame = Ps.getD (k - 1) [])

/-- R129: XOR works bit by bit, hence byte by byte and pixel by pixel. -/
def Obligations.XorActsPixelByPixel : Prop :=
  ∀ f p : List Byte, f.length = p.length →
    (∀ j k, ((xorF f p).getD j 0).getLsbD k = ((f.getD j 0).getLsbD k ^^ (p.getD j 0).getLsbD k)) ∧
    (∀ i, extractF (xorF f p) i = extractF f i ^^^ extractF p i) ∧
    (∀ i, extractF f i = extractF p i → extractF (xorF f p) i = 0)

/-! ## Run-length encoder -/

/-- R142, R143: the end of the buffer, and the remainder rule, even for two equal bytes. -/
def Obligations.EncoderRemainderRule : Prop :=
  rleEncF [] = [] ∧ (∀ a : Byte, rleEncF [a] = [0x81, a]) ∧
  (∀ a b : Byte, rleEncF [a, b] = [0x82, a, b])

/-- R144: three equal bytes begin a repeat run, which extends as far as the bytes are equal, the buffer goes on, and the
count is below 127; then the encoder starts over on what is left. -/
def Obligations.EncoderRepeatRun : Prop :=
  ∀ (a : Byte) (n : Nat) (rest : List Byte), 3 ≤ n → n ≤ 127 → (n = 127 ∨ rest.head? ≠ some a) →
    rleEncF (List.replicate n a ++ rest) = BitVec.ofNat 8 n :: a :: rleEncF rest

/-- R145, R146: otherwise a literal run begins. The lookahead fires at the first count `c`, from 3 and below 127, at which
the last byte accepted and the two after it are equal, and gives up that byte; if it never fires the run goes to the end of
the buffer or to 127 bytes. The bound of the lookahead and the cap tested before it are the spec's decisions D11 and D12, not
checked against the reference encoder (log 11). -/
def Obligations.EncoderLiteralRun : Prop :=
  ∀ B : List Byte, 3 ≤ B.length → ¬ (B.getD 0 0 = B.getD 1 0 ∧ B.getD 0 0 = B.getD 2 0) →
    (∀ c, 3 ≤ c → c < 127 →
      (c + 1 < B.length ∧ B.getD c 0 = B.getD (c - 1) 0 ∧ B.getD (c + 1) 0 = B.getD (c - 1) 0) →
      (∀ c', 3 ≤ c' → c' < c →
        ¬ (c' + 1 < B.length ∧ B.getD c' 0 = B.getD (c' - 1) 0 ∧ B.getD (c' + 1) 0 = B.getD (c' - 1) 0)) →
      rleEncF B = BitVec.ofNat 8 (0x80 + (c - 1)) :: B.take (c - 1) ++ rleEncF (B.drop (c - 1))) ∧
    ((∀ c, 3 ≤ c → c < 127 →
        ¬ (c + 1 < B.length ∧ B.getD c 0 = B.getD (c - 1) 0 ∧ B.getD (c + 1) 0 = B.getD (c - 1) 0)) →
      rleEncF B = BitVec.ofNat 8 (0x80 + min B.length 127) :: B.take (min B.length 127) ++
        rleEncF (B.drop (min B.length 127)))

/-- R148 (a), (c), (d), (f) to (h): every output is a sequence of legal runs that stands for the buffer; repeat runs have count
at least 3; a literal run of count 1 is the last run; a literal run below 127 that is not the last is followed by a repeat
run; and the size bound. -/
def Obligations.EncoderOutputIsLegalRuns : Prop :=
  ∀ B : List Byte,
    (∃ rs : List Instr, rleEncF B = streamOf rs ∧ legalRuns rs ∧ logicalOf rs = B ∧
      (∀ n v, Instr.rep n v ∈ rs → 3 ≤ n.toNat) ∧
      (∀ pre p post, rs = pre ++ Instr.lit p :: post → p.length = 1 → post = []) ∧
      (∀ pre p r post, rs = pre ++ Instr.lit p :: r :: post → p.length < 127 → ∃ n v, r = .rep n v)) ∧
    (rleEncF B).length ≤ B.length + (B.length + 126) / 127

/-- R150: `RLEENC LEN` takes `LEN` bytes and emits their encoding, without a geometry, and changes nothing else; a `LEN` above
`MAX_LEN` raises `BADARG`. -/
def Obligations.RleencEmitsTheEncoding : Prop :=
  (∀ (s : State) (len : Word) (B : List Byte) (rest : List Beat), s.faulted = false → s.between →
    B.length = len.toNat → len.toNat ≤ s.maxLen → s.byteIn = B.map Beat.data ++ rest →
    exec (.rleenc len) s = .next { s with byteIn := rest, byteOut := s.byteOut ++ rleEncF B }) ∧
  (∀ (s : State) (len : Word), s.faulted = false → s.maxLen < len.toNat →
    exec (.rleenc len) s = .next (s.raise .badarg len))

/-! ## Run-length decoder -/

/-- R161, R171, R83: the decoder decodes exactly the sequences of legal runs whose counts reach `L`, takes their bytes and no
beat more, and gives what they stand for. -/
def Obligations.DecoderDecodesExactlyLegalRuns : Prop :=
  ∀ (S : List Beat) (L : Nat) (out : List Byte) (rest : List Beat),
    rleDecF S L = .done out rest ↔
      ∃ rs : List Instr, legalRuns rs ∧ S = (streamOf rs).map Beat.data ++ rest ∧
        out = logicalOf rs ∧ out.length = L

/-- R164, R165, R168, R169, R62: what stops the decoder after complete runs `rs` that leave bytes to produce: a reserved key, a run
that would overrun, each with the key taken and nothing after it; an `Eos` where a byte is needed; or the end of the queue,
where it waits. -/
def Obligations.DecoderStopsAtTheFirstBadBeat : Prop :=
  ∀ (rs : List Instr) (L : Nat) (X : List Beat), legalRuns rs → (logicalOf rs).length < L →
    let S := (streamOf rs).map Beat.data
    let left := L - (logicalOf rs).length
    rleDecF (S ++ .eos :: X) L = .raise .trunc 0 X ∧ rleDecF S L = .wait ∧
    ∀ key : Byte,
      (keyCount key = 0 → rleDecF (S ++ .data key :: X) L = .raise .zerocnt (zext key) X) ∧
      (left < keyCount key → rleDecF (S ++ .data key :: X) L = .raise .overrun (zext key) X) ∧
      (1 ≤ keyCount key → keyCount key ≤ left → ∀ bs : List Byte, bs.length < payloadLen key →
        rleDecF (S ++ .data key :: bs.map Beat.data ++ .eos :: X) L = .raise .trunc 0 X ∧
        rleDecF (S ++ .data key :: bs.map Beat.data) L = .wait)

/-- R172: decoding what the encoder made gives the buffer back and takes exactly its bytes, whatever follows. -/
def Obligations.RleRoundTrip : Prop :=
  ∀ (B : List Byte) (X : List Beat),
    rleDecF ((rleEncF B).map Beat.data ++ X) B.length = .done B X

/-- R170: `RLEDEC LEN` takes the runs that make up `LEN` bytes and emits those bytes, without a geometry, and changes nothing
else; a `LEN` above `MAX_LEN` raises `BADARG`; a fault of the decoder is raised with the beats that it took gone, and nothing
emitted. -/
def Obligations.RledecEmitsTheDecoding : Prop :=
  (∀ (s : State) (len : Word) (rs : List Instr) (rest : List Beat), s.faulted = false → s.between →
    legalRuns rs → (logicalOf rs).length = len.toNat → len.toNat ≤ s.maxLen →
    s.byteIn = (streamOf rs).map Beat.data ++ rest →
    exec (.rledec len) s = .next { s with byteIn := rest, byteOut := s.byteOut ++ logicalOf rs }) ∧
  (∀ (s : State) (len : Word), s.faulted = false → s.maxLen < len.toNat →
    exec (.rledec len) s = .next (s.raise .badarg len)) ∧
  (∀ (s : State) (len : Word) (c : Cause) (info : Word) (rest : List Beat), s.faulted = false →
    len.toNat ≤ s.maxLen → rleDecF s.byteIn len.toNat = .raise c info rest →
    exec (.rledec len) s = .next ({ s with byteIn := rest }.raise c info))

/-- R166, R167: the runs as instructions of the interpreter. With its key taken, a run that fits takes its payload, appends what
it stands for and lowers `exp` by its count, and changes nothing else; one that does not fit raises `OVERRUN` with its key
before any payload byte; an `Eos` in its payload raises `TRUNC`; a count of 0 raises `ZEROCNT`, before any payload byte too. -/
def Obligations.RunsAppendTheirBytes : Prop :=
  (∀ (i : Instr) (s : State), i.isCommand = false → i.wellFormed = true →
    (∀ rest, i.logical.length ≤ s.dec.exp → s.byteIn = (i.runBytes.drop 1).map Beat.data ++ rest →
      exec i s = .next { s with
        byteIn := rest
        dec := { s.dec with exp := s.dec.exp - i.logical.length, wb := s.dec.wb ++ i.logical } }) ∧
    (s.dec.exp < i.logical.length →
      exec i s = .next (s.raise .overrun (zext (i.runBytes.headD 0)))) ∧
    (∀ (bs : List Byte) (rest : List Beat), i.logical.length ≤ s.dec.exp →
      s.byteIn = bs.map Beat.data ++ .eos :: rest → bs.length + 1 < i.runBytes.length →
      exec i s = .next ({ s with byteIn := rest }.raise .trunc 0))) ∧
  ∀ (s : State) (v : Byte),
    exec (.rep 0 v) s = .next (s.raise .zerocnt 0x00) ∧ exec (.lit []) s = .next (s.raise .zerocnt 0x80)

/-- R160, R161, R20: running the interpreter run by run, from the start of a decoding command until no command is in progress, comes
to what the command does in one step, faults and waiting included. The states inside a decoding command (`busy`, `beginDecode`,
`decodeTicks`) are the model's own form: DESIGN CHOICE, log 4. -/
def Obligations.RunByRunEqualsTheCommand : Prop :=
  ∀ (s : State) (len : Word), s.faulted = false → s.between →
    (len.toNat ≤ s.maxLen →
      decodeTicks (len.toNat + 1) (s.beginDecode .rledec len.toNat) = exec (.rledec len) s) ∧
    (s.configured = true → decodeTicks (s.psz + 1) (s.beginDecode .decf s.psz) = exec .decf s)

/-! ## Pipelines -/

/-- R181: `ENCF` takes `NPIX` codes, emits the run-length encoding of the delta of their packed frame, and stores that frame. -/
def Obligations.EncfEmitsTheEncodedDelta : Prop :=
  ∀ s : State, s.ready → s.fits → s.between → Memory.wf s.fs → s.npix ≤ s.codeIn.length →
    ∃ t : State, exec .encf s = .next t ∧
      t = { s with
        codeIn := s.codeIn.drop s.npix
        byteOut := s.byteOut ++ rleEncF (deltaF s.frame (packF (s.codeIn.take s.npix)) s.tailMask)
        fs := t.fs
        frames := s.frames + 1 } ∧
      ∀ j, Memory.read t.fs j =
        if j < s.psz then (packF (s.codeIn.take s.npix)).getD j 0 else Memory.read s.fs j

/-- R183: `DECF` takes the runs that make up one frame, XORs what they stand for into the frame store, and counts the frame; a
fault of the decoder is raised with the beats that it took gone, and the frame store and the count as they were. -/
def Obligations.DecfFoldsTheDecodedDelta : Prop :=
  (∀ (s : State) (rs : List Instr) (rest : List Beat), s.ready → s.fits → s.between → Memory.wf s.fs →
    legalRuns rs → (logicalOf rs).length = s.psz → s.byteIn = (streamOf rs).map Beat.data ++ rest →
    ∃ t : State, exec .decf s = .next t ∧
      t = { s with byteIn := rest, fs := t.fs, frames := s.frames + 1 } ∧
      ∀ j, Memory.read t.fs j =
        if j < s.psz then Memory.read s.fs j ^^^ (logicalOf rs).getD j 0 else Memory.read s.fs j) ∧
  (∀ (s : State) (c : Cause) (info : Word) (rest : List Beat), s.ready →
    rleDecF s.byteIn s.psz = .raise c info rest →
    exec .decf s = .next ({ s with byteIn := rest }.raise c info))

/-- R182: `ENCF` equals `PACK`, its output fed to `DELTA`, its output fed to `RLEENC PSZ`, but that the three commands put
out what they make on the way too. -/
def Obligations.EncfEqualsItsParts : Prop :=
  ∀ s : State, s.ready → s.fits → s.between → s.npix ≤ s.codeIn.length →
    ∃ (t t1 t2 t3 : State) (packed delta runs : List Byte),
      exec .encf s = .next t ∧
      exec .pack s = .next t1 ∧ t1.byteOut = s.byteOut ++ packed ∧
      exec .delta { t1 with byteIn := packed.map Beat.data } = .next t2 ∧ t2.byteOut = t1.byteOut ++ delta ∧
      exec (.rleenc (BitVec.ofNat 32 s.psz)) { t2 with byteIn := delta.map Beat.data } = .next t3 ∧
      t3.byteOut = t2.byteOut ++ runs ∧
      t.fs = t3.fs ∧ t.frames = t3.frames ∧ t.codeIn = t3.codeIn ∧ t.byteOut = s.byteOut ++ runs

/-- R184: `DECF` equals `RLEDEC PSZ`, its output fed to `FOLD`, but that `RLEDEC` puts out the delta too. -/
def Obligations.DecfEqualsItsParts : Prop :=
  ∀ (s : State) (d : List Byte) (rest : List Beat), s.ready → s.fits → s.between →
    rleDecF s.byteIn s.psz = .done d rest →
    ∃ t t1 t2 : State,
      exec .decf s = .next t ∧
      exec (.rledec (BitVec.ofNat 32 s.psz)) s = .next t1 ∧ t1.byteOut = s.byteOut ++ d ∧
      exec .fold { t1 with byteIn := d.map Beat.data } = .next t2 ∧
      t.fs = t2.fs ∧ t.frames = t2.frames ∧ t.byteIn = t1.byteIn ∧ t.byteOut = s.byteOut

/-- R185: the round trip of the whole path. An encoder and a decoder start after `INIT` with the same geometry; the decoder reads
the bytes that the encoder emitted. After the `k+1`-st `DECF` its frame store is the encoder's after its `k+1`-st `ENCF`, the
packed codes of frame `k`; exactly the bytes of those frames are taken; and `UNPACK` emits the codes. -/
def Obligations.WholePathRoundTrip : Prop :=
  ∀ (s : State) (cs : List (List Code)) (X : List Beat) (k : Nat), s.ready → s.fits → s.fs = [] → 1 ≤ s.npix →
    (∀ c ∈ cs, c.length = s.npix) → k < cs.length →
    ∃ e ek dk u : State,
      execAll (List.replicate cs.length .encf) { s with codeIn := cs.flatten, byteOut := [] } = .next e ∧
      execAll (List.replicate (k + 1) .encf) { s with codeIn := cs.flatten, byteOut := [] } = .next ek ∧
      execAll (List.replicate (k + 1) .decf)
        { s with byteIn := e.byteOut.map Beat.data ++ X } = .next dk ∧
      dk.fs = ek.fs ∧ dk.frame = packF (cs.getD k []) ∧
      dk.byteIn = (e.byteOut.drop ek.byteOut.length).map Beat.data ++ X ∧
      exec .unpack dk = .next u ∧ u.codeOut = s.codeOut ++ cs.getD k []

/-! ## Control -/

/-- R191: `RST`, whatever `STATUS.FAULT` is, gives the reset state of the block and leaves the queues alone. -/
def Obligations.RstGivesTheResetState : Prop :=
  ∀ s : State, exec .rst s = .next { State.resetWith s.cap with
    cmd := s.cmd, codeIn := s.codeIn, byteIn := s.byteIn, byteOut := s.byteOut, codeOut := s.codeOut,
    hwResets := s.hwResets }

/-- R230, R231: hardware reset gives the same state as `RST`; between commands it leaves the queues alone too, and in every case
what is on the output queues stays. (What the input queues hold after it cut a command short is free: log 8.) -/
def Obligations.HardwareResetIsRstForTheRegisters : Prop :=
  ∀ s : State,
    (s.inCommand = false → exec .rst s = .next s.hardwareReset) ∧
    (∃ t, exec .rst s = .next t ∧ s.hardwareReset = { t with
      cmd := s.hardwareReset.cmd, codeIn := s.hardwareReset.codeIn, byteIn := s.hardwareReset.byteIn,
      hwResets := s.hardwareReset.hwResets })

/-- R192, R193: `SETW` and `SETH` write their register with any value, clear `CONFIGURED`, and leave every other bit of `STATUS` and
everything else alone. -/
def Obligations.SetwAndSethWriteTheGeometry : Prop :=
  ∀ (s : State) (arg : Word), s.faulted = false →
    (∃ t, exec (.setw arg) s = .next t ∧ t = { s with cfgW := arg, status := t.status } ∧
      t.configured = false ∧ ∀ k, 1 ≤ k → t.status.getLsbD k = s.status.getLsbD k) ∧
    (∃ t, exec (.seth arg) s = .next t ∧ t = { s with cfgH := arg, status := t.status } ∧
      t.configured = false ∧ ∀ k, 1 ≤ k → t.status.getLsbD k = s.status.getLsbD k)

/-- R194: `INIT` with a legal geometry zeroes the frame store and `FRAMES` and sets `CONFIGURED`; with an illegal one, the product
taken exactly, it raises `BADCFG`. -/
def Obligations.InitChecksTheGeometry : Prop :=
  ∀ s : State, s.faulted = false →
    (1 ≤ s.cfgW.toNat → 1 ≤ s.cfgH.toNat → s.cfgW.toNat * s.cfgH.toNat ≤ s.cap.toNat →
      ∃ t, exec .init s = .next t ∧ t = { s with fs := t.fs, frames := 0, status := t.status } ∧
        t.configured = true ∧ (∀ k, 1 ≤ k → t.status.getLsbD k = s.status.getLsbD k) ∧
        ∀ j, Memory.read t.fs j = 0) ∧
    (s.cfgW = 0 ∨ s.cfgH = 0 ∨ s.cap.toNat < s.cfgW.toNat * s.cfgH.toNat →
      exec .init s = .next (s.raise .badcfg 0))

/-! ## Faults -/

/-- R204, R201: a command that needs the geometry raises `NOCFG` with its opcode while `CONFIGURED = 0`, whatever its argument
and its input. -/
def Obligations.UnconfiguredCommandsRaiseNocfg : Prop :=
  ∀ (i : Instr) (s : State) (op : Byte), i.needsConfigured = true → i.opcode = some op →
    s.faulted = false → s.configured = false → exec i s = .next (s.raise .nocfg (zext op))

/-- R206: while a fault is recorded, every command word but `RST`, reserved ones too, is taken from `cmd` and dropped: nothing else
changes, so the first fault stays as it was recorded. -/
def Obligations.AFaultIsSticky : Prop :=
  ∀ (s : State) (w : CmdWord) (rest : List CmdWord), s.busy = none → s.faulted = true →
    s.cmd = w :: rest → opOf w ≠ opRst → step s = .next { s with cmd := rest }

/-- R205, R59: a step that records a fault changes nothing but `STATUS.FAULT`, `FAULT_INFO` and the input beats it took; the `fault`
line goes high. -/
def Obligations.AFaultingStepIsAtomic : Prop :=
  ∀ s t : State, s.between → s.faulted = false → step s = .next t → t.faulted = true →
    ∃ (c : Cause) (rest : List CmdWord), t.faultCode = c.code ∧ t.faultLine = true ∧
      t.configured = s.configured ∧ (∃ w, s.cmd = w :: rest) ∧
      t = { s with
        status := t.status, faultInfo := t.faultInfo, cmd := rest, byteIn := t.byteIn } ∧
      ∀ k, k < 4 ∨ 8 ≤ k → t.status.getLsbD k = s.status.getLsbD k

/-- R201, R210: which instruction raises which cause, when, and what `FAULT_INFO` records. -/
def Obligations.FaultCausesByCommand : Prop :=
  ∀ (i : Instr) (s t : State), i.wellFormed = true → s.faulted = false → exec i s = .next t →
    t.faulted = true →
    (t.faultCode = 2 ∧ i.needsConfigured = true ∧ s.configured = false ∧
      ∃ op, i.opcode = some op ∧ t.faultInfo = zext op) ∨
    (t.faultCode = 3 ∧ i = .init ∧ s.legalGeometry = false ∧ t.faultInfo = 0) ∨
    (t.faultCode = 4 ∧ ∃ a, t.faultInfo = a ∧
      (i = .rleenc a ∧ s.maxLen < a.toNat ∨ i = .rledec a ∧ s.maxLen < a.toNat ∨
        i = .extract a ∧ s.configured = true ∧ s.npix ≤ a.toNat)) ∨
    (t.faultCode = 5 ∧ t.faultInfo = 0 ∧ Beat.eos ∈ s.byteIn ∧
      (i = .delta ∨ i = .fold ∨ i = .decf ∨ (∃ a, i = .rleenc a ∨ i = .rledec a) ∨ i.isCommand = false)) ∨
    (t.faultCode = 6 ∧ (i = .decf ∨ (∃ a, i = .rledec a) ∨ i.isCommand = false) ∧
      ∃ key, t.faultInfo = zext key ∧ keyCount key ≠ 0) ∨
    (t.faultCode = 7 ∧ (i = .decf ∨ ∃ a, i = .rledec a) ∧
      ∃ key, t.faultInfo = zext key ∧ keyCount key = 0)

/-- R209: the beats that a faulting command has taken: its command word always; no code beat; and of `byte_in` none, or the data
beats up to and with the first `Eos`, or complete runs and the offending key. A dropped command takes no data beat. -/
def Obligations.BeatsTakenByAFaultingCommand : Prop :=
  ∀ s t : State, s.busy = none → step s = .next t →
    (∃ w, s.cmd = w :: t.cmd) ∧
    (s.faulted = true → t.byteIn = s.byteIn ∧ t.codeIn = s.codeIn) ∧
    (s.faulted = false → t.faulted = true → t.codeIn = s.codeIn ∧
      ((t.faultCode ∈ [Cause.illcmd.code, Cause.nocfg.code, Cause.badcfg.code, Cause.badarg.code] ∧
          t.byteIn = s.byteIn) ∨
        (t.faultCode = Cause.trunc.code ∧ ∃ bs : List Byte, s.byteIn = bs.map Beat.data ++ .eos :: t.byteIn) ∨
        (∃ (rs : List Instr) (key : Byte), legalRuns rs ∧ t.faultInfo = zext key ∧
          s.byteIn = (streamOf rs ++ [key]).map Beat.data ++ t.byteIn ∧
          (t.faultCode = Cause.zerocnt.code ∧ keyCount key = 0 ∨
            t.faultCode = Cause.overrun.code ∧ keyCount key ≠ 0))))
end

