-- ==== Sys2Proof/Laws/Decode.lean ====
section
/-! SUPPORT. The decoder and the encoder: what a word decodes to, and the parts of a key. -/

namespace Sys2Proof

@[simp] theorem opOf_cmdWord (op : Byte) (arg : Word) : opOf (cmdWord op arg) = op := by
  apply BitVec.eq_of_getLsbD_eq
  intro k hk
  have := BitVec.getLsbD_append (x := op) (y := arg) (i := 32 + k)
  simp only [opOf, cmdWord, BitVec.getLsbD_extractLsb', hk, decide_true, Bool.true_and]
  exact this.trans (by simp)

@[simp] theorem argOf_cmdWord (op : Byte) (arg : Word) : argOf (cmdWord op arg) = arg := by
  apply BitVec.eq_of_getLsbD_eq
  intro k hk
  have := BitVec.getLsbD_append (x := op) (y := arg) (i := k)
  simp only [argOf, cmdWord, BitVec.getLsbD_extractLsb', hk, decide_true, Bool.true_and, Nat.zero_add]
  exact this.trans (by simp [hk])

/-- A command word is its two fields. -/
theorem cmdWord_fields (w : CmdWord) : cmdWord (opOf w) (argOf w) = w := by
  apply BitVec.eq_of_getLsbD_eq
  intro k hk
  simp only [cmdWord, opOf, argOf, BitVec.getLsbD_append, BitVec.getLsbD_extractLsb']
  by_cases h : k < 32
  · simp [h]
  · have h8 : k - 32 < 8 := by omega
    have he : 32 + (k - 32) = k := by omega
    simp [h, h8, he]

/-- What decodes is a row of the opcode map (R73). -/
theorem decodeCmd_ok (w : CmdWord) (i : Instr) (h : decodeCmd w = .ok i) :
    ∃ row ∈ opcodeTable, row.1 = opOf w ∧ i = row.2 (argOf w) := by
  simp only [decodeCmd] at h
  split at h
  · next row e =>
    exact ⟨row, List.mem_of_find?_eq_some e, by simpa using List.find?_some e, (Except.ok.inj h).symm⟩
  · cases h

/-- What does not decode has a reserved opcode (R74). -/
theorem decodeCmd_error (w : CmdWord) (e : DecodeError) (h : decodeCmd w = .error e) :
    opOf w ∉ opcodes ∧ e = .reservedOpcode (opOf w) := by
  simp only [decodeCmd] at h
  split at h
  · cases h
  · next hn =>
    refine ⟨fun hm => ?_, (Except.error.inj h).symm⟩
    obtain ⟨row, hr, he⟩ := List.mem_map.1 hm
    have := List.find?_eq_none.1 hn row hr
    simp [he] at this

/-- A command word never decodes to a run. -/
theorem decodeCmd_isCommand (w : CmdWord) (i : Instr) (h : decodeCmd w = .ok i) : i.isCommand = true := by
  obtain ⟨row, hr, -, rfl⟩ := decodeCmd_ok w i h
  fin_cases hr <;> rfl

/-- No two rows of the opcode map have the same `op` (R73). -/
theorem opcodes_nodup : opcodes.Nodup := by decide

/-! The parts of a key (R75). -/

theorem keyCount_lt (key : Byte) : keyCount key ≤ 127 := by
  revert key; decide +kernel

theorem keyCount_repKey (n : Nat) (h : n ≤ 127) : keyCount (repKey n) = n := by
  have : ∀ n : Fin 128, keyCount (repKey n.1) = n.1 := by decide +kernel
  exact this ⟨n, by omega⟩

theorem keyIsLit_repKey (n : Nat) (h : n ≤ 127) : keyIsLit (repKey n) = false := by
  have : ∀ n : Fin 128, keyIsLit (repKey n.1) = false := by decide +kernel
  exact this ⟨n, by omega⟩

theorem keyCount_litKey (n : Nat) (h : n ≤ 127) : keyCount (litKey n) = n := by
  have : ∀ n : Fin 128, keyCount (litKey n.1) = n.1 := by decide +kernel
  exact this ⟨n, by omega⟩

theorem keyIsLit_litKey (n : Nat) (h : n ≤ 127) : keyIsLit (litKey n) = true := by
  have : ∀ n : Fin 128, keyIsLit (litKey n.1) = true := by decide +kernel
  exact this ⟨n, by omega⟩

/-- The key that a key's mode and count make (R82). -/
theorem key_of_parts (key : Byte) :
    key = if keyIsLit key then litKey (keyCount key) else repKey (keyCount key) := by
  revert key; decide +kernel

theorem keyCount_extract (key : Byte) : (key.extractLsb' 0 7).toNat = keyCount key := by
  revert key; decide +kernel

end Sys2Proof
end

