-- ==== Sys2Proof/Laws/Flags.lean ====
section
/-! SUPPORT. The fields of `STATUS`: what a write of one leaves in each. -/

namespace Sys2Proof.Machine

@[simp] theorem configured_setFault (st : Word) (c : BitVec 4) :
    statusConfigured (statusSetFault st c) = statusConfigured st := by
  simp [statusConfigured, statusSetFault]

@[simp] theorem configured_setConfigured (st : Word) (b : Bool) :
    statusConfigured (statusSetConfigured st b) = b := by
  cases b <;> simp [statusConfigured, statusSetConfigured]

@[simp] theorem fault_setFault (st : Word) (c : BitVec 4) :
    statusFault (statusSetFault st c) = c := by
  apply BitVec.eq_of_getLsbD_eq
  intro i hi
  have : i = 0 ∨ i = 1 ∨ i = 2 ∨ i = 3 := by omega
  rcases this with rfl | rfl | rfl | rfl <;> simp [statusFault, statusSetFault]

@[simp] theorem fault_setConfigured (st : Word) (b : Bool) :
    statusFault (statusSetConfigured st b) = statusFault st := by
  apply BitVec.eq_of_getLsbD_eq
  intro i hi
  have : i = 0 ∨ i = 1 ∨ i = 2 ∨ i = 3 := by omega
  cases b <;> rcases this with rfl | rfl | rfl | rfl <;> simp [statusFault, statusSetConfigured]

/-- No write of a field touches a reserved bit (R28). -/
theorem reserved_setFault (st : Word) (c : BitVec 4) (h : st &&& ~~~statusFields = 0) :
    statusSetFault st c &&& ~~~statusFields = 0 := by
  have hc : (c.setWidth 32 <<< 4) &&& ~~~statusFields = 0 := by revert c; decide
  have hm : 0xFFFFFF0F#32 &&& ~~~statusFields = ~~~statusFields := by decide
  rw [statusSetFault, BitVec.and_or_distrib_right, hc, BitVec.and_assoc, hm, h]
  decide

theorem reserved_setConfigured (st : Word) (b : Bool) (h : st &&& ~~~statusFields = 0) :
    statusSetConfigured st b &&& ~~~statusFields = 0 := by
  have hb : (if b then 1#32 else 0#32) &&& ~~~statusFields = 0 := by revert b; decide
  have hm : 0xFFFFFFFE#32 &&& ~~~statusFields = ~~~statusFields := by decide
  rw [statusSetConfigured, BitVec.and_or_distrib_right, hb, BitVec.and_assoc, hm, h]
  decide

theorem Cause.code_ne_zero (c : Cause) : c.code ≠ 0 := by cases c <;> decide

theorem Cause.code_le (c : Cause) : c.code ≤ 7 := by cases c <;> decide

theorem Cause.code_injective (c d : Cause) (h : c.code = d.code) : c = d := by
  revert h; cases c <;> cases d <;> decide

/-! Taking a fault. -/

@[simp] theorem raise_faultCode (s : State) (c : Cause) (info : Word) :
    (s.raise c info).faultCode = c.code := fault_setFault _ _

@[simp] theorem raise_faulted (s : State) (c : Cause) (info : Word) :
    (s.raise c info).faulted = true := by
  rw [State.faulted, raise_faultCode]
  cases c <;> decide

@[simp] theorem raise_configured (s : State) (c : Cause) (info : Word) :
    (s.raise c info).configured = s.configured := configured_setFault _ _

@[simp] theorem setConfigured_configured (s : State) (b : Bool) :
    (s.setConfigured b).configured = b := configured_setConfigured _ _

@[simp] theorem setConfigured_faultCode (s : State) (b : Bool) :
    (s.setConfigured b).faultCode = s.faultCode := fault_setConfigured _ _

@[simp] theorem setConfigured_faulted (s : State) (b : Bool) :
    (s.setConfigured b).faulted = s.faulted := by simp [State.faulted]

@[simp] theorem softReset_faulted (s : State) : s.softReset.faulted = false := by
  show (statusFault 0 != 0) = false
  decide

@[simp] theorem softReset_configured (s : State) : s.softReset.configured = false := by
  show statusConfigured 0 = false
  decide

end Sys2Proof.Machine
end

