-- ==== Sys2Proof/Laws/Memory.lean ====
section
/-! SUPPORT. The laws of the frame store: reads after writes, the canonical form, and that equal contents are
equal data. -/

namespace Sys2Proof.Machine

/-- Every index of the list is above `a`. -/
theorem Memory.read_of_lt (m : Memory) (a : Nat) (h : ∀ c ∈ m, a < c.1) : Memory.read m a = 0 := by
  induction m with
  | nil => rfl
  | cons c m ih =>
    have hc : c.1 ≠ a := by have := h c (by simp); omega
    rw [Memory.read, if_neg hc]
    exact ih fun d hd => h d (by simp [hd])

@[simp] theorem Memory.read_nil (j : Nat) : Memory.read [] j = 0 := rfl

theorem Memory.wf_nil : Memory.wf [] := by simp [Memory.wf]

theorem Memory.wf_cons (c : Host.Cell) (m : Memory) :
    Memory.wf (c :: m) ↔ (∀ d ∈ m, c.1 < d.1) ∧ c.2 ≠ 0 ∧ Memory.wf m := by
  simp only [Memory.wf, List.pairwise_cons, List.forall_mem_cons]
  tauto

/-- A write adds at most the index written. -/
theorem Memory.mem_write (m : Memory) (j : Nat) (b : Byte) (c : Host.Cell)
    (h : c ∈ Memory.write m j b) : c ∈ m ∨ c = (j, b) ∧ b ≠ 0 := by
  induction m with
  | nil =>
    simp only [Memory.write] at h
    split at h <;> simp_all
  | cons d m ih =>
    simp only [Memory.write] at h
    split_ifs at h <;> simp_all <;> tauto

/-- The keys after a write. -/
theorem Memory.write_forall (p : Nat → Prop) (m : Memory) (j : Nat) (b : Byte) (hj : p j)
    (h : ∀ c ∈ m, p c.1) : ∀ c ∈ Memory.write m j b, p c.1 := by
  intro c hc
  rcases Memory.mem_write m j b c hc with h' | ⟨rfl, -⟩
  · exact h c h'
  · exact hj

/-- A write keeps the canonical form. -/
theorem Memory.write_wf (m : Memory) (j : Nat) (b : Byte) (h : Memory.wf m) :
    Memory.wf (Memory.write m j b) := by
  induction m with
  | nil =>
    simp only [Memory.write]
    split_ifs with hb
    · exact Memory.wf_nil
    · simpa [Memory.wf] using hb
  | cons d m ih =>
    have hd := (Memory.wf_cons d m).1 h
    simp only [Memory.write]
    split_ifs with h1 h2 h3 h4
    · exact h
    · rw [Memory.wf_cons]
      refine ⟨fun e he => ?_, h2, h⟩
      rcases List.mem_cons.1 he with rfl | he
      · exact h1
      · exact lt_trans h1 (hd.1 e he)
    · exact hd.2.2
    · rw [Memory.wf_cons]
      exact ⟨fun e he => h3 ▸ hd.1 e he, h4, hd.2.2⟩
    · rw [Memory.wf_cons]
      refine ⟨fun e he => ?_, hd.2.1, ih hd.2.2⟩
      exact Memory.write_forall (d.1 < ·) m j b (by show d.1 < j; omega) hd.1 e he

/-- Reading the index written. -/
theorem Memory.read_write_same (m : Memory) (j : Nat) (b : Byte) (h : Memory.wf m) :
    Memory.read (Memory.write m j b) j = b := by
  induction m with
  | nil =>
    simp only [Memory.write]
    split_ifs with hb
    · simp [Memory.read, hb]
    · simp [Memory.read]
  | cons d m ih =>
    have hd := (Memory.wf_cons d m).1 h
    simp only [Memory.write]
    split_ifs with h1 h2 h3 h4
    · have h0 : Memory.read (d :: m) j = 0 := Memory.read_of_lt _ _ fun c hc => by
        rcases List.mem_cons.1 hc with rfl | hc
        · exact h1
        · exact lt_trans h1 (hd.1 c hc)
      exact h0.trans h2.symm
    · simp [Memory.read]
    · have h0 : Memory.read m j = 0 := Memory.read_of_lt _ _ fun c hc => by
        have := hd.1 c hc; omega
      exact h0.trans h4.symm
    · simp [Memory.read]
    · have hne : d.1 ≠ j := fun e => h3 e.symm
      rw [Memory.read, if_neg hne]
      exact ih hd.2.2

/-- Reading any other index. -/
theorem Memory.read_write_other (m : Memory) (j k : Nat) (b : Byte) (hk : k ≠ j) :
    Memory.read (Memory.write m j b) k = Memory.read m k := by
  induction m with
  | nil =>
    simp only [Memory.write]
    split_ifs with hb
    · rfl
    · simp [Memory.read, Ne.symm hk]
  | cons d m ih =>
    simp only [Memory.write]
    split_ifs with h1 h2 h3 h4
    · rfl
    · rw [Memory.read, if_neg (Ne.symm hk)]
    · have : d.1 ≠ k := by omega
      rw [Memory.read, if_neg this]
    · have : d.1 ≠ k := by omega
      simp [Memory.read, Ne.symm hk, this]
    · simp only [Memory.read, ih]

/-- Reading after one write. -/
theorem Memory.read_write (m : Memory) (j k : Nat) (b : Byte) (h : Memory.wf m) :
    Memory.read (Memory.write m j b) k = if k = j then b else Memory.read m k := by
  split_ifs with hk
  · rw [hk]; exact Memory.read_write_same m j b h
  · exact Memory.read_write_other m j k b hk

/-- Writing a sequence keeps the canonical form. -/
theorem Memory.writeFrom_wf (m : Memory) (j : Nat) (bs : List Byte) (h : Memory.wf m) :
    Memory.wf (Memory.writeFrom m j bs) := by
  induction bs generalizing m j with
  | nil => exact h
  | cons b bs ih => exact ih _ _ (Memory.write_wf m j b h)

/-- The keys after writing a sequence. -/
theorem Memory.writeFrom_forall (p : Nat → Prop) (m : Memory) (j : Nat) (bs : List Byte)
    (hj : ∀ k, j ≤ k → k < j + bs.length → p k) (h : ∀ c ∈ m, p c.1) :
    ∀ c ∈ Memory.writeFrom m j bs, p c.1 := by
  induction bs generalizing m j with
  | nil => exact h
  | cons b bs ih =>
    simp only [List.length_cons] at hj
    exact ih _ _ (fun k h1 h2 => hj k (by omega) (by omega))
      (Memory.write_forall p m j b (hj j (by omega) (by omega)) h)

/-- Reading after writing a sequence. -/
theorem Memory.read_writeFrom (m : Memory) (j k : Nat) (bs : List Byte) (h : Memory.wf m) :
    Memory.read (Memory.writeFrom m j bs) k =
      if j ≤ k ∧ k < j + bs.length then bs.getD (k - j) 0 else Memory.read m k := by
  induction bs generalizing m j with
  | nil => simp [Memory.writeFrom]
  | cons b bs ih =>
    rw [Memory.writeFrom, ih _ _ (Memory.write_wf m j b h), Memory.read_write m j k b h]
    simp only [List.length_cons]
    by_cases hk : k = j
    · subst hk
      have h1 : ¬ (k + 1 ≤ k ∧ k < k + 1 + bs.length) := by omega
      have h2 : k ≤ k ∧ k < k + (bs.length + 1) := by omega
      simp
    · by_cases hr : j + 1 ≤ k ∧ k < j + 1 + bs.length
      · have h2 : j ≤ k ∧ k < j + (bs.length + 1) := by omega
        have h3 : k - j = (k - (j + 1)) + 1 := by omega
        rw [if_pos hr, if_pos h2, h3]
        simp
      · have h2 : ¬ (j ≤ k ∧ k < j + (bs.length + 1)) := by omega
        rw [if_neg hr, if_neg h2, if_neg hk]

/-- Canonical stores with equal contents are equal data. -/
theorem Memory.ext_read (m m' : Memory) (h : Memory.wf m) (h' : Memory.wf m')
    (e : ∀ j, Memory.read m j = Memory.read m' j) : m = m' := by
  induction m generalizing m' with
  | nil =>
    cases m' with
    | nil => rfl
    | cons d m' =>
      have hd := (Memory.wf_cons d m').1 h'
      have := e d.1
      simp [Memory.read] at this
      exact absurd this.symm hd.2.1
  | cons c m ih =>
    have hc := (Memory.wf_cons c m).1 h
    cases m' with
    | nil =>
      have := e c.1
      simp [Memory.read] at this
      exact absurd this hc.2.1
    | cons d m' =>
      have hd := (Memory.wf_cons d m').1 h'
      have hcd : c.1 = d.1 := by
        rcases lt_trichotomy c.1 d.1 with hlt | heq | hgt
        · have h0 : Memory.read (d :: m') c.1 = 0 := Memory.read_of_lt _ _ fun x hx => by
            rcases List.mem_cons.1 hx with rfl | hx
            · exact hlt
            · exact lt_trans hlt (hd.1 x hx)
          have := e c.1
          rw [h0] at this
          simp [Memory.read] at this
          exact absurd this hc.2.1
        · exact heq
        · have h0 : Memory.read (c :: m) d.1 = 0 := Memory.read_of_lt _ _ fun x hx => by
            rcases List.mem_cons.1 hx with rfl | hx
            · exact hgt
            · exact lt_trans hgt (hc.1 x hx)
          have := e d.1
          rw [h0] at this
          simp [Memory.read] at this
          exact absurd this.symm hd.2.1
      have hv : c.2 = d.2 := by
        have := e c.1
        simpa [Memory.read, hcd] using this
      have hceq : c = d := Prod.ext hcd hv
      subst hceq
      congr 1
      refine ih m' hc.2.2 hd.2.2 fun j => ?_
      by_cases hj : c.1 = j
      · subst hj
        rw [Memory.read_of_lt m c.1 hc.1, Memory.read_of_lt m' c.1 hd.1]
      · have := e j
        simpa [Memory.read, hj] using this

/-- A store whose indices are all below `n` is 0 from `n` on. -/
theorem Memory.read_ge (m : Memory) (n j : Nat) (h : ∀ c ∈ m, c.1 < n) (hj : n ≤ j) :
    Memory.read m j = 0 := by
  induction m with
  | nil => rfl
  | cons c m ih =>
    have : c.1 ≠ j := by have := h c (by simp); omega
    rw [Memory.read, if_neg this]
    exact ih fun d hd => h d (by simp [hd])

/-- `MemWrite` keeps the canonical form. -/
theorem memWrite_wf (m : Memory) (j n v : Nat) (h : Memory.wf m) : Memory.wf (memWrite m j n v) := by
  induction n generalizing m j v with
  | zero => exact h
  | succ n ih => exact ih _ _ _ (Memory.write_wf m j _ h)

end Sys2Proof.Machine
end

