-- ==== Sys2Proof/Laws/State.lean ====
section
/-! SUPPORT. What each update of the state leaves in each field: one lemma per field per update. -/

namespace Sys2Proof.Machine

variable (s : State)

/-! `setConfigured` -/

@[simp] theorem State.setConfigured_cfgW (b : Bool) : (s.setConfigured b).cfgW = s.cfgW := rfl
@[simp] theorem State.setConfigured_cfgH (b : Bool) : (s.setConfigured b).cfgH = s.cfgH := rfl
@[simp] theorem State.setConfigured_status (b : Bool) : (s.setConfigured b).status = statusSetConfigured s.status b := rfl
@[simp] theorem State.setConfigured_faultInfo (b : Bool) : (s.setConfigured b).faultInfo = s.faultInfo := rfl
@[simp] theorem State.setConfigured_frames (b : Bool) : (s.setConfigured b).frames = s.frames := rfl
@[simp] theorem State.setConfigured_cap (b : Bool) : (s.setConfigured b).cap = s.cap := rfl
@[simp] theorem State.setConfigured_fs (b : Bool) : (s.setConfigured b).fs = s.fs := rfl
@[simp] theorem State.setConfigured_pk (b : Bool) : (s.setConfigured b).pk = s.pk := rfl
@[simp] theorem State.setConfigured_enc (b : Bool) : (s.setConfigured b).enc = s.enc := rfl
@[simp] theorem State.setConfigured_dec (b : Bool) : (s.setConfigured b).dec = s.dec := rfl
@[simp] theorem State.setConfigured_busy (b : Bool) : (s.setConfigured b).busy = s.busy := rfl
@[simp] theorem State.setConfigured_cmd (b : Bool) : (s.setConfigured b).cmd = s.cmd := rfl
@[simp] theorem State.setConfigured_codeIn (b : Bool) : (s.setConfigured b).codeIn = s.codeIn := rfl
@[simp] theorem State.setConfigured_byteIn (b : Bool) : (s.setConfigured b).byteIn = s.byteIn := rfl
@[simp] theorem State.setConfigured_byteOut (b : Bool) : (s.setConfigured b).byteOut = s.byteOut := rfl
@[simp] theorem State.setConfigured_codeOut (b : Bool) : (s.setConfigured b).codeOut = s.codeOut := rfl
@[simp] theorem State.setConfigured_hwResets (b : Bool) : (s.setConfigured b).hwResets = s.hwResets := rfl

/-! `storeFrame` -/

@[simp] theorem State.storeFrame_cfgW (p : List Byte) : (s.storeFrame p).cfgW = s.cfgW := rfl
@[simp] theorem State.storeFrame_cfgH (p : List Byte) : (s.storeFrame p).cfgH = s.cfgH := rfl
@[simp] theorem State.storeFrame_status (p : List Byte) : (s.storeFrame p).status = s.status := rfl
@[simp] theorem State.storeFrame_faultInfo (p : List Byte) : (s.storeFrame p).faultInfo = s.faultInfo := rfl
@[simp] theorem State.storeFrame_frames (p : List Byte) : (s.storeFrame p).frames = s.frames := rfl
@[simp] theorem State.storeFrame_cap (p : List Byte) : (s.storeFrame p).cap = s.cap := rfl
@[simp] theorem State.storeFrame_fs (p : List Byte) : (s.storeFrame p).fs = Memory.writeFrom s.fs 0 p := rfl
@[simp] theorem State.storeFrame_pk (p : List Byte) : (s.storeFrame p).pk = s.pk := rfl
@[simp] theorem State.storeFrame_enc (p : List Byte) : (s.storeFrame p).enc = s.enc := rfl
@[simp] theorem State.storeFrame_dec (p : List Byte) : (s.storeFrame p).dec = s.dec := rfl
@[simp] theorem State.storeFrame_busy (p : List Byte) : (s.storeFrame p).busy = s.busy := rfl
@[simp] theorem State.storeFrame_cmd (p : List Byte) : (s.storeFrame p).cmd = s.cmd := rfl
@[simp] theorem State.storeFrame_codeIn (p : List Byte) : (s.storeFrame p).codeIn = s.codeIn := rfl
@[simp] theorem State.storeFrame_byteIn (p : List Byte) : (s.storeFrame p).byteIn = s.byteIn := rfl
@[simp] theorem State.storeFrame_byteOut (p : List Byte) : (s.storeFrame p).byteOut = s.byteOut := rfl
@[simp] theorem State.storeFrame_codeOut (p : List Byte) : (s.storeFrame p).codeOut = s.codeOut := rfl
@[simp] theorem State.storeFrame_hwResets (p : List Byte) : (s.storeFrame p).hwResets = s.hwResets := rfl

/-! `countFrame` -/

@[simp] theorem State.countFrame_cfgW : s.countFrame.cfgW = s.cfgW := rfl
@[simp] theorem State.countFrame_cfgH : s.countFrame.cfgH = s.cfgH := rfl
@[simp] theorem State.countFrame_status : s.countFrame.status = s.status := rfl
@[simp] theorem State.countFrame_faultInfo : s.countFrame.faultInfo = s.faultInfo := rfl
@[simp] theorem State.countFrame_frames : s.countFrame.frames = s.frames + 1 := rfl
@[simp] theorem State.countFrame_cap : s.countFrame.cap = s.cap := rfl
@[simp] theorem State.countFrame_fs : s.countFrame.fs = s.fs := rfl
@[simp] theorem State.countFrame_pk : s.countFrame.pk = s.pk := rfl
@[simp] theorem State.countFrame_enc : s.countFrame.enc = s.enc := rfl
@[simp] theorem State.countFrame_dec : s.countFrame.dec = s.dec := rfl
@[simp] theorem State.countFrame_busy : s.countFrame.busy = s.busy := rfl
@[simp] theorem State.countFrame_cmd : s.countFrame.cmd = s.cmd := rfl
@[simp] theorem State.countFrame_codeIn : s.countFrame.codeIn = s.codeIn := rfl
@[simp] theorem State.countFrame_byteIn : s.countFrame.byteIn = s.byteIn := rfl
@[simp] theorem State.countFrame_byteOut : s.countFrame.byteOut = s.byteOut := rfl
@[simp] theorem State.countFrame_codeOut : s.countFrame.codeOut = s.codeOut := rfl
@[simp] theorem State.countFrame_hwResets : s.countFrame.hwResets = s.hwResets := rfl

/-! `emitBytes` -/

@[simp] theorem State.emitBytes_cfgW (bs : List Byte) : (s.emitBytes bs).cfgW = s.cfgW := rfl
@[simp] theorem State.emitBytes_cfgH (bs : List Byte) : (s.emitBytes bs).cfgH = s.cfgH := rfl
@[simp] theorem State.emitBytes_status (bs : List Byte) : (s.emitBytes bs).status = s.status := rfl
@[simp] theorem State.emitBytes_faultInfo (bs : List Byte) : (s.emitBytes bs).faultInfo = s.faultInfo := rfl
@[simp] theorem State.emitBytes_frames (bs : List Byte) : (s.emitBytes bs).frames = s.frames := rfl
@[simp] theorem State.emitBytes_cap (bs : List Byte) : (s.emitBytes bs).cap = s.cap := rfl
@[simp] theorem State.emitBytes_fs (bs : List Byte) : (s.emitBytes bs).fs = s.fs := rfl
@[simp] theorem State.emitBytes_pk (bs : List Byte) : (s.emitBytes bs).pk = s.pk := rfl
@[simp] theorem State.emitBytes_enc (bs : List Byte) : (s.emitBytes bs).enc = s.enc := rfl
@[simp] theorem State.emitBytes_dec (bs : List Byte) : (s.emitBytes bs).dec = s.dec := rfl
@[simp] theorem State.emitBytes_busy (bs : List Byte) : (s.emitBytes bs).busy = s.busy := rfl
@[simp] theorem State.emitBytes_cmd (bs : List Byte) : (s.emitBytes bs).cmd = s.cmd := rfl
@[simp] theorem State.emitBytes_codeIn (bs : List Byte) : (s.emitBytes bs).codeIn = s.codeIn := rfl
@[simp] theorem State.emitBytes_byteIn (bs : List Byte) : (s.emitBytes bs).byteIn = s.byteIn := rfl
@[simp] theorem State.emitBytes_byteOut (bs : List Byte) : (s.emitBytes bs).byteOut = s.byteOut ++ bs := rfl
@[simp] theorem State.emitBytes_codeOut (bs : List Byte) : (s.emitBytes bs).codeOut = s.codeOut := rfl
@[simp] theorem State.emitBytes_hwResets (bs : List Byte) : (s.emitBytes bs).hwResets = s.hwResets := rfl

/-! `emitCodes` -/

@[simp] theorem State.emitCodes_cfgW (cs : List Code) : (s.emitCodes cs).cfgW = s.cfgW := rfl
@[simp] theorem State.emitCodes_cfgH (cs : List Code) : (s.emitCodes cs).cfgH = s.cfgH := rfl
@[simp] theorem State.emitCodes_status (cs : List Code) : (s.emitCodes cs).status = s.status := rfl
@[simp] theorem State.emitCodes_faultInfo (cs : List Code) : (s.emitCodes cs).faultInfo = s.faultInfo := rfl
@[simp] theorem State.emitCodes_frames (cs : List Code) : (s.emitCodes cs).frames = s.frames := rfl
@[simp] theorem State.emitCodes_cap (cs : List Code) : (s.emitCodes cs).cap = s.cap := rfl
@[simp] theorem State.emitCodes_fs (cs : List Code) : (s.emitCodes cs).fs = s.fs := rfl
@[simp] theorem State.emitCodes_pk (cs : List Code) : (s.emitCodes cs).pk = s.pk := rfl
@[simp] theorem State.emitCodes_enc (cs : List Code) : (s.emitCodes cs).enc = s.enc := rfl
@[simp] theorem State.emitCodes_dec (cs : List Code) : (s.emitCodes cs).dec = s.dec := rfl
@[simp] theorem State.emitCodes_busy (cs : List Code) : (s.emitCodes cs).busy = s.busy := rfl
@[simp] theorem State.emitCodes_cmd (cs : List Code) : (s.emitCodes cs).cmd = s.cmd := rfl
@[simp] theorem State.emitCodes_codeIn (cs : List Code) : (s.emitCodes cs).codeIn = s.codeIn := rfl
@[simp] theorem State.emitCodes_byteIn (cs : List Code) : (s.emitCodes cs).byteIn = s.byteIn := rfl
@[simp] theorem State.emitCodes_byteOut (cs : List Code) : (s.emitCodes cs).byteOut = s.byteOut := rfl
@[simp] theorem State.emitCodes_codeOut (cs : List Code) : (s.emitCodes cs).codeOut = s.codeOut ++ cs := rfl
@[simp] theorem State.emitCodes_hwResets (cs : List Code) : (s.emitCodes cs).hwResets = s.hwResets := rfl

/-! `endCommand` -/

@[simp] theorem State.endCommand_cfgW : s.endCommand.cfgW = s.cfgW := rfl
@[simp] theorem State.endCommand_cfgH : s.endCommand.cfgH = s.cfgH := rfl
@[simp] theorem State.endCommand_status : s.endCommand.status = s.status := rfl
@[simp] theorem State.endCommand_faultInfo : s.endCommand.faultInfo = s.faultInfo := rfl
@[simp] theorem State.endCommand_frames : s.endCommand.frames = s.frames := rfl
@[simp] theorem State.endCommand_cap : s.endCommand.cap = s.cap := rfl
@[simp] theorem State.endCommand_fs : s.endCommand.fs = s.fs := rfl
@[simp] theorem State.endCommand_pk : s.endCommand.pk = .zero := rfl
@[simp] theorem State.endCommand_enc : s.endCommand.enc = .zero := rfl
@[simp] theorem State.endCommand_dec : s.endCommand.dec = .zero := rfl
@[simp] theorem State.endCommand_busy : s.endCommand.busy = none := rfl
@[simp] theorem State.endCommand_cmd : s.endCommand.cmd = s.cmd := rfl
@[simp] theorem State.endCommand_codeIn : s.endCommand.codeIn = s.codeIn := rfl
@[simp] theorem State.endCommand_byteIn : s.endCommand.byteIn = s.byteIn := rfl
@[simp] theorem State.endCommand_byteOut : s.endCommand.byteOut = s.byteOut := rfl
@[simp] theorem State.endCommand_codeOut : s.endCommand.codeOut = s.codeOut := rfl
@[simp] theorem State.endCommand_hwResets : s.endCommand.hwResets = s.hwResets := rfl

/-! `raise` -/

@[simp] theorem State.raise_cfgW (c : Cause) (info : Word) : (s.raise c info).cfgW = s.cfgW := rfl
@[simp] theorem State.raise_cfgH (c : Cause) (info : Word) : (s.raise c info).cfgH = s.cfgH := rfl
@[simp] theorem State.raise_status (c : Cause) (info : Word) : (s.raise c info).status = statusSetFault s.status c.code := rfl
@[simp] theorem State.raise_faultInfo (c : Cause) (info : Word) : (s.raise c info).faultInfo = info := rfl
@[simp] theorem State.raise_frames (c : Cause) (info : Word) : (s.raise c info).frames = s.frames := rfl
@[simp] theorem State.raise_cap (c : Cause) (info : Word) : (s.raise c info).cap = s.cap := rfl
@[simp] theorem State.raise_fs (c : Cause) (info : Word) : (s.raise c info).fs = s.fs := rfl
@[simp] theorem State.raise_pk (c : Cause) (info : Word) : (s.raise c info).pk = .zero := rfl
@[simp] theorem State.raise_enc (c : Cause) (info : Word) : (s.raise c info).enc = .zero := rfl
@[simp] theorem State.raise_dec (c : Cause) (info : Word) : (s.raise c info).dec = .zero := rfl
@[simp] theorem State.raise_busy (c : Cause) (info : Word) : (s.raise c info).busy = none := rfl
@[simp] theorem State.raise_cmd (c : Cause) (info : Word) : (s.raise c info).cmd = s.cmd := rfl
@[simp] theorem State.raise_codeIn (c : Cause) (info : Word) : (s.raise c info).codeIn = s.codeIn := rfl
@[simp] theorem State.raise_byteIn (c : Cause) (info : Word) : (s.raise c info).byteIn = s.byteIn := rfl
@[simp] theorem State.raise_byteOut (c : Cause) (info : Word) : (s.raise c info).byteOut = s.byteOut := rfl
@[simp] theorem State.raise_codeOut (c : Cause) (info : Word) : (s.raise c info).codeOut = s.codeOut := rfl
@[simp] theorem State.raise_hwResets (c : Cause) (info : Word) : (s.raise c info).hwResets = s.hwResets := rfl

/-! `softReset` -/

@[simp] theorem State.softReset_cfgW : s.softReset.cfgW = 0 := rfl
@[simp] theorem State.softReset_cfgH : s.softReset.cfgH = 0 := rfl
@[simp] theorem State.softReset_status : s.softReset.status = 0 := rfl
@[simp] theorem State.softReset_faultInfo : s.softReset.faultInfo = 0 := rfl
@[simp] theorem State.softReset_frames : s.softReset.frames = 0 := rfl
@[simp] theorem State.softReset_cap : s.softReset.cap = s.cap := rfl
@[simp] theorem State.softReset_fs : s.softReset.fs = [] := rfl
@[simp] theorem State.softReset_pk : s.softReset.pk = .zero := rfl
@[simp] theorem State.softReset_enc : s.softReset.enc = .zero := rfl
@[simp] theorem State.softReset_dec : s.softReset.dec = .zero := rfl
@[simp] theorem State.softReset_busy : s.softReset.busy = none := rfl
@[simp] theorem State.softReset_cmd : s.softReset.cmd = s.cmd := rfl
@[simp] theorem State.softReset_codeIn : s.softReset.codeIn = s.codeIn := rfl
@[simp] theorem State.softReset_byteIn : s.softReset.byteIn = s.byteIn := rfl
@[simp] theorem State.softReset_byteOut : s.softReset.byteOut = s.byteOut := rfl
@[simp] theorem State.softReset_codeOut : s.softReset.codeOut = s.codeOut := rfl
@[simp] theorem State.softReset_hwResets : s.softReset.hwResets = s.hwResets := rfl

/-! `takeKey` -/

@[simp] theorem State.takeKey_cfgW (key : Byte) : (s.takeKey key).cfgW = s.cfgW := rfl
@[simp] theorem State.takeKey_cfgH (key : Byte) : (s.takeKey key).cfgH = s.cfgH := rfl
@[simp] theorem State.takeKey_status (key : Byte) : (s.takeKey key).status = s.status := rfl
@[simp] theorem State.takeKey_faultInfo (key : Byte) : (s.takeKey key).faultInfo = s.faultInfo := rfl
@[simp] theorem State.takeKey_frames (key : Byte) : (s.takeKey key).frames = s.frames := rfl
@[simp] theorem State.takeKey_cap (key : Byte) : (s.takeKey key).cap = s.cap := rfl
@[simp] theorem State.takeKey_fs (key : Byte) : (s.takeKey key).fs = s.fs := rfl
@[simp] theorem State.takeKey_pk (key : Byte) : (s.takeKey key).pk = s.pk := rfl
@[simp] theorem State.takeKey_enc (key : Byte) : (s.takeKey key).enc = s.enc := rfl
@[simp] theorem State.takeKey_dec (key : Byte) : (s.takeKey key).dec = { s.dec with key := key } := rfl
@[simp] theorem State.takeKey_busy (key : Byte) : (s.takeKey key).busy = s.busy := rfl
@[simp] theorem State.takeKey_cmd (key : Byte) : (s.takeKey key).cmd = s.cmd := rfl
@[simp] theorem State.takeKey_codeIn (key : Byte) : (s.takeKey key).codeIn = s.codeIn := rfl
@[simp] theorem State.takeKey_byteIn (key : Byte) : (s.takeKey key).byteIn = s.byteIn.drop 1 := rfl
@[simp] theorem State.takeKey_byteOut (key : Byte) : (s.takeKey key).byteOut = s.byteOut := rfl
@[simp] theorem State.takeKey_codeOut (key : Byte) : (s.takeKey key).codeOut = s.codeOut := rfl
@[simp] theorem State.takeKey_hwResets (key : Byte) : (s.takeKey key).hwResets = s.hwResets := rfl

/-! `beginDecode` -/

@[simp] theorem State.beginDecode_cfgW (b : Busy) (L : Nat) : (s.beginDecode b L).cfgW = s.cfgW := rfl
@[simp] theorem State.beginDecode_cfgH (b : Busy) (L : Nat) : (s.beginDecode b L).cfgH = s.cfgH := rfl
@[simp] theorem State.beginDecode_status (b : Busy) (L : Nat) : (s.beginDecode b L).status = s.status := rfl
@[simp] theorem State.beginDecode_faultInfo (b : Busy) (L : Nat) : (s.beginDecode b L).faultInfo = s.faultInfo := rfl
@[simp] theorem State.beginDecode_frames (b : Busy) (L : Nat) : (s.beginDecode b L).frames = s.frames := rfl
@[simp] theorem State.beginDecode_cap (b : Busy) (L : Nat) : (s.beginDecode b L).cap = s.cap := rfl
@[simp] theorem State.beginDecode_fs (b : Busy) (L : Nat) : (s.beginDecode b L).fs = s.fs := rfl
@[simp] theorem State.beginDecode_pk (b : Busy) (L : Nat) : (s.beginDecode b L).pk = s.pk := rfl
@[simp] theorem State.beginDecode_enc (b : Busy) (L : Nat) : (s.beginDecode b L).enc = s.enc := rfl
@[simp] theorem State.beginDecode_dec (b : Busy) (L : Nat) : (s.beginDecode b L).dec = Decoder.start L := rfl
@[simp] theorem State.beginDecode_busy (b : Busy) (L : Nat) : (s.beginDecode b L).busy = some b := rfl
@[simp] theorem State.beginDecode_cmd (b : Busy) (L : Nat) : (s.beginDecode b L).cmd = s.cmd := rfl
@[simp] theorem State.beginDecode_codeIn (b : Busy) (L : Nat) : (s.beginDecode b L).codeIn = s.codeIn := rfl
@[simp] theorem State.beginDecode_byteIn (b : Busy) (L : Nat) : (s.beginDecode b L).byteIn = s.byteIn := rfl
@[simp] theorem State.beginDecode_byteOut (b : Busy) (L : Nat) : (s.beginDecode b L).byteOut = s.byteOut := rfl
@[simp] theorem State.beginDecode_codeOut (b : Busy) (L : Nat) : (s.beginDecode b L).codeOut = s.codeOut := rfl
@[simp] theorem State.beginDecode_hwResets (b : Busy) (L : Nat) : (s.beginDecode b L).hwResets = s.hwResets := rfl

end Sys2Proof.Machine
end

