-- ==== Sys2Proof/Laws/Ops.lean ====
section
/-! SUPPORT. One lemma per shared operation that says all it can do; proofs about instructions cite these and do not
unfold the operation. -/

namespace Sys2Proof.Machine

/-! ## Precheck -/

theorem precheck_pass (op : Byte) (need : Bool) (s : State) (body : Result) (hf : s.faulted = false)
    (hc : need = true → s.configured = true) : precheck op need s body = body := by
  rw [precheck, if_neg (by simp [hf])]
  cases need with
  | false => simp
  | true => simp [hc rfl]

theorem precheck_faulted (op : Byte) (need : Bool) (s : State) (body : Result) (hf : s.faulted = true) :
    precheck op need s body = .next s := by
  rw [precheck, if_pos hf]

theorem precheck_unconfigured (op : Byte) (s : State) (body : Result) (hf : s.faulted = false)
    (hc : s.configured = false) : precheck op true s body = .next (s.raise .nocfg (zext op)) := by
  simp [precheck, hf, hc]

/-- All that `precheck` can answer. -/
theorem precheck_cases (op : Byte) (need : Bool) (s : State) (body : Result) :
    (s.faulted = true ∧ precheck op need s body = .next s) ∨
    (s.faulted = false ∧ need = true ∧ s.configured = false ∧
      precheck op need s body = .next (s.raise .nocfg (zext op))) ∨
    (s.faulted = false ∧ (need = true → s.configured = true) ∧ precheck op need s body = body) := by
  cases hf : s.faulted with
  | true => exact .inl ⟨rfl, precheck_faulted _ _ _ _ hf⟩
  | false =>
    cases hn : need with
    | false => exact .inr (.inr ⟨rfl, by simp, precheck_pass _ _ _ _ hf (by simp)⟩)
    | true =>
      cases hc : s.configured with
      | false => exact .inr (.inl ⟨rfl, rfl, rfl, precheck_unconfigured _ _ _ hf hc⟩)
      | true => exact .inr (.inr ⟨rfl, by simp, precheck_pass _ _ _ _ hf (fun _ => hc)⟩)

/-- All that a reserved word can answer. -/
theorem illegalCommand_cases (op : Byte) (s : State) :
    (s.faulted = true ∧ illegalCommand op s = .next s) ∨
    (s.faulted = false ∧ illegalCommand op s = .next (s.raise .illcmd (zext op))) := by
  cases h : s.faulted <;> simp [illegalCommand, h]

/-! ## Taking beats -/

/-- The bytes and the rest that `takeBytes` gives are the head of the queue and what follows it. -/
theorem takeBytes_got (n : Nat) (q : List Beat) (bs : List Byte) (rest : List Beat)
    (h : takeBytes n q = .got bs rest) : bs.length = n ∧ q = bs.map Beat.data ++ rest := by
  induction n generalizing q bs with
  | zero => simp [takeBytes] at h; simp [h]
  | succ n ih =>
    match q with
    | [] => simp [takeBytes] at h
    | .eos :: q => simp [takeBytes] at h
    | .data b :: q =>
      simp only [takeBytes] at h
      split at h
      · next bs' rest' e =>
        obtain ⟨rfl, rfl⟩ := Taken.got.inj h
        obtain ⟨hl, hq⟩ := ih q bs' e
        exact ⟨by simp [hl], by simp [hq]⟩
      · cases h
      · cases h

/-- `takeBytes` takes exactly the data beats it is asked for. -/
theorem takeBytes_data (bs : List Byte) (rest : List Beat) :
    takeBytes bs.length (bs.map Beat.data ++ rest) = .got bs rest := by
  induction bs with
  | nil => rfl
  | cons b bs ih => simp [takeBytes, ih]

/-- An early `Eos` is taken, with the data beats before it (R209). -/
theorem takeBytes_eos (n : Nat) (bs : List Byte) (rest : List Beat) (h : bs.length < n) :
    takeBytes n (bs.map Beat.data ++ Beat.eos :: rest) = .trunc rest := by
  induction bs generalizing n with
  | nil =>
    cases n with
    | zero => simp at h
    | succ n => rfl
  | cons b bs ih =>
    cases n with
    | zero => simp at h
    | succ n => simp [takeBytes, ih n (by simpa using h)]

/-- A queue that ends too early makes the command wait (R62). -/
theorem takeBytes_short (n : Nat) (bs : List Byte) (h : bs.length < n) :
    takeBytes n (bs.map Beat.data) = .wait := by
  induction bs generalizing n with
  | nil =>
    cases n with
    | zero => simp at h
    | succ n => rfl
  | cons b bs ih =>
    cases n with
    | zero => simp at h
    | succ n => simp [takeBytes, ih n (by simpa using h)]

/-- A truncated take ends just after an `Eos`. -/
theorem takeBytes_trunc (n : Nat) (q rest : List Beat) (h : takeBytes n q = .trunc rest) :
    ∃ bs : List Byte, bs.length < n ∧ q = bs.map Beat.data ++ Beat.eos :: rest := by
  induction n generalizing q with
  | zero => simp [takeBytes] at h
  | succ n ih =>
    match q with
    | [] => simp [takeBytes] at h
    | .eos :: q => simp [takeBytes] at h; exact ⟨[], by simp, by simp [h]⟩
    | .data b :: q =>
      simp only [takeBytes] at h
      split at h
      · cases h
      · next rest' e =>
        obtain rfl := Taken.trunc.inj h
        obtain ⟨bs, hl, hq⟩ := ih q e
        exact ⟨b :: bs, by simp [hl], by simp [hq]⟩
      · cases h

/-- A take that waits has seen data beats only, too few of them. -/
theorem takeBytes_wait (n : Nat) (q : List Beat) (h : takeBytes n q = .wait) :
    ∃ bs : List Byte, bs.length < n ∧ q = bs.map Beat.data := by
  induction n generalizing q with
  | zero => simp [takeBytes] at h
  | succ n ih =>
    match q with
    | [] => exact ⟨[], by simp, rfl⟩
    | .eos :: q => simp [takeBytes] at h
    | .data b :: q =>
      simp only [takeBytes] at h
      split at h
      · cases h
      · cases h
      · next e =>
        obtain ⟨bs, hl, hq⟩ := ih q e
        exact ⟨b :: bs, by simp [hl], by simp [hq]⟩

/-- All that `withBytes` can answer. -/
theorem withBytes_cases (n : Nat) (s : State) (body : List Byte → State → Result) :
    (∃ bs rest, bs.length = n ∧ s.byteIn = bs.map Beat.data ++ rest ∧
      withBytes n s body = body bs { s with byteIn := rest }) ∨
    (∃ (bs : List Byte) (rest : List Beat), bs.length < n ∧ s.byteIn = bs.map Beat.data ++ Beat.eos :: rest ∧
      withBytes n s body = .next ({ s with byteIn := rest }.raise .trunc 0)) ∨
    (∃ bs : List Byte, bs.length < n ∧ s.byteIn = bs.map Beat.data ∧
      withBytes n s body = .fault .waitsForByte) := by
  rw [withBytes]
  cases h : takeBytes n s.byteIn with
  | got bs rest =>
    obtain ⟨hl, hq⟩ := takeBytes_got _ _ _ _ h
    exact .inl ⟨bs, rest, hl, hq, rfl⟩
  | trunc rest =>
    obtain ⟨bs, hl, hq⟩ := takeBytes_trunc _ _ _ h
    exact .inr (.inl ⟨bs, rest, hl, hq, rfl⟩)
  | wait =>
    obtain ⟨bs, hl, hq⟩ := takeBytes_wait _ _ h
    exact .inr (.inr ⟨bs, hl, hq, rfl⟩)

theorem withBytes_got (n : Nat) (s : State) (body : List Byte → State → Result) (bs : List Byte)
    (rest : List Beat) (hl : bs.length = n) (hq : s.byteIn = bs.map Beat.data ++ rest) :
    withBytes n s body = body bs { s with byteIn := rest } := by
  subst hl
  rw [withBytes, hq, takeBytes_data]

/-- All that `withCodes` can answer. -/
theorem withCodes_cases (n : Nat) (s : State) (body : List Code → State → Result) :
    (s.codeIn.length < n ∧ withCodes n s body = .fault .waitsForCode) ∨
    (n ≤ s.codeIn.length ∧
      withCodes n s body = body (s.codeIn.take n) { s with codeIn := s.codeIn.drop n }) := by
  rw [withCodes]
  split_ifs with h
  · exact .inl ⟨h, rfl⟩
  · exact .inr ⟨by omega, rfl⟩

/-- All that `withFrame` can answer. -/
theorem withFrame_cases (s : State) (body : List Byte → Result) :
    (s.psz ≤ s.maxLen ∧ withFrame s body = body s.frame) ∨
    (s.maxLen < s.psz ∧ withFrame s body = .fault .noSuchFrameByte) := by
  rw [withFrame, State.frame?]
  split_ifs with h
  · exact .inl ⟨h, rfl⟩
  · exact .inr ⟨by omega, rfl⟩

theorem withFrame_fits (s : State) (body : List Byte → Result) (h : s.fits) :
    withFrame s body = body s.frame := by
  rcases withFrame_cases s body with ⟨-, e⟩ | ⟨hlt, -⟩
  · exact e
  · exact absurd h (by simp only [State.fits]; omega)

/-! ## The frame -/

@[simp] theorem frame_length (s : State) : s.frame.length = s.psz := by simp [State.frame]

theorem frame_getD (s : State) (j : Nat) (h : j < s.psz) :
    s.frame.getD j 0 = Memory.read s.fs j := by
  simp [State.frame, List.getD, h]

/-- A configured block that meets R39 (b) has its frame within the store. -/
theorem configuredOk_fits (s : State) (h : s.configuredOk) (hc : s.configured = true) : s.fits :=
  (h hc).2.2.2.2.1

/-- A geometry within the capacity fits the store (R11, R12). -/
theorem psz_le_maxLen (s : State) (h : s.npix ≤ s.maxNpix) : s.psz ≤ s.maxLen := by
  simp only [State.psz, State.nbits, State.maxLen, Config.codeBits]
  omega

theorem psz_pos (s : State) (h : 1 ≤ s.npix) : 1 ≤ s.psz := by
  simp only [State.psz, State.nbits, Config.codeBits]
  omega

end Sys2Proof.Machine
end

