-- ==== Sys2Proof/Laws/Units.lean ====
section
/-! SUPPORT. The pure functions of the four units: lengths, and the small laws that proofs about the
commands cite. -/

namespace Sys2Proof.Machine

/-! ## Packer -/

@[simp] theorem orByte_length (P : List Byte) (j : Nat) (b : Byte) : (orByte P j b).length = P.length := by
  simp [orByte]

@[simp] theorem packAt_length (P : List Byte) (i : Nat) (c : Code) : (packAt P i c).length = P.length := by
  simp only [packAt]
  split_ifs <;> simp

@[simp] theorem packFrom_length (P : List Byte) (i : Nat) (cs : List Code) :
    (packFrom P i cs).length = P.length := by
  induction cs generalizing P i with
  | nil => rfl
  | cons c cs ih => simp [packFrom, ih]

@[simp] theorem packF_length (cs : List Code) : (packF cs).length = packedLen cs.length := by
  simp [packF]

theorem packedLen_npix (s : State) : packedLen s.npix = s.psz := rfl

@[simp] theorem unpackF_length (P : List Byte) (n : Nat) : (unpackF P n).length = n := by simp [unpackF]

/-- A byte of a buffer after an OR. -/
theorem orByte_getD (P : List Byte) (j k : Nat) (b : Byte) (hj : j < P.length) :
    (orByte P j b).getD k 0 = if k = j then P.getD j 0 ||| b else P.getD k 0 := by
  simp only [orByte, List.getD_eq_getElem?_getD, List.getElem?_set]
  by_cases h : k = j
  · subst h; simp [hj]
  · simp [h, Ne.symm h]

/-! ## Delta -/

@[simp] theorem xorF_length (f p : List Byte) : (xorF f p).length = min f.length p.length := by
  simp [xorF]

theorem xorF_getD (f p : List Byte) (j : Nat) (hf : j < f.length) (hp : j < p.length) :
    (xorF f p).getD j 0 = f.getD j 0 ^^^ p.getD j 0 := by
  simp [xorF, List.getD, hf, hp]

@[simp] theorem maskF_length (D : List Byte) (m : Byte) : (maskF D m).length = D.length := by
  induction D with
  | nil => rfl
  | cons b D ih =>
    cases D with
    | nil => rfl
    | cons c D => simpa [maskF] using ih

/-- `MaskF` changes the last byte only (R121). -/
theorem maskF_getD (D : List Byte) (m : Byte) (j : Nat) (h : j < D.length) :
    (maskF D m).getD j 0 = if j + 1 = D.length then D.getD j 0 &&& m else D.getD j 0 := by
  induction D generalizing j with
  | nil => simp at h
  | cons b D ih =>
    cases D with
    | nil =>
      have : j = 0 := by simpa using h
      subst this
      simp [maskF]
    | cons c D =>
      cases j with
      | zero => simp [maskF]
      | succ j =>
        have := ih j (by simpa using h)
        simpa [maskF] using this

/-! ## Encoder -/

theorem repeatLen_bounds (b : Byte) (count : Nat) (tail : List Byte) (h : count ≤ 127) :
    count ≤ repeatLen b count tail ∧ repeatLen b count tail ≤ 127 ∧
      repeatLen b count tail ≤ count + tail.length := by
  induction tail generalizing count with
  | nil => simp [repeatLen, h]
  | cons a tail ih =>
    rw [repeatLen]
    split_ifs with hc
    · have hlt : count < 127 := by simpa [Config.maxRun] using hc.1
      have := ih (count + 1) (by omega)
      simp only [List.length_cons]
      omega
    · simp [h]

theorem literalLen_bounds (count : Nat) (last : Byte) (tail : List Byte) (h : count ≤ 127) :
    count ≤ (literalLen count last tail).1 + 1 ∧ (literalLen count last tail).1 ≤ 127 ∧
      (literalLen count last tail).1 ≤ count + tail.length := by
  induction tail generalizing count last with
  | nil => simp [literalLen, h]
  | cons a tail ih =>
    rw [literalLen]
    split_ifs with hc hl
    · simp only [List.length_cons]
      omega
    · have hlt : count < 127 := by simpa [Config.maxRun] using hc
      have := ih (count + 1) a (by omega)
      simp only [List.length_cons]
      omega
    · simp only [List.length_cons]
      omega

/-- A pass of the encoder moves its cursor forward, never past the end of the buffer (R140, R197). -/
theorem encPass_off (B : List Byte) (r r' : EncoderRegs) (bytes : List Byte)
    (h : encPass B r = some (bytes, r')) : r.off < r'.off ∧ r'.off ≤ B.length := by
  have hd : (B.drop r.off).length = B.length - r.off := List.length_drop
  rw [encPass] at h
  split at h
  · cases h
  · next a e => cases h; rw [e] at hd; simp at hd ⊢; omega
  · next a b e => cases h; rw [e] at hd; simp at hd ⊢; omega
  · next a b c tail e =>
    rw [e] at hd
    simp only [List.length_cons] at hd
    split_ifs at h with hc
    · cases h
      have := repeatLen_bounds a 3 tail (by omega)
      simp only [Config.minRep]
      omega
    · cases h
      have := literalLen_bounds 3 c tail (by omega)
      simp only
      omega

/-! ## Decoder -/

theorem countFault_none (exp count : Nat) (h : 1 ≤ count) (h' : count ≤ exp) : countFault exp count = none := by
  rw [countFault, if_neg (by omega), if_neg (by omega)]

/-- All that the tests on a run's count can answer (R164, R165). -/
theorem countFault_cases (exp count : Nat) :
    (count = 0 ∧ countFault exp count = some .zerocnt) ∨
    (1 ≤ count ∧ exp < count ∧ countFault exp count = some .overrun) ∨
    (1 ≤ count ∧ count ≤ exp ∧ countFault exp count = none) := by
  rw [countFault]
  split_ifs with h h'
  · exact .inl ⟨h, rfl⟩
  · exact .inr (.inl ⟨by omega, h', rfl⟩)
  · exact .inr (.inr ⟨by omega, by omega, rfl⟩)

@[simp] theorem decLoop_zero_exp (fuel : Nat) (d : Decoder) (q : List Beat) (h : d.exp = 0) :
    decLoop fuel d q = .done d.wb q := by
  cases fuel <;> simp [decLoop, h]

end Sys2Proof.Machine
end

