-- ==== Sys2Proof/Laws/Exec.lean ====
section
/-! SUPPORT. One inversion lemma per instruction and one for the step: all that it can answer. Proofs about all instructions, and
about every step, cite these and do not unfold a meaning. -/

namespace Sys2Proof.Machine

/-- The three answers that every command but `RST` shares, and the one that is its own. `Dropped` when a fault is recorded (R206),
`NOCFG` when it needs a geometry and there is none (R204), else `own`. -/
def CommandAnswers (op : Byte) (need : Bool) (s : State) (r : Result) (own : Prop) : Prop :=
  (s.faulted = true ∧ r = .next s) ∨
  (s.faulted = false ∧ need = true ∧ s.configured = false ∧ r = .next (s.raise .nocfg (zext op))) ∨
  (s.faulted = false ∧ (need = true → s.configured = true) ∧ own)

/-- What `precheck` leaves to prove of a command: its own part. -/
theorem commandAnswers_of (op : Byte) (need : Bool) (s : State) (body : Result) (own : Prop)
    (h : body = precheck op need s body → s.faulted = false → (need = true → s.configured = true) → own) :
    CommandAnswers op need s (precheck op need s body) own := by
  rcases precheck_cases op need s body with h1 | ⟨h1, h2, h3, h4⟩ | ⟨h1, h2, h3⟩
  · exact .inl h1
  · subst h2; exact .inr (.inl ⟨h1, rfl, h3, h4⟩)
  · exact .inr (.inr ⟨h1, h2, h h3.symm h1 h2⟩)

/-! ## Control -/

theorem execRst_eq (s : State) : execRst s = .next s.softReset := rfl

theorem execSetw_cases (arg : Word) (s : State) :
    CommandAnswers opSetw false s (execSetw arg s)
      (execSetw arg s = .next ({ s with cfgW := arg }.setConfigured false)) :=
  commandAnswers_of _ _ _ _ _ fun e _ _ => e.symm

theorem execSeth_cases (arg : Word) (s : State) :
    CommandAnswers opSeth false s (execSeth arg s)
      (execSeth arg s = .next ({ s with cfgH := arg }.setConfigured false)) :=
  commandAnswers_of _ _ _ _ _ fun e _ _ => e.symm

theorem execInit_cases (s : State) :
    CommandAnswers opInit false s (execInit s)
      ((s.legalGeometry = true ∧ execInit s = .next ({ s with fs := [], frames := 0 }.setConfigured true)) ∨
        (s.legalGeometry = false ∧ execInit s = .next (s.raise .badcfg 0))) :=
  commandAnswers_of _ _ _ _ _ fun e _ _ => by
    rw [execInit, ← e]
    cases h : s.legalGeometry <;> simp

/-- The legal geometries, as R27 words them. -/
theorem legalGeometry_iff (s : State) :
    s.legalGeometry = true ↔ 1 ≤ s.width ∧ 1 ≤ s.height ∧ s.npix ≤ s.maxNpix := by
  have hz : ∀ w : Word, (w != 0) = true ↔ 1 ≤ w.toNat := by
    intro w
    rw [bne_iff_ne, Ne, ← BitVec.toNat_inj]
    simp
    omega
  simp only [State.legalGeometry, Bool.and_eq_true, decide_eq_true_eq, hz, State.width, State.height, and_assoc]

/-! ## Packer -/

theorem execPack_cases (s : State) :
    CommandAnswers opPack true s (execPack s)
      ((s.codeIn.length < s.npix ∧ execPack s = .fault .waitsForCode) ∨
        (s.npix ≤ s.codeIn.length ∧ execPack s =
          .next ({ s with codeIn := s.codeIn.drop s.npix }.emitBytes (packF (s.codeIn.take s.npix))).endCommand)) :=
  commandAnswers_of _ _ _ _ _ fun e _ _ => by
    rw [execPack, ← e]
    rcases withCodes_cases s.npix s (fun codes s => .next (s.emitBytes (packF codes)).endCommand) with h | h
    · exact .inl h
    · exact .inr h

theorem execExtract_cases (i : Word) (s : State) :
    CommandAnswers opExtract true s (execExtract i s)
      ((s.npix ≤ i.toNat ∧ execExtract i s = .next (s.raise .badarg i)) ∨
        (i.toNat < s.npix ∧ s.psz ≤ s.maxLen ∧
          execExtract i s = .next (s.emitCodes [extractF s.frame i.toNat])) ∨
        (i.toNat < s.npix ∧ s.maxLen < s.psz ∧ execExtract i s = .fault .noSuchFrameByte)) :=
  commandAnswers_of _ _ _ _ _ fun e _ _ => by
    rw [execExtract, ← e]
    split_ifs with h
    · exact .inl ⟨h, rfl⟩
    · rcases withFrame_cases s (fun f => .next (s.emitCodes [extractF f i.toNat])) with ⟨h1, h2⟩ | ⟨h1, h2⟩
      · exact .inr (.inl ⟨by omega, h1, h2⟩)
      · exact .inr (.inr ⟨by omega, h1, h2⟩)

theorem execUnpack_cases (s : State) :
    CommandAnswers opUnpack true s (execUnpack s)
      ((s.psz ≤ s.maxLen ∧ execUnpack s = .next (s.emitCodes (unpackF s.frame s.npix))) ∨
        (s.maxLen < s.psz ∧ execUnpack s = .fault .noSuchFrameByte)) :=
  commandAnswers_of _ _ _ _ _ fun e _ _ => by
    rw [execUnpack, ← e]
    exact withFrame_cases s (fun f => .next (s.emitCodes (unpackF f s.npix)))

theorem execDump_cases (s : State) :
    CommandAnswers opDump true s (execDump s)
      ((s.psz ≤ s.maxLen ∧ execDump s = .next (s.emitBytes s.frame)) ∨
        (s.maxLen < s.psz ∧ execDump s = .fault .noSuchFrameByte)) :=
  commandAnswers_of _ _ _ _ _ fun e _ _ => by
    rw [execDump, ← e]
    exact withFrame_cases s (fun f => .next (s.emitBytes f))

/-! ## Delta -/

/-- The answers that a command shares which takes `n` bytes first: it waits, or `TRUNC`, or it has them. -/
def ByteAnswers (n : Nat) (s : State) (r : Result) (own : List Byte → List Beat → Prop) : Prop :=
  (∃ bs : List Byte, bs.length < n ∧ s.byteIn = bs.map Beat.data ∧ r = .fault .waitsForByte) ∨
  (∃ (bs : List Byte) (rest : List Beat), bs.length < n ∧ s.byteIn = bs.map Beat.data ++ Beat.eos :: rest ∧
    r = .next ({ s with byteIn := rest }.raise .trunc 0)) ∨
  (∃ bs rest, bs.length = n ∧ s.byteIn = bs.map Beat.data ++ rest ∧ own bs rest)

theorem withBytes_answers (n : Nat) (s : State) (body : List Byte → State → Result)
    (own : List Byte → List Beat → Prop)
    (h : ∀ bs rest, withBytes n s body = body bs { s with byteIn := rest } → own bs rest) :
    ByteAnswers n s (withBytes n s body) own := by
  rcases withBytes_cases n s body with ⟨bs, rest, hl, hq, e⟩ | h' | h'
  · exact .inr (.inr ⟨bs, rest, hl, hq, h bs rest e⟩)
  · exact .inr (.inl h')
  · exact .inl h'

theorem execDelta_cases (s : State) :
    CommandAnswers opDelta true s (execDelta s)
      (ByteAnswers s.psz s (execDelta s) fun p rest =>
        (s.psz ≤ s.maxLen ∧ execDelta s = .next
          (({ s with byteIn := rest }.emitBytes (deltaF s.frame p s.tailMask)).storeFrame p).countFrame) ∨
        (s.maxLen < s.psz ∧ execDelta s = .fault .noSuchFrameByte)) :=
  commandAnswers_of _ _ _ _ _ fun e _ _ => by
    rw [execDelta, ← e]
    refine withBytes_answers _ _ _ _ fun p rest e' => ?_
    rw [e']
    exact withFrame_cases { s with byteIn := rest } _

theorem execFold_cases (s : State) :
    CommandAnswers opFold true s (execFold s)
      (ByteAnswers s.psz s (execFold s) fun d rest =>
        (s.psz ≤ s.maxLen ∧ execFold s = .next
          ({ s with byteIn := rest }.storeFrame (xorF s.frame d)).countFrame) ∨
        (s.maxLen < s.psz ∧ execFold s = .fault .noSuchFrameByte)) :=
  commandAnswers_of _ _ _ _ _ fun e _ _ => by
    rw [execFold, ← e]
    refine withBytes_answers _ _ _ _ fun d rest e' => ?_
    rw [e']
    exact withFrame_cases { s with byteIn := rest } _

/-! ## Encoder and decoder -/

theorem execRleenc_cases (len : Word) (s : State) :
    CommandAnswers opRleenc false s (execRleenc len s)
      ((s.maxLen < len.toNat ∧ execRleenc len s = .next (s.raise .badarg len)) ∨
        (len.toNat ≤ s.maxLen ∧ ByteAnswers len.toNat s (execRleenc len s) fun B rest =>
          execRleenc len s = .next ({ s with byteIn := rest }.emitBytes (rleEncF B)).endCommand)) :=
  commandAnswers_of _ _ _ _ _ fun e _ _ => by
    rw [execRleenc, ← e]
    split_ifs with h
    · exact .inl ⟨h, rfl⟩
    · exact .inr ⟨by omega, withBytes_answers _ _ _ _ fun B rest e' => e'⟩

/-- All that decoding for a command can answer, by what `RleDecF` gives. -/
theorem decodeFor_cases (b : Busy) (L : Nat) (s : State) :
    (∃ out rest, rleDecF s.byteIn L = .done out rest ∧
      decodeFor b L s = finishDecode b out { s with byteIn := rest }) ∨
    (∃ c info rest, rleDecF s.byteIn L = .raise c info rest ∧
      decodeFor b L s = .next ({ s with byteIn := rest }.raise c info)) ∨
    (rleDecF s.byteIn L = .wait ∧ decodeFor b L s = .fault .waitsForByte) := by
  rw [decodeFor]
  cases h : rleDecF s.byteIn L with
  | done out rest => exact .inl ⟨out, rest, rfl, rfl⟩
  | raise c info rest => exact .inr (.inl ⟨c, info, rest, rfl, rfl⟩)
  | wait => exact .inr (.inr ⟨rfl, rfl⟩)

theorem finishDecode_rledec (out : List Byte) (s : State) :
    finishDecode .rledec out s = .next (s.emitBytes out).endCommand := rfl

theorem finishDecode_decf_cases (out : List Byte) (s : State) :
    (s.psz ≤ s.maxLen ∧
      finishDecode .decf out s = .next ((s.storeFrame (xorF s.frame out)).countFrame).endCommand) ∨
    (s.maxLen < s.psz ∧ finishDecode .decf out s = .fault .noSuchFrameByte) :=
  withFrame_cases s _

theorem execRledec_cases (len : Word) (s : State) :
    CommandAnswers opRledec false s (execRledec len s)
      ((s.maxLen < len.toNat ∧ execRledec len s = .next (s.raise .badarg len)) ∨
        (len.toNat ≤ s.maxLen ∧ execRledec len s = decodeFor .rledec len.toNat s)) :=
  commandAnswers_of _ _ _ _ _ fun e _ _ => by
    rw [execRledec, ← e]
    split_ifs with h
    · exact .inl ⟨h, rfl⟩
    · exact .inr ⟨by omega, rfl⟩

theorem execDecf_cases (s : State) :
    CommandAnswers opDecf true s (execDecf s) (execDecf s = decodeFor .decf s.psz s) :=
  commandAnswers_of _ _ _ _ _ fun e _ _ => e.symm

theorem execEncf_cases (s : State) :
    CommandAnswers opEncf true s (execEncf s)
      ((s.codeIn.length < s.npix ∧ execEncf s = .fault .waitsForCode) ∨
        (s.npix ≤ s.codeIn.length ∧ s.psz ≤ s.maxLen ∧ execEncf s = .next
          ((({ s with codeIn := s.codeIn.drop s.npix }.emitBytes
            (rleEncF (deltaF s.frame (packF (s.codeIn.take s.npix)) s.tailMask))).storeFrame
              (packF (s.codeIn.take s.npix))).countFrame).endCommand) ∨
        (s.npix ≤ s.codeIn.length ∧ s.maxLen < s.psz ∧ execEncf s = .fault .noSuchFrameByte)) :=
  commandAnswers_of _ _ _ _ _ fun e _ _ => by
    rw [execEncf, ← e]
    rcases withCodes_cases s.npix s (fun codes s => withFrame s fun f =>
      .next (((s.emitBytes (rleEncF (deltaF f (packF codes) s.tailMask))).storeFrame (packF codes)).countFrame).endCommand)
      with h | ⟨h, h'⟩
    · exact .inl h
    · rcases withFrame_cases { s with codeIn := s.codeIn.drop s.npix } (fun f =>
        .next ((({ s with codeIn := s.codeIn.drop s.npix }.emitBytes
          (rleEncF (deltaF f (packF (s.codeIn.take s.npix)) s.tailMask))).storeFrame
            (packF (s.codeIn.take s.npix))).countFrame).endCommand) with ⟨h1, h2⟩ | ⟨h1, h2⟩
      · exact .inr (.inl ⟨h, h1, h'.trans h2⟩)
      · exact .inr (.inr ⟨h, h1, h'.trans h2⟩)

/-! ## Runs -/

theorem execRep_cases (count : BitVec 7) (v : Byte) (s : State) :
    (∃ c, countFault s.dec.exp count.toNat = some c ∧
      execRep count v s = .next (s.raise c (zext (repKey count.toNat)))) ∨
    (countFault s.dec.exp count.toNat = none ∧ ByteAnswers 1 s (execRep count v s) fun _ rest =>
      execRep count v s = .next { s with byteIn := rest, dec := repRun count.toNat v s.dec }) := by
  rw [execRep]
  cases h : countFault s.dec.exp count.toNat with
  | some c => exact .inl ⟨c, rfl, rfl⟩
  | none => exact .inr ⟨rfl, withBytes_answers _ _ _ _ fun _ _ e => e⟩

theorem execLit_cases (payload : List Byte) (s : State) :
    (∃ c, countFault s.dec.exp payload.length = some c ∧
      execLit payload s = .next (s.raise c (zext (litKey payload.length)))) ∨
    (countFault s.dec.exp payload.length = none ∧ ByteAnswers payload.length s (execLit payload s) fun _ rest =>
      execLit payload s = .next { s with byteIn := rest, dec := litRun payload s.dec }) := by
  rw [execLit]
  cases h : countFault s.dec.exp payload.length with
  | some c => exact .inl ⟨c, rfl, rfl⟩
  | none => exact .inr ⟨rfl, withBytes_answers _ _ _ _ fun _ _ e => e⟩

/-! ## The step -/

/-- All that a step between commands can answer. -/
theorem step_between (s : State) (h : s.busy = none) :
    (s.cmd = [] ∧ step s = .fault .idle) ∨
    (∃ w rest i, s.cmd = w :: rest ∧ decodeCmd w = .ok i ∧ step s = exec i { s with cmd := rest }) ∨
    (∃ w rest e, s.cmd = w :: rest ∧ decodeCmd w = .error e ∧
      step s = illegalCommand (opOf w) { s with cmd := rest }) := by
  rw [step, h]
  cases hc : s.cmd with
  | nil => exact .inl ⟨rfl, rfl⟩
  | cons w rest =>
    cases hd : decodeCmd w with
    | ok i => exact .inr (.inl ⟨w, rest, i, rfl, hd, by simp [hd]⟩)
    | error e => exact .inr (.inr ⟨w, rest, e, rfl, hd, by simp [hd]⟩)

theorem step_busy (s : State) (b : Busy) (h : s.busy = some b) : step s = decodeTick b s := by
  rw [step, h]

end Sys2Proof.Machine
end

