-- ==== Sys2Proof/Tests/Slice0.lean ====
section
/-! SUPPORT. Tests. Every expected value is from the spec: its encodings (30) and its vectors (95), named in each comment. Then
one witness for each statement with hypotheses: a concrete state that meets them. -/

namespace Sys2Proof.Machine.Tests

/-! ## Helpers -/

/-- The next state, where there is one. -/
def answer : Result → Option State
  | .next s => some s
  | .fault _ => none
  | .refused _ => none

/-- The reason of a stop, where there is one. -/
def stopped : Result → Option Fault
  | .next _ => none
  | .fault r => some r
  | .refused _ => none

/-- A block of capacity 64 configured `w` by `h`, after `INIT` (95, notation). -/
def conf (w h : Word) : State := { State.resetWith 64 with cfgW := w, cfgH := h, status := 1 }

/-- 4 by 2, `FS = 88 C6 FA` (95, X1). -/
def frameX1 : State := { conf 4 2 with fs := [(0, 0x88), (1, 0xC6), (2, 0xFA)] }

/-- One step on the command word. -/
def one (s : State) (w : CmdWord) : Option State := answer (step { s with cmd := [w] })

def data (bs : List Byte) : List Beat := bs.map Beat.data

/-! ## WellFormed: each check refuses an ill-formed term (R75) -/

theorem test_wellFormed_refuses_rep_of_zero : (Instr.rep 0 0xAA).wellFormed = false := by decide
theorem test_wellFormed_refuses_lit_of_zero : (Instr.lit []).wellFormed = false := by decide
theorem test_wellFormed_refuses_lit_of_128 : (Instr.lit (List.replicate 128 0)).wellFormed = false := by
  decide +kernel
theorem test_wellFormed_accepts_lit_of_127 : (Instr.lit (List.replicate 127 0)).wellFormed = true := by
  decide +kernel

/-! ## Decode: a word of each constructor, bits written out from R71, R73, R76, R77 -/

theorem test_decode_rst : decodeCmd 0b0000000100000000000000000000000000000000 = .ok .rst := by rfl
theorem test_decode_setw : decodeCmd 0b0000001000000000000000000000000000000100 = .ok (.setw 4) := by rfl
theorem test_decode_seth : decodeCmd 0b0000001100000000000000000000000000000010 = .ok (.seth 2) := by rfl
theorem test_decode_init : decodeCmd 0b0000010011011110101011011011111011101111 = .ok .init := by rfl
theorem test_decode_pack : decodeCmd 0b0001000000000000000000000000000000000000 = .ok .pack := by rfl
theorem test_decode_delta : decodeCmd 0b0001000100000000000000000000000000000000 = .ok .delta := by rfl
theorem test_decode_rleenc : decodeCmd 0b0001001000000000000000000000000000001111 = .ok (.rleenc 15) := by rfl
theorem test_decode_encf : decodeCmd 0b0001001100000000000000000000000000000000 = .ok .encf := by rfl
theorem test_decode_rledec : decodeCmd 0b0010000000000000000000000000000000001111 = .ok (.rledec 15) := by rfl
theorem test_decode_fold : decodeCmd 0b0010000100000000000000000000000000000000 = .ok .fold := by rfl
theorem test_decode_decf : decodeCmd 0b0010001000000000000000000000000000000000 = .ok .decf := by rfl
theorem test_decode_extract : decodeCmd 0b0011000010000000000000000000000000000111 = .ok (.extract 0x80000007) := by rfl
theorem test_decode_unpack : decodeCmd 0b0011000100000000000000000000000000000000 = .ok .unpack := by rfl
theorem test_decode_dump : decodeCmd 0b0011001000000000000000000000000000000000 = .ok .dump := by rfl
theorem test_decode_rep : decodeRun [0b01111111, 0b10101010, 0x01] = .ok (.rep 127 0xAA, [0x01]) := by rfl
theorem test_decode_lit : decodeRun [0b10000010, 0x09, 0x08, 0x01] = .ok (.lit [0x09, 0x08], [0x01]) := by rfl
theorem test_decode_reserved_opcodes :
    decodeCmd 0x0000001234 = .error (.reservedOpcode 0x00) ∧ decodeCmd 0xFFFFFFFFFF = .error (.reservedOpcode 0xFF) :=
  ⟨rfl, rfl⟩
theorem test_decode_reserved_keys :
    decodeRun [0x00, 0x55] = .error (.reservedKey 0x00) ∧ decodeRun [0x80] = .error (.reservedKey 0x80) := ⟨rfl, rfl⟩
theorem test_decode_table_words :
    decodeTableWord 40 0x2200000000 = some .decf ∧ decodeTableWord 16 0x0903 = some (.rep 3 9) ∧
      decodeTableWord 24 0x090882 = some (.lit [0x08, 0x09]) := by decide +kernel

/-! ## One step per instruction -/

/-- CT8 (R191). -/
theorem test_rst : one { frameX1 with frames := 3, status := 0x61, faultInfo := 2 } 0x0100000000 =
    some (State.resetWith 64) := by decide
/-- CT6 (R192): `FS` and `FRAMES` stay. -/
theorem test_setw : one { frameX1 with frames := 3 } 0x0200000004 = some { frameX1 with status := 0, frames := 3 } := by
  decide
/-- R193. -/
theorem test_seth : one (conf 4 2) 0x0300000007 = some { conf 4 7 with status := 0 } := by decide
/-- CT4, CT5 (R194): 64 pixels are legal, and a product of 2^32 does not wrap. -/
theorem test_init_full : one { conf 8 8 with status := 0 } 0x0400000000 = some (conf 8 8) := by decide
theorem test_init_product_exact : (one { conf 65536 65536 with status := 0 } 0x0400000000).map State.status =
    some 0x30 := by decide
/-- PK5 (R105): a code that straddles. -/
theorem test_pack : (one { conf 2 2 with codeIn := [1, 2, 3, 4, 5] } 0x1000000000).map (fun t => (t.byteOut, t.codeIn)) =
    some ([0xD1, 0x08], [5]) := by decide
/-- PK9: both straddling positions. -/
theorem test_packF_straddles : packF [0, 0, 5, 0, 0, 6] = [0x40, 0x01, 0x03] := by decide
/-- The trace of PK3 (R103). -/
theorem test_packBeats : packBeats 3 .zero [7, 7, 7] = ({ acc := 0, n := 0, pix := 3 }, [0xFF, 0x01]) := by decide
/-- X1 (R108). -/
theorem test_extract : (one frameX1 0x3000000005).map State.codeOut = some [5] := by decide
/-- X7: an index beyond the frame. -/
theorem test_extract_badarg : (one frameX1 0x3000000008).map (fun t => (t.status, t.faultInfo, t.codeOut)) =
    some (0x41, 8, []) := by decide
/-- X2 (R110). -/
theorem test_unpack : (one frameX1 0x3100000000).map State.codeOut = some [0, 1, 2, 3, 4, 5, 6, 7] := by decide
/-- X5 (R111): pad bits are shown. -/
theorem test_dump : (one { conf 3 3 with fs := [(0, 0xD1), (1, 0x58), (2, 0x1F), (3, 0xFD)] } 0x3200000000).map
    State.byteOut = some [0xD1, 0x58, 0x1F, 0xFD] := by decide
/-- DL4 (R124): the delta is masked, the store is not. -/
theorem test_delta : (one { conf 3 3 with byteIn := data [0xD1, 0x58, 0x1F, 0xF9] } 0x1100000000).map
    (fun t => (t.byteOut, t.fs, t.frames)) =
    some ([0xD1, 0x58, 0x1F, 0x01], [(0, 0xD1), (1, 0x58), (2, 0x1F), (3, 0xF9)], 1) := by decide
/-- DL9: an `Eos` inside the frame. -/
theorem test_delta_trunc : one { frameX1 with frames := 1, byteIn := data [0x88, 0xC6] ++ [.eos] } 0x1100000000 =
    some { frameX1 with frames := 1, status := 0x51 } := by decide
/-- DL7 (R125). -/
theorem test_fold : one { frameX1 with frames := 1, byteIn := data [0x00, 0x00, 0xE0] } 0x2100000000 =
    some { conf 4 2 with fs := [(0, 0x88), (1, 0xC6), (2, 0x1A)], frames := 2 } := by decide
/-- R30, R131: `FRAMES` wraps. -/
theorem test_fold_frames_wrap : (one { frameX1 with frames := 0xFFFFFFFF, byteIn := data [0, 0, 0] } 0x2100000000).map
    State.frames = some 0 := by decide
/-- E12, the source's scenario S2 (R150, R151). -/
theorem test_rleenc : one { State.resetWith 64 with byteIn := data [5, 5, 5, 5, 5, 9, 9, 2, 2, 2, 2, 2, 2, 2, 2] }
    0x120000000F = some { State.resetWith 64 with byteOut := [0x05, 0x05, 0x82, 0x09, 0x09, 0x08, 0x02] } := by decide
/-- E5, E7, E9: the three vectors that tell the encoder decisions apart at the buffer's end. -/
theorem test_rleEncF_edges : rleEncF [9, 9, 9] = [0x03, 9] ∧ rleEncF [1, 2, 3, 3] = [0x84, 1, 2, 3, 3] ∧
    rleEncF [1, 2, 2, 2, 2] = [0x82, 1, 2, 0x03, 2] := by decide
/-- E24: the cap ends the scan before the lookahead. -/
theorem test_rleEncF_cap :
    rleEncF ((List.range 126).map (fun t => BitVec.ofNat 8 (t % 2)) ++ [7, 7, 7, 9]) =
      0xFF :: (List.range 126).map (fun t => BitVec.ofNat 8 (t % 2)) ++ [7, 0x83, 7, 7, 9] := by decide +kernel
/-- RD7 (R170): the bytes after the last run stay. -/
theorem test_rledec : one { State.resetWith 64 with byteIn := data [0x03, 0x09, 0x81, 0x01] } 0x2000000003 =
    some { State.resetWith 64 with byteIn := data [0x81, 0x01], byteOut := [9, 9, 9] } := by decide
/-- RD16: the count is tested before the payload is looked at. -/
theorem test_rledec_overrun_first : one { State.resetWith 64 with byteIn := data [0x05] ++ [.eos] } 0x2000000004 =
    some { State.resetWith 64 with status := 0x60, faultInfo := 0x05, byteIn := [.eos] } := by decide
/-- F3 (R181). -/
theorem test_encf : one { frameX1 with frames := 1, codeIn := [0, 1, 2, 3, 4, 5, 6, 0] } 0x1300000000 =
    some { conf 4 2 with fs := [(0, 0x88), (1, 0xC6), (2, 0x1A)], frames := 2, byteOut := [0x83, 0x00, 0x00, 0xE0] } := by
  decide
/-- F8 (R183). -/
theorem test_decf : one { frameX1 with byteIn := data [0x83, 0x00, 0x00, 0xE0] } 0x2200000000 =
    some { conf 4 2 with fs := [(0, 0x88), (1, 0xC6), (2, 0x1A)], frames := 1 } := by decide
/-- F10: a fault leaves the store and the count. -/
theorem test_decf_overrun : one { frameX1 with frames := 1, byteIn := data [0x02, 0x00, 0x02, 0x00] } 0x2200000000 =
    some { frameX1 with frames := 1, byteIn := data [0x00], status := 0x61, faultInfo := 0x02 } := by decide
/-- R167's example: with `exp >= 5`, `05 05` appends five bytes 05 and lowers `exp` by 5. -/
theorem test_rep : (answer (step (State.reset.withFetchWord 16 0x0505))).map (fun t => (t.dec.exp, t.dec.wb, t.byteIn)) =
    some (0, [5, 5, 5, 5, 5], []) := by decide +kernel
/-- R166's example: `82 09 09` appends `09 09` and lowers `exp` by 2. -/
theorem test_lit : (answer (step (State.reset.withFetchWord 24 0x090982))).map (fun t => (t.dec.exp, t.dec.wb, t.byteIn)) =
    some (0, [9, 9], []) := by decide +kernel

/-! ## Faults and waiting -/

/-- T1, T5, T6 (R204, R206, R210). -/
theorem test_illcmd : (one State.reset 0x0000001234).map (fun t => (t.status, t.faultInfo)) = some (0x10, 0) := by decide
theorem test_nocfg_before_badarg : (one State.reset 0x3000000063).map (fun t => (t.status, t.faultInfo)) =
    some (0x20, 0x30) := by decide
theorem test_dropped : one { State.reset with status := 0x20, faultInfo := 0x22 } 0x0200000004 =
    some { State.reset with status := 0x20, faultInfo := 0x22 } := by decide
/-- RD18 (R62). -/
theorem test_waits : stopped (step { State.reset with cmd := [0x2000000003], byteIn := data [0x82, 1, 2] }) =
    some .waitsForByte := by decide
theorem test_idle : stopped (step State.reset) = some .idle := by decide

/-! ## Witnesses: the hypotheses of each statement, met together by a concrete state -/

/-- The invariants hold of the configured 4 by 2 block with a frame. -/
theorem frameX1_inv : frameX1.Inv where
  reserved := by decide
  faultSmall := by decide
  configuredOk := by decide
  noFaultNoInfo := by decide
  between := by decide
  fsWf := by decide
  fsBound := by decide
  capPos := by decide

/-- A block in the middle of an `RLEDEC 5`, the run `05 05` ahead. -/
def midDecode : State := { (State.resetWith 64).beginDecode .rledec 5 with byteIn := data [0x05, 0x05, 0x81] }

/-- A faulted block with a reserved word ahead (T7). -/
def faultedX : State := { conf 4 2 with status := 0x61, faultInfo := 2, cmd := [0x0700000000], byteIn := [.eos] }

theorem witness_ResetMeetsTheInvariants : 1 ≤ (1 : Word).toNat ∧ 1 ≤ (0xFFFFFFFF : Word).toNat := by decide

theorem witness_EveryStepKeepsTheInvariants :
    ∃ s t : State, s.Inv ∧ step s = .next t ∧ t.frames = 1 :=
  ⟨{ frameX1 with cmd := [0x2100000000], byteIn := data [1, 2, 3] }, _,
    { reserved := by decide, faultSmall := by decide, configuredOk := by decide, noFaultNoInfo := by decide,
      between := by decide, fsWf := by decide, fsBound := by decide, capPos := by decide }, rfl, by decide⟩

theorem witness_RegistersChangeOnlyByTheirCommands :
    ∃ (i : Instr) (s t : State), exec i s = .next t ∧ t.fs ≠ s.fs ∧ t.frames ≠ s.frames :=
  ⟨.fold, { frameX1 with byteIn := data [1, 2, 3] }, _, rfl, by decide⟩

theorem witness_AByteTouchesOnlyItsPixels :
    ∃ j i : Nat, (i < 8 * j / 3 ∧ i + 1 = 8 * j / 3) ∧ (8 * j + 7) / 3 < 6 := ⟨1, 1, by decide⟩

theorem witness_QueuesAreFirstInFirstOut :
    (∃ s t : State, s.busy = none ∧ step s = .next t) ∧ (∃ s t : State, s.busy ≠ none ∧ step s = .next t) :=
  ⟨⟨{ frameX1 with cmd := [0x3200000000] }, _, rfl, rfl⟩, ⟨midDecode, _, by decide, rfl⟩⟩

theorem witness_LaterInputDoesNotChangeAStep :
    ∃ s t : State, step s = .next t ∧ t.byteIn = data [0x81] :=
  ⟨{ frameX1 with cmd := [0x2100000000], byteIn := data [1, 2, 3, 0x81] }, _, rfl, by decide⟩

theorem witness_TooLittleInputWaits :
    (∃ s : State, s.ready ∧ s.codeIn.length < s.npix ∧ s.codeIn.length + 1 = s.npix) ∧
    (∃ (s : State) (bs : List Byte), s.ready ∧ s.byteIn = bs.map Beat.data ∧ bs.length < s.psz) ∧
    (∃ (s : State) (bs : List Byte) (len : Word), s.faulted = false ∧ s.byteIn = bs.map Beat.data ∧
      bs.length < len.toNat ∧ len.toNat ≤ s.maxLen) ∧
    (∃ (s : State) (len : Word), s.faulted = false ∧ len.toNat ≤ s.maxLen ∧ len.toNat = s.maxLen ∧
      rleDecF s.byteIn len.toNat = .wait) ∧
    (∃ s : State, s.ready ∧ rleDecF s.byteIn s.psz = .wait) :=
  ⟨⟨{ conf 4 2 with codeIn := [1, 2, 3, 4, 5, 6, 7] }, by decide⟩,
    ⟨{ conf 4 2 with byteIn := data [1, 2] }, [1, 2], by decide⟩,
    ⟨{ conf 4 2 with byteIn := data [1, 2] }, [1, 2], 24, by decide⟩,
    ⟨{ State.reset with byteIn := data [23, 7] }, 24, by decide⟩,
    ⟨{ conf 4 2 with byteIn := data [0x83, 1, 2] }, by decide⟩⟩

theorem witness_AWaitEndsWhenInputComes :
    (∃ s : State, s.Inv ∧ step s = .fault .waitsForByte) ∧
    (∃ (s : State) (cs : List Code), s.Inv ∧ step s = .fault .waitsForCode ∧ s.npix ≤ (s.codeIn ++ cs).length) :=
  ⟨⟨{ frameX1 with cmd := [0x2100000000] },
      { reserved := by decide, faultSmall := by decide, configuredOk := by decide, noFaultNoInfo := by decide,
        between := by decide, fsWf := by decide, fsBound := by decide, capPos := by decide }, rfl⟩,
    ⟨{ frameX1 with cmd := [0x1300000000], codeIn := [1] }, [2, 3, 4, 5, 6, 7, 0],
      { reserved := by decide, faultSmall := by decide, configuredOk := by decide, noFaultNoInfo := by decide,
        between := by decide, fsWf := by decide, fsBound := by decide, capPos := by decide }, rfl, by decide⟩⟩

theorem witness_AStepStopsOnlyIdleOrWaiting : ∃ s : State, s.Inv := ⟨frameX1, frameX1_inv⟩

theorem witness_DecodeOfEncodeIsTheInstruction :
    (Instr.extract 0xFFFFFFFF).wellFormed = true ∧ (Instr.extract 0xFFFFFFFF).isCommand = true ∧
    (Instr.rep 1 0).wellFormed = true ∧ (Instr.rep 127 0).wellFormed = true ∧ (Instr.rep 1 0).isCommand = false ∧
    (Instr.lit [0]).wellFormed = true := by decide

theorem witness_EncodeOfDecodeIsTheWord :
    (∃ i, decodeCmd 0x04DEADBEEF = .ok i) ∧ (∃ i rest, decodeRun [0x81, 7, 8] = .ok (i, rest)) :=
  ⟨⟨.init, rfl⟩, ⟨.lit [7], [8], rfl⟩⟩

theorem witness_ReservedOpcodesAreIllegal :
    (∃ w : CmdWord, opOf w ∈ opcodes) ∧
    (∃ (s : State) (w : CmdWord) (rest : List CmdWord), s.busy = none ∧ s.faulted = false ∧ s.cmd = w :: rest ∧
      opOf w ∉ opcodes) :=
  ⟨⟨0x0100000000, by decide⟩, ⟨{ State.reset with cmd := [0x0500000000] }, 0x0500000000, [], by decide⟩⟩

theorem witness_UnusedArgIsIgnored :
    opInit ∈ [opRst, opInit, opPack, opDelta, opEncf, opFold, opDecf, opUnpack, opDump] := by decide

theorem witness_KeyByteMap :
    ((0x01 : Byte) ≤ 0x01 ∧ (0x01 : Byte) ≤ 0x7F ∧ (0x01 : Byte) ≤ 0x7F ∧ (0x7F : Byte) ≤ 0x7F) ∧
    ((0x81 : Byte) ≤ 0x81 ∧ ([5] : List Byte).length = (0x81 : Byte).toNat - 0x80) ∧
    ((0x81 : Byte) ≤ 0xFF ∧ (List.replicate 127 (0 : Byte)).length = (0xFF : Byte).toNat - 0x80) := by decide +kernel

theorem witness_AStepRunsTheDecodedInstruction :
    (∃ (s : State) (w : CmdWord) (rest : List CmdWord) (i : Instr), s.busy = none ∧ s.cmd = w :: rest ∧
      decodeCmd w = .ok i) ∧
    (∃ (s : State) (b : Busy) (i : Instr) (rest : List Beat), s.busy = some b ∧ s.dec.exp ≠ 0 ∧
      i.isCommand = false ∧ i.wellFormed = true ∧ s.byteIn = i.runBytes.map Beat.data ++ rest) :=
  ⟨⟨{ frameX1 with cmd := [0x3200000000] }, _, _, .dump, rfl, rfl, rfl⟩,
    ⟨midDecode, .rledec, .rep 5 5, data [0x81], by decide⟩⟩

theorem witness_AFetchWordIsTheNextInstruction :
    decodeTableWord 40 0x3000000007 = some (.extract 7) ∧
    ((16 : Nat) ≠ 40 ∧ State.reset.busy = none ∧ State.reset.dec.exp = 0 ∧ decodeTableWord 16 0x0903 = some (.rep 3 9)) := by
  decide +kernel

theorem witness_PackPlacesEveryBit : ∃ (codes : List Code) (i k : Nat), i < codes.length ∧ k < 3 :=
  ⟨[1, 2, 3], 2, 2, by decide⟩

theorem witness_PackIsALittleEndianNumber :
    (∃ a b : List Code, a.length = b.length ∧ packF a = packF b) ∧
    (∃ a : List Code, a.length % 8 = 0 ∧ a ≠ []) :=
  ⟨⟨[1, 2, 3], [1, 2, 3], by decide⟩, ⟨[0, 1, 2, 3, 4, 5, 6, 7], by decide⟩⟩

theorem witness_StreamingPackerEqualsPack :
    ∃ (pre : List Code) (c : Code) (post : List Code), [7, 7, 7] = pre ++ c :: post ∧ post ≠ [] :=
  ⟨[7], 7, [7], by decide⟩

theorem witness_ExtractReadsTheCodesBits :
    (∃ (P : List Byte) (i k : Nat), 3 * i + 2 < 8 * P.length ∧ k < 3 ∧ i = 7) ∧
    (∃ n i : Nat, 3 * i + 2 < 8 * n ∧ 5 < 3 * i % 8) := ⟨⟨[0x88, 0xC6, 0xFA], 7, 2, by decide⟩, ⟨2, 2, by decide⟩⟩

theorem witness_ExtractInvertsPack :
    (∃ (P Q : List Byte) (n i : Nat), P.length = packedLen n ∧ Q.length = packedLen n ∧ i < n ∧ P ≠ Q ∧
      ∀ o, o < 3 * n → (P.getD (o / 8) 0).getLsbD (o % 8) = (Q.getD (o / 8) 0).getLsbD (o % 8)) ∧
    (∃ (P : List Byte) (n : Nat), 1 ≤ n ∧ P.length = packedLen n) :=
  ⟨⟨[0xFF, 0x01], [0xFF, 0x81], 3, 2, by decide⟩, ⟨[0xFF, 0x81], 3, by decide⟩⟩

theorem witness_PackEmitsThePackedFrame :
    ∃ s : State, s.ready ∧ s.between ∧ s.npix ≤ s.codeIn.length := ⟨{ conf 2 1 with codeIn := [3, 3] }, by decide⟩

theorem witness_ExtractEmitsOnePixel :
    (∃ (s : State) (i : Word), s.ready ∧ s.fits ∧ i.toNat < s.npix ∧ i.toNat + 1 = s.npix) ∧
    (∃ (s : State) (i : Word), s.ready ∧ s.npix ≤ i.toNat ∧ i.toNat = s.npix) :=
  ⟨⟨frameX1, 7, by decide⟩, ⟨frameX1, 8, by decide⟩⟩

theorem witness_UnpackAndDumpReadTheFrame : ∃ s : State, s.ready ∧ s.fits := ⟨frameX1, by decide⟩

theorem witness_UnpackEqualsAllExtracts : ∃ s : State, s.ready ∧ s.npix ≤ s.maxNpix := ⟨frameX1, by decide⟩

theorem witness_DeltaMasksTheLastByteOnly :
    ∃ (f p : List Byte) (j : Nat), f.length = p.length ∧ j < p.length ∧ j + 1 = p.length := ⟨[1, 2], [3, 4], 1, by decide⟩

theorem witness_DeltaReplacesTheFrame :
    ∃ (s : State) (p : List Byte) (rest : List Beat), s.ready ∧ s.fits ∧ Memory.wf s.fs ∧ p.length = s.psz ∧
      s.byteIn = p.map Beat.data ++ rest :=
  ⟨{ frameX1 with byteIn := data [0x88, 0xC6, 0x1A] ++ [.eos] }, [0x88, 0xC6, 0x1A], [.eos], by decide⟩

theorem witness_FoldXorsTheFrameInPlace :
    ∃ (s : State) (d : List Byte) (rest : List Beat), s.ready ∧ s.fits ∧ Memory.wf s.fs ∧ d.length = s.psz ∧
      s.byteIn = d.map Beat.data ++ rest :=
  ⟨{ frameX1 with byteIn := data [0, 0, 0xE0] }, [0, 0, 0xE0], [], by decide⟩

theorem witness_AnEosTruncatesByteCommands :
    (∃ (s : State) (bs : List Byte) (rest : List Beat), s.ready ∧ s.byteIn = bs.map Beat.data ++ .eos :: rest ∧
      bs.length < s.psz ∧ bs.length + 1 = s.psz) ∧
    (∃ (s : State) (bs : List Byte) (rest : List Beat) (len : Word), s.faulted = false ∧
      s.byteIn = bs.map Beat.data ++ .eos :: rest ∧ bs.length < len.toNat ∧ len.toNat ≤ s.maxLen) :=
  ⟨⟨{ frameX1 with byteIn := data [1, 2] ++ [.eos] }, [1, 2], [], by decide⟩,
    ⟨{ State.reset with byteIn := .eos :: data [1] }, [], data [1], 24, by decide⟩⟩

theorem witness_DeltaAndFoldByBeats : ∃ (s : State) (p : List Byte), Memory.wf s.fs ∧ p.length = s.psz :=
  ⟨frameX1, [1, 2, 3], by decide⟩

theorem witness_FoldingDeltasGivesTheFramesBack :
    ∃ (s : State) (Ps : List (List Byte)) (k : Nat), s.ready ∧ s.fits ∧ s.fs = [] ∧ (∀ P ∈ Ps, P.length = s.psz) ∧
      1 ≤ k ∧ k ≤ Ps.length ∧ maskF (Ps.getD (k - 1) []) s.tailMask = Ps.getD (k - 1) [] :=
  ⟨conf 3 3, [[0xD1, 0x58, 0x1F, 0xF9], [0xD1, 0x58, 0x1F, 0x05]], 2, by decide⟩

theorem witness_XorActsPixelByPixel :
    ∃ f p : List Byte, f.length = p.length ∧ extractF f 0 = extractF p 0 ∧ f ≠ p := ⟨[0x88], [0x08], by decide⟩

theorem witness_EncoderRepeatRun :
    (∃ (a : Byte) (rest : List Byte), (3 : Nat) ≤ 3 ∧ rest.head? ≠ some a) ∧ ((127 : Nat) ≤ 127 ∧ (127 : Nat) = 127) :=
  ⟨⟨9, [8], by decide⟩, by decide⟩

/-- The lookahead fires at 3; fires at 126, the last count it is tested at; and never fires. -/
theorem witness_EncoderLiteralRun :
    (let B : List Byte := [1, 2, 2, 2, 2];
      3 ≤ B.length ∧ ¬ (B.getD 0 0 = B.getD 1 0 ∧ B.getD 0 0 = B.getD 2 0) ∧
      3 + 1 < B.length ∧ B.getD 3 0 = B.getD 2 0 ∧ B.getD 4 0 = B.getD 2 0) ∧
    (let B : List Byte := (List.range 125).map (fun t => BitVec.ofNat 8 (t % 2)) ++ [7, 7, 7];
      126 + 1 < B.length ∧ B.getD 126 0 = B.getD 125 0 ∧ B.getD 127 0 = B.getD 125 0 ∧
      ∀ c' < 126, 3 ≤ c' →
        ¬ (c' + 1 < B.length ∧ B.getD c' 0 = B.getD (c' - 1) 0 ∧ B.getD (c' + 1) 0 = B.getD (c' - 1) 0)) ∧
    (let B : List Byte := [1, 2, 3, 3];
      3 ≤ B.length ∧ ¬ (B.getD 0 0 = B.getD 1 0 ∧ B.getD 0 0 = B.getD 2 0) ∧
      ∀ c < 127, 3 ≤ c →
        ¬ (c + 1 < B.length ∧ B.getD c 0 = B.getD (c - 1) 0 ∧ B.getD (c + 1) 0 = B.getD (c - 1) 0)) := by
  decide +kernel

theorem witness_RleencEmitsTheEncoding :
    (∃ (s : State) (len : Word) (B : List Byte) (rest : List Beat), s.faulted = false ∧ s.between ∧
      B.length = len.toNat ∧ len.toNat ≤ s.maxLen ∧ s.byteIn = B.map Beat.data ++ rest) ∧
    (∃ (s : State) (len : Word), s.faulted = false ∧ s.maxLen < len.toNat ∧ len.toNat = s.maxLen + 1) :=
  ⟨⟨{ State.reset with byteIn := data [1, 2, 3] }, 2, [1, 2], data [3], by decide⟩, ⟨State.reset, 25, by decide⟩⟩

theorem witness_DecoderDecodesExactlyLegalRuns :
    ∃ rs : List Instr, legalRuns rs ∧ logicalOf rs = [9, 9, 9, 1] := ⟨[.rep 3 9, .lit [1]], by decide⟩

theorem witness_DecoderStopsAtTheFirstBadBeat :
    ∃ (rs : List Instr) (L : Nat), legalRuns rs ∧ (logicalOf rs).length < L ∧
      keyCount 0x80 = 0 ∧ L - (logicalOf rs).length < keyCount 0x83 ∧
      1 ≤ keyCount 0x82 ∧ keyCount 0x82 ≤ L - (logicalOf rs).length ∧ ([7] : List Byte).length < payloadLen 0x82 :=
  ⟨[.rep 3 9], 5, by decide⟩

theorem witness_RledecEmitsTheDecoding :
    (∃ (s : State) (len : Word) (rs : List Instr) (rest : List Beat), s.faulted = false ∧ s.between ∧ legalRuns rs ∧
      (logicalOf rs).length = len.toNat ∧ len.toNat ≤ s.maxLen ∧ s.byteIn = (streamOf rs).map Beat.data ++ rest) ∧
    (∃ (s : State) (len : Word), s.faulted = false ∧ s.maxLen < len.toNat ∧ len.toNat = s.maxLen + 1) ∧
    (∃ (s : State) (len info : Word) (rest : List Beat), s.faulted = false ∧ len.toNat ≤ s.maxLen ∧
      rleDecF s.byteIn len.toNat = .raise .overrun info rest) :=
  ⟨⟨{ State.reset with byteIn := data [3, 9, 0x81, 1, 0x81] }, 4, [.rep 3 9, .lit [1]], data [0x81], by decide⟩,
    ⟨State.reset, 25, by decide⟩,
    ⟨{ State.reset with byteIn := data [3, 9, 0x82, 1] }, 4, 0x82, data [1], by decide⟩⟩

theorem witness_RunsAppendTheirBytes :
    (∃ (i : Instr) (s : State) (rest : List Beat), i.isCommand = false ∧ i.wellFormed = true ∧
      i.logical.length ≤ s.dec.exp ∧ s.byteIn = (i.runBytes.drop 1).map Beat.data ++ rest) ∧
    (∃ (i : Instr) (s : State) (rest : List Beat), i.isCommand = false ∧ i.wellFormed = true ∧
      i.logical.length ≤ s.dec.exp ∧ s.byteIn = (i.runBytes.drop 1).map Beat.data ++ rest ∧ i.runBytes.length = 3) ∧
    (∃ (i : Instr) (s : State), i.isCommand = false ∧ i.wellFormed = true ∧ s.dec.exp < i.logical.length ∧
      s.dec.exp + 1 = i.logical.length) ∧
    (∃ (i : Instr) (s : State) (bs : List Byte) (rest : List Beat), i.isCommand = false ∧ i.wellFormed = true ∧
      i.logical.length ≤ s.dec.exp ∧ s.byteIn = bs.map Beat.data ++ .eos :: rest ∧ bs.length + 1 < i.runBytes.length) :=
  ⟨⟨.rep 5 5, midDecode.takeKey 5, data [0x81], by decide⟩,
    ⟨.lit [5, 0x81], midDecode.takeKey 0x82, [], by decide⟩,
    ⟨.rep 6 5, midDecode.takeKey 6, by decide⟩,
    ⟨.lit [5, 6], { midDecode with byteIn := data [5] ++ [.eos] }, [5], [], by decide⟩⟩

theorem witness_RunByRunEqualsTheCommand :
    ∃ (s : State) (len : Word), s.faulted = false ∧ s.between ∧ len.toNat ≤ s.maxLen ∧ s.configured = true :=
  ⟨{ frameX1 with byteIn := data [0x83, 0, 0, 0xE0] }, 3, by decide⟩

theorem witness_EncfEmitsTheEncodedDelta :
    ∃ s : State, s.ready ∧ s.fits ∧ s.between ∧ Memory.wf s.fs ∧ s.npix ≤ s.codeIn.length :=
  ⟨{ frameX1 with codeIn := [0, 1, 2, 3, 4, 5, 6, 0] }, by decide⟩

theorem witness_DecfFoldsTheDecodedDelta :
    (∃ (s : State) (rs : List Instr) (rest : List Beat), s.ready ∧ s.fits ∧ s.between ∧ Memory.wf s.fs ∧
      legalRuns rs ∧ (logicalOf rs).length = s.psz ∧ s.byteIn = (streamOf rs).map Beat.data ++ rest) ∧
    (∃ (s : State) (info : Word) (rest : List Beat), s.ready ∧
      rleDecF s.byteIn s.psz = .raise .zerocnt info rest) :=
  ⟨⟨{ frameX1 with byteIn := data [0x83, 0, 0, 0xE0, 0x03] }, [.lit [0, 0, 0xE0]], data [0x03], by decide⟩,
    ⟨{ frameX1 with byteIn := data [0x02, 0, 0x80, 0] }, 0x80, data [0], by decide⟩⟩

theorem witness_EncfEqualsItsParts :
    ∃ s : State, s.ready ∧ s.fits ∧ s.between ∧ s.npix ≤ s.codeIn.length :=
  ⟨{ frameX1 with codeIn := [0, 1, 2, 3, 4, 5, 6, 0] }, by decide⟩

theorem witness_DecfEqualsItsParts :
    ∃ (s : State) (d : List Byte) (rest : List Beat), s.ready ∧ s.fits ∧ s.between ∧
      rleDecF s.byteIn s.psz = .done d rest :=
  ⟨{ frameX1 with byteIn := data [0x83, 0, 0, 0xE0, 0x03] }, [0, 0, 0xE0], data [0x03], by decide⟩

theorem witness_WholePathRoundTrip :
    ∃ (s : State) (cs : List (List Code)) (k : Nat), s.ready ∧ s.fits ∧ s.fs = [] ∧ 1 ≤ s.npix ∧
      (∀ c ∈ cs, c.length = s.npix) ∧ k < cs.length :=
  ⟨conf 3 1, [[1, 2, 3], [4, 5, 6]], 1, by decide⟩

theorem witness_HardwareResetIsRstForTheRegisters :
    frameX1.inCommand = false ∧ ({ frameX1 with cmd := [0x2200000000] } : State).inCommand = true := by decide

theorem witness_SetwAndSethWriteTheGeometry : frameX1.faulted = false := by decide

theorem witness_InitChecksTheGeometry :
    (∃ s : State, s.faulted = false ∧ 1 ≤ s.cfgW.toNat ∧ 1 ≤ s.cfgH.toNat ∧ s.cfgW.toNat * s.cfgH.toNat ≤ s.cap.toNat ∧
      s.cfgW.toNat * s.cfgH.toNat = s.cap.toNat) ∧
    (∃ s : State, s.faulted = false ∧ s.cap.toNat < s.cfgW.toNat * s.cfgH.toNat ∧
      s.cfgW.toNat * s.cfgH.toNat = s.cap.toNat + 1) :=
  ⟨⟨conf 8 8, by decide⟩, ⟨conf 5 13, by decide⟩⟩

theorem witness_UnconfiguredCommandsRaiseNocfg :
    Instr.decf.needsConfigured = true ∧ Instr.decf.opcode = some 0x22 ∧ State.reset.faulted = false ∧
      State.reset.configured = false := by decide

theorem witness_AFaultIsSticky :
    faultedX.busy = none ∧ faultedX.faulted = true ∧ faultedX.cmd = [0x0700000000] ∧ opOf 0x0700000000 ≠ opRst := by decide

theorem witness_AFaultingStepIsAtomic :
    ∃ s t : State, s.between ∧ s.faulted = false ∧ step s = .next t ∧ t.faulted = true :=
  ⟨{ frameX1 with cmd := [0x2200000000], byteIn := data [2, 0, 2, 0] }, _, by decide, by decide, rfl, by decide⟩

/-- One witness for each of the six causes that an instruction can raise. -/
theorem witness_FaultCausesByCommand :
    [(Instr.decf, State.reset), (.init, State.reset), (.extract 8, frameX1),
      (.fold, { frameX1 with byteIn := [.eos] }), (.rledec 2, { State.reset with byteIn := data [3] }),
      (.decf, { frameX1 with byteIn := data [0x80] })].map
        (fun p => (p.1.wellFormed, p.2.faulted, (answer (exec p.1 p.2)).map State.faultCode)) =
      [(true, false, some 2), (true, false, some 3), (true, false, some 4), (true, false, some 5), (true, false, some 6),
        (true, false, some 7)] := by decide

theorem witness_BeatsTakenByAFaultingCommand :
    (∃ s t : State, s.busy = none ∧ step s = .next t ∧ s.faulted = true) ∧
    (∃ s t : State, s.busy = none ∧ step s = .next t ∧ s.faulted = false ∧ t.faulted = true ∧ t.byteIn = data [0]) :=
  ⟨⟨faultedX, _, by decide, rfl, by decide⟩,
    ⟨{ frameX1 with cmd := [0x2200000000], byteIn := data [2, 0, 2, 0] }, _, by decide, rfl, by decide⟩⟩

end Sys2Proof.Machine.Tests
end

section
/-! SUPPORT. The derived geometry values of R12: each is a function of `NPIX mod 8`, because `NBITS = 3 * NPIX` and
the bytes of a frame hold 8 bits. -/

namespace Sys2Proof.Machine

theorem nbits_eq (s : State) : s.nbits = 3 * s.npix := rfl

/-- `PSZ` rounds up, so the subtraction that defines `PADBITS` never truncates. -/
theorem eight_mul_psz (s : State) : 8 * s.psz = s.nbits + s.padBits := by
  simp only [State.padBits, State.psz]
  omega

/-- The pad bits fill the last byte, and there are none where it is full. -/
theorem padBits_eq_of_tailBits (s : State) : s.padBits = (8 - s.tailBits) % 8 := by
  simp only [State.padBits, State.psz, State.tailBits]
  omega

theorem padBits_lt (s : State) : s.padBits < 8 := by
  rw [padBits_eq_of_tailBits]
  exact Nat.mod_lt _ (by decide)

theorem tailBits_eq_of_npix_mod (s : State) : s.tailBits = 3 * (s.npix % 8) % 8 := by
  rw [State.tailBits, nbits_eq, Nat.mul_mod_mod]

/-- The rows of R12's table, one for each remainder `r` of `NPIX` by 8. -/
theorem tailTable (r : Nat) (hr : r < 8) :
    3 * r % 8 = [0, 3, 6, 1, 4, 7, 2, 5].getD r 0 ∧
    maskOfTail (3 * r % 8) = ([0xFF, 0x07, 0x3F, 0x01, 0x0F, 0x7F, 0x03, 0x1F] : List Byte).getD r 0 ∧
    (8 - 3 * r % 8) % 8 = [0, 5, 2, 7, 4, 1, 6, 3].getD r 0 := by
  revert r
  decide

/-- Settles O1: `TAILBITS`, and through it `TAILMASK` and `PADBITS`, depends on `NPIX mod 8` alone, so the table is
checked once for each of the eight remainders. -/
theorem tailValuesDependOnPixelCountModEight : Obligations.TailValuesDependOnPixelCountModEight := by
  intro s
  obtain ⟨htail, hmask, hpad⟩ := tailTable (s.npix % 8) (Nat.mod_lt _ (by decide))
  rw [← tailBits_eq_of_npix_mod] at htail hmask hpad
  exact ⟨nbits_eq s, eight_mul_psz s, padBits_lt s, htail, hmask, (padBits_eq_of_tailBits s).trans hpad⟩

end Sys2Proof.Machine
end

section
/-! SUPPORT. What carrying out an instruction can lead to, said once: it is cut short, or it completes. The invariants, the
registers and the queues are each followed through these two. -/

namespace Sys2Proof.Machine

/-- The next states of a command that does not complete: it is dropped with nothing changed (R206), or it raises a fault after
taking some beats of `byte_in` (R205, R209). -/
inductive CutShort (s : State) : State → Prop
  | dropped : CutShort s s
  | raised (c : Cause) (info : Word) (rest : List Beat) (hrest : rest <:+ s.byteIn) :
      CutShort s ({ s with byteIn := rest }.raise c info)

/-- The next state of an instruction that completes: the command's own effect, or the run's. -/
inductive Completes : Instr → State → State → Prop
  | rst (s : State) : Completes .rst s s.softReset
  | setw (arg : Word) (s : State) : Completes (.setw arg) s ({ s with cfgW := arg }.setConfigured false)
  | seth (arg : Word) (s : State) : Completes (.seth arg) s ({ s with cfgH := arg }.setConfigured false)
  | init (s : State) (hlegal : s.legalGeometry = true) :
      Completes .init s ({ s with fs := [], frames := 0 }.setConfigured true)
  | pack (s : State) (hcodes : s.npix ≤ s.codeIn.length) :
      Completes .pack s
        ({ s with codeIn := s.codeIn.drop s.npix }.emitBytes (packF (s.codeIn.take s.npix))).endCommand
  | delta (s : State) (p : List Byte) (rest : List Beat) (hfits : s.fits) (hlen : p.length = s.psz)
      (hrest : rest <:+ s.byteIn) :
      Completes .delta s
        (({ s with byteIn := rest }.emitBytes (deltaF s.frame p s.tailMask)).storeFrame p).countFrame
  | rleenc (len : Word) (s : State) (B : List Byte) (rest : List Beat) (hrest : rest <:+ s.byteIn) :
      Completes (.rleenc len) s ({ s with byteIn := rest }.emitBytes (rleEncF B)).endCommand
  | encf (s : State) (hfits : s.fits) (hcodes : s.npix ≤ s.codeIn.length) :
      Completes .encf s ((({ s with codeIn := s.codeIn.drop s.npix }.emitBytes
        (rleEncF (deltaF s.frame (packF (s.codeIn.take s.npix)) s.tailMask))).storeFrame
          (packF (s.codeIn.take s.npix))).countFrame).endCommand
  | rledec (len : Word) (s : State) (out : List Byte) (rest : List Beat) (hrest : rest <:+ s.byteIn) :
      Completes (.rledec len) s ({ s with byteIn := rest }.emitBytes out).endCommand
  | fold (s : State) (d : List Byte) (rest : List Beat) (hfits : s.fits) (hrest : rest <:+ s.byteIn) :
      Completes .fold s ({ s with byteIn := rest }.storeFrame (xorF s.frame d)).countFrame
  | decf (s : State) (out : List Byte) (rest : List Beat) (hfits : s.fits) (hrest : rest <:+ s.byteIn) :
      Completes .decf s (({ s with byteIn := rest }.storeFrame (xorF s.frame out)).countFrame).endCommand
  | extract (i : Word) (s : State) : Completes (.extract i) s (s.emitCodes [extractF s.frame i.toNat])
  | unpack (s : State) : Completes .unpack s (s.emitCodes (unpackF s.frame s.npix))
  | dump (s : State) : Completes .dump s (s.emitBytes s.frame)
  | rep (count : BitVec 7) (v : Byte) (s : State) (rest : List Beat) (hrest : rest <:+ s.byteIn) :
      Completes (.rep count v) s { s with byteIn := rest, dec := repRun count.toNat v s.dec }
  | lit (payload : List Byte) (s : State) (rest : List Beat) (hrest : rest <:+ s.byteIn) :
      Completes (.lit payload) s { s with byteIn := rest, dec := litRun payload s.dec }

/-- A fault that takes no data beat. -/
theorem CutShort.raised_here (s : State) (c : Cause) (info : Word) : CutShort s (s.raise c info) :=
  .raised c info s.byteIn (List.suffix_refl _)

theorem illegalCommand_cutShort {op : Byte} {s t : State} (h : illegalCommand op s = .next t) : CutShort s t := by
  rcases illegalCommand_cases op s with ⟨-, e⟩ | ⟨-, e⟩
  · cases e.symm.trans h; exact .dropped
  · cases e.symm.trans h; exact .raised_here ..

/-! ## The beats that decoding takes -/

/-- Fetching a run leaves the end of the queue. -/
def RunFetch.LeavesSuffixOf (q : List Beat) : RunFetch → Prop
  | .run _ _ _ rest => rest <:+ q
  | .raise _ _ rest => rest <:+ q
  | .wait => True

/-- Decoding a stream leaves the end of the queue. -/
def Decoded.LeavesSuffixOf (q : List Beat) : Decoded → Prop
  | .done _ rest => rest <:+ q
  | .raise _ _ rest => rest <:+ q
  | .wait => True

theorem fetchRun_leavesSuffixOf (exp : Nat) (q : List Beat) : (fetchRun exp q).LeavesSuffixOf q := by
  match q with
  | [] => trivial
  | .eos :: q => exact List.suffix_cons _ q
  | .data key :: q =>
    rw [fetchRun]
    cases countFault exp (keyCount key) with
    | some c => exact List.suffix_cons _ q
    | none =>
      cases ht : takeBytes (payloadLen key) q with
      | got payload rest =>
        obtain ⟨-, rfl⟩ := takeBytes_got _ _ _ _ ht
        exact (List.suffix_append _ rest).trans (List.suffix_cons _ _)
      | trunc rest =>
        obtain ⟨bs, -, rfl⟩ := takeBytes_trunc _ _ _ ht
        exact ((List.suffix_cons _ rest).trans (List.suffix_append _ _)).trans (List.suffix_cons _ _)
      | wait => trivial

theorem decLoop_leavesSuffixOf (fuel : Nat) (d : Decoder) (q : List Beat) :
    (decLoop fuel d q).LeavesSuffixOf q := by
  induction fuel generalizing d q with
  | zero =>
    rw [decLoop]
    split
    · exact List.suffix_refl q
    · trivial
  | succ fuel ih =>
    have hfetch := fetchRun_leavesSuffixOf d.exp q
    rw [decLoop]
    split
    · exact List.suffix_refl q
    · cases hf : fetchRun d.exp q with
      | wait => trivial
      | raise c info rest => rw [hf] at hfetch; exact hfetch
      | run key payload afterKey rest =>
        rw [hf] at hfetch
        have hrest : rest <:+ q := hfetch
        have hloop := ih (applyRun key payload d) rest
        show (decLoop fuel (applyRun key payload d) rest).LeavesSuffixOf q
        cases hd : decLoop fuel (applyRun key payload d) rest with
        | done out left => rw [hd] at hloop; exact List.IsSuffix.trans hloop hrest
        | raise c info left => rw [hd] at hloop; exact List.IsSuffix.trans hloop hrest
        | wait => trivial

theorem rleDecF_leavesSuffixOf (q : List Beat) (L : Nat) : (rleDecF q L).LeavesSuffixOf q :=
  decLoop_leavesSuffixOf L _ q

/-! ## Every next state is one of the two -/

/-- A command reaches a next state cut short by what all commands share, or by its own part. -/
theorem CommandAnswers.next {op : Byte} {need : Bool} {s t : State} {r : Result} {own goal : Prop}
    (h : CommandAnswers op need s r own) (hr : r = .next t) (hcut : CutShort s t → goal) (hown : own → goal) : goal := by
  rcases h with ⟨-, e⟩ | ⟨-, -, -, e⟩ | ⟨-, -, ho⟩
  · cases e.symm.trans hr; exact hcut .dropped
  · cases e.symm.trans hr; exact hcut (.raised_here ..)
  · exact hown ho

/-- A command that takes bytes reaches a next state cut short by an `Eos`, or by what it does with the bytes. -/
theorem ByteAnswers.next {n : Nat} {s t : State} {r : Result} {own : List Byte → List Beat → Prop} {goal : Prop}
    (h : ByteAnswers n s r own) (hr : r = .next t) (hcut : CutShort s t → goal)
    (hown : ∀ bs rest, bs.length = n → rest <:+ s.byteIn → own bs rest → goal) : goal := by
  rcases h with ⟨-, -, -, e⟩ | ⟨bs, rest, -, hq, e⟩ | ⟨bs, rest, hl, hq, ho⟩
  · cases e.symm.trans hr
  · cases e.symm.trans hr
    refine hcut (.raised _ _ _ ?_)
    rw [hq]
    exact (List.suffix_cons _ rest).trans (List.suffix_append _ _)
  · exact hown bs rest hl (hq ▸ List.suffix_append _ _) ho

/-- A decoding command reaches a next state cut short by the decoder's fault, or by what it does with the bytes. -/
theorem decodeFor_next {b : Busy} {L : Nat} {s t : State} {goal : Prop} (h : decodeFor b L s = .next t)
    (hcut : CutShort s t → goal)
    (hown : ∀ out rest, rest <:+ s.byteIn → finishDecode b out { s with byteIn := rest } = .next t → goal) : goal := by
  have hleft := rleDecF_leavesSuffixOf s.byteIn L
  rcases decodeFor_cases b L s with ⟨out, rest, hd, e⟩ | ⟨c, info, rest, hd, e⟩ | ⟨-, e⟩
  · rw [hd] at hleft
    exact hown out rest hleft (e.symm.trans h)
  · rw [hd] at hleft
    cases e.symm.trans h
    exact hcut (.raised c info rest hleft)
  · cases e.symm.trans h

/-- What `DECF` does with the decoded bytes, where the store has the frame's bytes. -/
theorem finishDecode_decf_next {out : List Byte} {s t : State} (h : finishDecode .decf out s = .next t) :
    s.fits ∧ t = ((s.storeFrame (xorF s.frame out)).countFrame).endCommand := by
  rcases finishDecode_decf_cases out s with ⟨hfits, e⟩ | ⟨-, e⟩
  · cases e.symm.trans h; exact ⟨hfits, rfl⟩
  · cases e.symm.trans h

/-- All the next states of an instruction. -/
theorem exec_next {i : Instr} {s t : State} (h : exec i s = .next t) : CutShort s t ∨ Completes i s t := by
  cases i with
  | rst => cases h; exact .inr (.rst s)
  | setw arg =>
    refine (execSetw_cases arg s).next h .inl fun e => ?_
    cases e.symm.trans h; exact .inr (.setw arg s)
  | seth arg =>
    refine (execSeth_cases arg s).next h .inl fun e => ?_
    cases e.symm.trans h; exact .inr (.seth arg s)
  | init =>
    refine (execInit_cases s).next h .inl ?_
    rintro (⟨hlegal, e⟩ | ⟨-, e⟩)
    · cases e.symm.trans h; exact .inr (.init s hlegal)
    · cases e.symm.trans h; exact .inl (.raised_here ..)
  | pack =>
    refine (execPack_cases s).next h .inl ?_
    rintro (⟨-, e⟩ | ⟨hcodes, e⟩)
    · cases e.symm.trans h
    · cases e.symm.trans h; exact .inr (.pack s hcodes)
  | delta =>
    refine (execDelta_cases s).next h .inl fun hb => hb.next h .inl fun p rest hlen hrest ho => ?_
    rcases ho with ⟨hfits, e⟩ | ⟨-, e⟩
    · cases e.symm.trans h; exact .inr (.delta s p rest hfits hlen hrest)
    · cases e.symm.trans h
  | rleenc len =>
    refine (execRleenc_cases len s).next h .inl ?_
    rintro (⟨-, e⟩ | ⟨-, hb⟩)
    · cases e.symm.trans h; exact .inl (.raised_here ..)
    · refine hb.next h .inl fun B rest _ hrest e => ?_
      cases e.symm.trans h; exact .inr (.rleenc len s B rest hrest)
  | encf =>
    refine (execEncf_cases s).next h .inl ?_
    rintro (⟨-, e⟩ | ⟨hcodes, hfits, e⟩ | ⟨-, -, e⟩)
    · cases e.symm.trans h
    · cases e.symm.trans h; exact .inr (.encf s hfits hcodes)
    · cases e.symm.trans h
  | rledec len =>
    refine (execRledec_cases len s).next h .inl ?_
    rintro (⟨-, e⟩ | ⟨-, e⟩)
    · cases e.symm.trans h; exact .inl (.raised_here ..)
    · refine decodeFor_next (e.symm.trans h) .inl fun out rest hrest hf => ?_
      cases hf; exact .inr (.rledec len s out rest hrest)
  | fold =>
    refine (execFold_cases s).next h .inl fun hb => hb.next h .inl fun d rest _ hrest ho => ?_
    rcases ho with ⟨hfits, e⟩ | ⟨-, e⟩
    · cases e.symm.trans h; exact .inr (.fold s d rest hfits hrest)
    · cases e.symm.trans h
  | decf =>
    refine (execDecf_cases s).next h .inl fun e => decodeFor_next (e.symm.trans h) .inl fun out rest hrest hf => ?_
    obtain ⟨hfits, rfl⟩ := finishDecode_decf_next hf
    exact .inr (.decf s out rest hfits hrest)
  | extract px =>
    refine (execExtract_cases px s).next h .inl ?_
    rintro (⟨-, e⟩ | ⟨-, -, e⟩ | ⟨-, -, e⟩)
    · cases e.symm.trans h; exact .inl (.raised_here ..)
    · cases e.symm.trans h; exact .inr (.extract px s)
    · cases e.symm.trans h
  | unpack =>
    refine (execUnpack_cases s).next h .inl ?_
    rintro (⟨-, e⟩ | ⟨-, e⟩)
    · cases e.symm.trans h; exact .inr (.unpack s)
    · cases e.symm.trans h
  | dump =>
    refine (execDump_cases s).next h .inl ?_
    rintro (⟨-, e⟩ | ⟨-, e⟩)
    · cases e.symm.trans h; exact .inr (.dump s)
    · cases e.symm.trans h
  | rep count v =>
    rcases execRep_cases count v s with ⟨c, -, e⟩ | ⟨-, hb⟩
    · cases e.symm.trans h; exact .inl (.raised_here ..)
    · refine hb.next h .inl fun _ rest _ hrest e => ?_
      cases e.symm.trans h; exact .inr (.rep count v s rest hrest)
  | lit payload =>
    rcases execLit_cases payload s with ⟨c, -, e⟩ | ⟨-, hb⟩
    · cases e.symm.trans h; exact .inl (.raised_here ..)
    · refine hb.next h .inl fun _ rest _ hrest e => ?_
      cases e.symm.trans h; exact .inr (.lit payload s rest hrest)

end Sys2Proof.Machine
end

section
/-! SUPPORT. The invariants between commands (R39): what each update of the state keeps of them, and so every step. -/

namespace Sys2Proof.Machine

/-- The reset registers meet the invariants, whatever the queues hold (R38, R191). -/
theorem softReset_inv (s : State) (hcap : 1 ≤ s.maxNpix) : s.softReset.Inv where
  reserved := by simp
  faultSmall := by simp [State.faultCode, statusFault]
  configuredOk := fun hc => by simp at hc
  noFaultNoInfo := fun _ => rfl
  between := ⟨rfl, rfl, rfl, rfl⟩
  fsWf := Memory.wf_nil
  fsBound := by simp
  capPos := hcap

namespace State.Inv

variable {s : State}

/-- The invariants do not speak of the queues. -/
theorem withInputs (h : s.Inv) (cmd : List CmdWord) (codeIn : List Code) (byteIn : List Beat) :
    ({ s with cmd := cmd, codeIn := codeIn, byteIn := byteIn } : State).Inv := { h with }

theorem emitBytes (h : s.Inv) (bs : List Byte) : (s.emitBytes bs).Inv := { h with }

theorem emitCodes (h : s.Inv) (cs : List Code) : (s.emitCodes cs).Inv := { h with }

theorem countFrame (h : s.Inv) : s.countFrame.Inv := { h with }

theorem endCommand (h : s.Inv) : s.endCommand.Inv := { h with between := ⟨rfl, rfl, rfl, rfl⟩ }

/-- Taking a fault records a legal cause, and leaves the geometry and the frame store alone (R205). -/
theorem raise (h : s.Inv) (c : Cause) (info : Word) : (s.raise c info).Inv :=
  { h with
    reserved := reserved_setFault s.status c.code h.reserved
    faultSmall := by rw [raise_faultCode]; exact c.code_le
    configuredOk := fun hc => h.configuredOk (by rwa [raise_configured] at hc)
    noFaultNoInfo := fun hf => by rw [raise_faulted] at hf; cases hf
    between := ⟨rfl, rfl, rfl, rfl⟩ }

/-- Without a configured geometry the geometry registers are free (R192, R193). -/
theorem unconfigure (h : s.Inv) (w ht : Word) :
    (({ s with cfgW := w, cfgH := ht } : State).setConfigured false).Inv :=
  { h with
    reserved := reserved_setConfigured s.status false h.reserved
    faultSmall := by rw [setConfigured_faultCode]; exact h.faultSmall
    configuredOk := fun hc => by rw [setConfigured_configured] at hc; cases hc
    noFaultNoInfo := fun hf => h.noFaultNoInfo (by rwa [setConfigured_faulted] at hf) }

/-- `INIT` configures a legal geometry with an empty frame store (R194). -/
theorem configure (h : s.Inv) (hlegal : s.legalGeometry = true) :
    (({ s with fs := [], frames := 0 } : State).setConfigured true).Inv := by
  obtain ⟨hw, hh, hcap⟩ := (legalGeometry_iff s).1 hlegal
  exact
    { h with
      reserved := reserved_setConfigured s.status true h.reserved
      faultSmall := by rw [setConfigured_faultCode]; exact h.faultSmall
      configuredOk := fun _ =>
        ⟨hw, hh, hcap, psz_pos s (Nat.mul_pos hw hh), psz_le_maxLen s hcap, fun c hc => by cases hc⟩
      noFaultNoInfo := fun hf => h.noFaultNoInfo (by rwa [setConfigured_faulted] at hf)
      fsWf := Memory.wf_nil
      fsBound := fun c hc => by cases hc }

/-- Storing no more than a frame keeps the store within the frame (R39 (b)). -/
theorem storeFrame (h : s.Inv) (p : List Byte) (hlen : p.length ≤ s.psz) (hfits : s.fits) :
    (s.storeFrame p).Inv :=
  { h with
    configuredOk := fun hc => by
      obtain ⟨hw, hh, hcap, hpos, hfits, hfs⟩ := h.configuredOk hc
      exact ⟨hw, hh, hcap, hpos, hfits,
        Memory.writeFrom_forall (· < s.psz) s.fs 0 p (fun k _ hk => by omega) hfs⟩
    fsWf := Memory.writeFrom_wf s.fs 0 p h.fsWf
    fsBound := Memory.writeFrom_forall (· < s.maxLen) s.fs 0 p
      (fun k _ hk => by simp only [State.fits] at hfits; omega) h.fsBound }

end State.Inv

theorem CutShort.inv {s t : State} (h : CutShort s t) (hs : s.Inv) : t.Inv := by
  cases h with
  | dropped => exact hs
  | raised c info rest hrest => exact (hs.withInputs s.cmd s.codeIn rest).raise c info

theorem packF_take_length (s : State) (h : s.npix ≤ s.codeIn.length) :
    (packF (s.codeIn.take s.npix)).length = s.psz := by
  rw [packF_length, List.length_take, Nat.min_eq_left h, packedLen_npix]

theorem xorF_frame_length_le (s : State) (d : List Byte) : (xorF s.frame d).length ≤ s.psz := by
  simp

/-- A command that completes ends between commands and keeps the invariants; a run ends inside its decoding command, so it is
left out. -/
theorem Completes.inv {i : Instr} {s t : State} (h : Completes i s t) (hi : i.isCommand = true) (hs : s.Inv) : t.Inv := by
  cases h with
  | rst => exact softReset_inv s hs.capPos
  | setw arg => exact hs.unconfigure arg s.cfgH
  | seth arg => exact hs.unconfigure s.cfgW arg
  | init _ hlegal => exact hs.configure hlegal
  | pack => exact ((hs.withInputs s.cmd _ s.byteIn).emitBytes _).endCommand
  | delta _ p rest hfits hlen =>
    exact (((hs.withInputs s.cmd s.codeIn rest).emitBytes _).storeFrame p hlen.le hfits).countFrame
  | rleenc _ _ B rest => exact ((hs.withInputs s.cmd s.codeIn rest).emitBytes _).endCommand
  | encf _ hfits hcodes =>
    exact (((hs.withInputs s.cmd _ s.byteIn).emitBytes _).storeFrame _
      (packF_take_length s hcodes).le hfits).countFrame.endCommand
  | rledec _ _ out rest => exact ((hs.withInputs s.cmd s.codeIn rest).emitBytes out).endCommand
  | fold _ d rest hfits =>
    exact ((hs.withInputs s.cmd s.codeIn rest).storeFrame _ (xorF_frame_length_le s d) hfits).countFrame
  | decf _ out rest hfits =>
    exact ((hs.withInputs s.cmd s.codeIn rest).storeFrame _
      (xorF_frame_length_le s out) hfits).countFrame.endCommand
  | extract => exact hs.emitCodes _
  | unpack => exact hs.emitCodes _
  | dump => exact hs.emitBytes _
  | rep => cases hi
  | lit => cases hi

/-- Settles O3: a state that meets the invariants is between commands, so the step takes a command word; what the word's
command leads to is cut short or complete, and either keeps the invariants. -/
theorem everyStepKeepsTheInvariants : Obligations.EveryStepKeepsTheInvariants := by
  intro s t hs hstep
  obtain ⟨-, -, -, hbusy⟩ := hs.between
  rcases step_between s hbusy with ⟨-, e⟩ | ⟨w, rest, i, -, hdec, e⟩ | ⟨w, rest, -, -, -, e⟩
  · cases e.symm.trans hstep
  · have htaken := hs.withInputs rest s.codeIn s.byteIn
    rcases exec_next (e.symm.trans hstep) with hcut | hdone
    · exact hcut.inv htaken
    · exact hdone.inv (decodeCmd_isCommand w i hdec) htaken
  · exact (illegalCommand_cutShort (e.symm.trans hstep)).inv (hs.withInputs rest s.codeIn s.byteIn)

/-- Settles O2: the reset state is what a soft reset makes of itself. -/
theorem resetMeetsTheInvariants : Obligations.ResetMeetsTheInvariants := by
  have hinv : ∀ cap : Word, 1 ≤ cap.toNat → (State.resetWith cap).Inv :=
    fun cap hcap => softReset_inv (State.resetWith cap) hcap
  refine ⟨fun cap hcap => ⟨hinv cap hcap, fun r => by cases r <;> rfl, fun j => rfl, ?_, ?_⟩,
    hinv Config.maxNpix (by decide)⟩
  · exact softReset_faulted (State.resetWith cap)
  · exact softReset_configured (State.resetWith cap)

end Sys2Proof.Machine
end

section
/-! SUPPORT. Which instruction changes which register (R26), and what a step does to the queues (R25, R61). -/

namespace Sys2Proof.Machine

/-- Settles O4: what is cut short changes no register but `STATUS.FAULT` and `FAULT_INFO`; of the instructions that complete,
each field is checked against the commands that write it. -/
theorem registersChangeOnlyByTheirCommands : Obligations.RegistersChangeOnlyByTheirCommands := by
  intro i s t h
  rcases exec_next h with hcut | hdone
  · cases hcut with
    | dropped => simp
    | raised c info rest hrest => simp [State.configured]
  · cases hdone <;> simp [State.configured]

/-- The data queues between one state and the next: input queues lose beats at their heads, output queues gain beats at their
ends (R25). -/
structure DataFifo (s t : State) : Prop where
  codeIn : t.codeIn <:+ s.codeIn
  byteIn : t.byteIn <:+ s.byteIn
  byteOut : s.byteOut <+: t.byteOut
  codeOut : s.codeOut <+: t.codeOut

theorem DataFifo.trans {s t u : State} (h : DataFifo s t) (h' : DataFifo t u) : DataFifo s u :=
  ⟨h'.codeIn.trans h.codeIn, h'.byteIn.trans h.byteIn, h.byteOut.trans h'.byteOut, h.codeOut.trans h'.codeOut⟩

theorem CutShort.queues {s t : State} (h : CutShort s t) : t.cmd = s.cmd ∧ DataFifo s t := by
  cases h with
  | dropped => exact ⟨rfl, by constructor <;> simp⟩
  | raised c info rest hrest => exact ⟨rfl, by constructor <;> simp [hrest]⟩

theorem Completes.queues {i : Instr} {s t : State} (h : Completes i s t) : t.cmd = s.cmd ∧ DataFifo s t := by
  cases h <;> exact ⟨rfl, by constructor <;> simp [List.drop_suffix, *]⟩

/-- An instruction takes no command word: its own is gone already. -/
theorem exec_queues {i : Instr} {s t : State} (h : exec i s = .next t) : t.cmd = s.cmd ∧ DataFifo s t :=
  (exec_next h).elim CutShort.queues Completes.queues

theorem finishDecode_queues {b : Busy} {out : List Byte} {s t : State} (h : finishDecode b out s = .next t) :
    t.cmd = s.cmd ∧ DataFifo s t := by
  cases b with
  | rledec => cases h; exact ⟨rfl, by constructor <;> simp⟩
  | decf =>
    obtain ⟨-, rfl⟩ := finishDecode_decf_next h
    exact ⟨rfl, by constructor <;> simp⟩

theorem takeKey_queues (s : State) (key : Byte) : DataFifo s (s.takeKey key) := by
  constructor <;> simp [List.tail_suffix]

/-- A run that was fetched is carried out with its key taken (R160, R163). -/
theorem decodeTick_fetched (b : Busy) {s : State} (hexp : s.dec.exp ≠ 0) {key : Byte} {payload : List Byte}
    {afterKey rest : List Beat} (hf : fetchRun s.dec.exp s.byteIn = .run key payload afterKey rest) :
    decodeTick b s = exec (runOf key payload) (s.takeKey key) := by
  rw [decodeTick, if_neg hexp, hf]
  cases hl : keyIsLit key <;> simp [runOf, hl, exec]

theorem decodeTick_raised (b : Busy) {s : State} (hexp : s.dec.exp ≠ 0) {c : Cause} {info : Word} {rest : List Beat}
    (hf : fetchRun s.dec.exp s.byteIn = .raise c info rest) :
    decodeTick b s = .next ({ s with byteIn := rest }.raise c info) := by
  rw [decodeTick, if_neg hexp, hf]

theorem decodeTick_waits (b : Busy) {s : State} (hexp : s.dec.exp ≠ 0)
    (hf : fetchRun s.dec.exp s.byteIn = .wait) : decodeTick b s = .fault .waitsForByte := by
  rw [decodeTick, if_neg hexp, hf]

theorem decodeTick_queues {b : Busy} {s t : State} (h : decodeTick b s = .next t) : t.cmd = s.cmd ∧ DataFifo s t := by
  by_cases hexp : s.dec.exp = 0
  · rw [decodeTick, if_pos hexp] at h
    exact finishDecode_queues h
  · have hleft := fetchRun_leavesSuffixOf s.dec.exp s.byteIn
    cases hf : fetchRun s.dec.exp s.byteIn with
    | run key payload afterKey rest =>
      obtain ⟨hcmd, hfifo⟩ := exec_queues ((decodeTick_fetched b hexp hf).symm.trans h)
      exact ⟨hcmd, (takeKey_queues s key).trans hfifo⟩
    | raise c info rest =>
      rw [hf] at hleft
      cases (decodeTick_raised b hexp hf).symm.trans h
      exact (CutShort.raised c info rest hleft).queues
    | wait => cases (decodeTick_waits b hexp hf).symm.trans h

/-- Settles O6: a step between commands takes one word and then carries out a command, which is first-in first-out on the
other queues; a step inside one is the interpreter's. -/
theorem queuesAreFirstInFirstOut : Obligations.QueuesAreFirstInFirstOut := by
  intro s t h
  cases hbusy : s.busy with
  | some b =>
    obtain ⟨hcmd, hfifo⟩ := decodeTick_queues ((step_busy s b hbusy).symm.trans h)
    exact ⟨fun hn => (by cases hn), fun _ => hcmd, hfifo.codeIn, hfifo.byteIn, hfifo.byteOut, hfifo.codeOut⟩
  | none =>
    have htake : ∃ w rest, s.cmd = w :: rest ∧ t.cmd = rest ∧ DataFifo { s with cmd := rest } t := by
      rcases step_between s hbusy with ⟨-, e⟩ | ⟨w, rest, i, hcmd, -, e⟩ | ⟨w, rest, -, hcmd, -, e⟩
      · cases e.symm.trans h
      · exact ⟨w, rest, hcmd, exec_queues (e.symm.trans h)⟩
      · exact ⟨w, rest, hcmd, (illegalCommand_cutShort (e.symm.trans h)).queues⟩
    obtain ⟨w, rest, hcmd, rfl, hfifo⟩ := htake
    exact ⟨fun _ => ⟨w, hcmd⟩, fun hn => absurd rfl hn, hfifo.codeIn, hfifo.byteIn, hfifo.byteOut, hfifo.codeOut⟩

end Sys2Proof.Machine
end

section
/-! SUPPORT. The instruction that a step carries out: a run's key and payload, and the step that fetches them (R75 to R82, R163). -/

namespace Sys2Proof

/-! ## A run and its bytes -/

theorem payloadLen_le (key : Byte) : payloadLen key ≤ 127 := by
  rw [payloadLen]
  split
  · exact keyCount_lt key
  · decide

/-- A key's count, as `simp` writes its low seven bits. -/
theorem toNat_mod_eq_keyCount (key : Byte) : key.toNat % 128 = keyCount key := by
  simpa using keyCount_extract key

/-- The bytes of the run that a key and its payload make are that key and that payload. -/
theorem runOf_runBytes (key : Byte) (payload : List Byte) (hlen : payload.length = payloadLen key) :
    (runOf key payload).runBytes = key :: payload := by
  have hkey := key_of_parts key
  cases hl : keyIsLit key with
  | true =>
    simp only [hl, if_true, payloadLen] at hkey hlen
    simp [runOf, hl, Instr.runBytes, encode, litBytes, hlen, ← hkey]
  | false =>
    simp only [hl, Bool.false_eq_true, if_false, payloadLen] at hkey hlen
    obtain ⟨v, rfl⟩ := List.length_eq_one_iff.1 hlen
    simp [runOf, hl, Instr.runBytes, encode, repBytes, toNat_mod_eq_keyCount, ← hkey]

/-- A run stands for as many bytes as its key's count says (R75). -/
theorem runOf_logical_length (key : Byte) (payload : List Byte) (hlen : payload.length = payloadLen key) :
    (runOf key payload).logical.length = keyCount key := by
  cases hl : keyIsLit key with
  | true =>
    simp only [payloadLen, hl, if_true] at hlen
    simp [runOf, hl, Instr.logical, hlen]
  | false => simp [runOf, hl, Instr.logical, toNat_mod_eq_keyCount]

/-- A well-formed run is made by the key and the payload of its bytes, and the key's count is not 0. -/
theorem exists_runOf (i : Instr) (hrun : i.isCommand = false) (hwf : i.wellFormed = true) :
    ∃ key payload, i = runOf key payload ∧ payload.length = payloadLen key ∧ keyCount key ≠ 0 := by
  cases i with
  | rep count v =>
    have hle : count.toNat ≤ 127 := by omega
    have hlit := keyIsLit_repKey count.toNat hle
    have hcount := keyCount_repKey count.toNat hle
    have hext : (repKey count.toNat).extractLsb' 0 7 = count :=
      BitVec.eq_of_toNat_eq ((keyCount_extract _).trans hcount)
    refine ⟨repKey count.toNat, [v], by simp [runOf, hlit, hext], by simp [payloadLen, hlit], ?_⟩
    simpa [hcount, Instr.wellFormed, ← BitVec.toNat_inj] using hwf
  | lit payload =>
    simp only [Instr.wellFormed, Bool.and_eq_true, bne_iff_ne, decide_eq_true_eq] at hwf
    obtain ⟨hpos, hle⟩ := hwf
    have hlit := keyIsLit_litKey payload.length hle
    have hcount := keyCount_litKey payload.length hle
    exact ⟨litKey payload.length, payload, by simp [runOf, hlit], by simp [payloadLen, hlit, hcount],
      by rwa [hcount]⟩
  | _ => cases hrun

/-- What a byte string decodes to is made by its first byte and the payload after it (R75 to R80). -/
theorem decodeRun_ok {bytes rest : List Byte} {i : Instr} (h : decodeRun bytes = .ok (i, rest)) :
    ∃ key payload, bytes = key :: (payload ++ rest) ∧ i = runOf key payload ∧
      payload.length = payloadLen key ∧ keyCount key ≠ 0 := by
  cases bytes with
  | nil => cases h
  | cons key tail =>
    rw [decodeRun] at h
    split_ifs at h with hcount hlen
    cases h
    exact ⟨key, tail.take (payloadLen key), by rw [List.take_append_drop], rfl,
      by rw [List.length_take]; omega, hcount⟩

/-- A table word's run has the length that its own key asks for (R78). -/
theorem tableRun_length (nbits w : Nat) :
    (tableRun nbits w).length = 1 + payloadLen ((tableRun nbits w).headD 0) := by
  have hle := payloadLen_le ((tableBytes nbits w).headD 0)
  have hall : (tableBytes nbits w).length = 128 := by simp [tableBytes, Config.maxRun]
  have hhead : (tableRun nbits w).headD 0 = (tableBytes nbits w).headD 0 := by
    rw [tableRun, Nat.add_comm]
    cases tableBytes nbits w <;> rfl
  rw [hhead, tableRun, List.length_take, hall]
  omega

end Sys2Proof

namespace Sys2Proof.Machine

/-! ## The step that fetches a run -/

/-- A run whose count fails its test raises the fault with its key, whether a repeat or a literal (R164, R165). -/
theorem exec_runOf_countFault (key : Byte) (payload : List Byte) (s : State) (c : Cause)
    (hlen : payload.length = payloadLen key) (hfault : countFault s.dec.exp (keyCount key) = some c) :
    exec (runOf key payload) s = .next (s.raise c (zext key)) := by
  have hkey := key_of_parts key
  cases hl : keyIsLit key with
  | true =>
    simp only [hl, if_true, payloadLen] at hkey hlen
    simp [runOf, hl, exec, execLit, hlen, hfault, ← hkey]
  | false =>
    simp only [hl, Bool.false_eq_true, if_false] at hkey
    simp [runOf, hl, exec, execRep, toNat_mod_eq_keyCount, hfault, ← hkey]

/-- A whole run at the head of the queue is fetched, and nothing after it, once its count passes its test (R163). -/
theorem fetchRun_run (exp : Nat) (key : Byte) (payload : List Byte) (rest : List Beat)
    (hlen : payload.length = payloadLen key) (hok : countFault exp (keyCount key) = none) :
    fetchRun exp (Beat.data key :: (payload.map Beat.data ++ rest)) =
      .run key payload (payload.map Beat.data ++ rest) rest := by
  rw [fetchRun, hok]
  simp only [← hlen, takeBytes_data]

theorem fetchRun_countFault (exp : Nat) (key : Byte) (q : List Beat) (c : Cause)
    (hfault : countFault exp (keyCount key) = some c) :
    fetchRun exp (Beat.data key :: q) = .raise c (zext key) q := by
  rw [fetchRun, hfault]

/-- With a whole run at the head of `byte_in`, the interpreter's step is that run with its key taken: a run that fits is
fetched, and one that does not raises the same fault either way. -/
theorem decodeTick_run (b : Busy) (s : State) (key : Byte) (payload : List Byte) (rest : List Beat)
    (hexp : s.dec.exp ≠ 0) (hlen : payload.length = payloadLen key)
    (hq : s.byteIn = Beat.data key :: (payload.map Beat.data ++ rest)) :
    decodeTick b s = exec (runOf key payload) (s.takeKey key) := by
  cases hfault : countFault s.dec.exp (keyCount key) with
  | none =>
    have hfetch := fetchRun_run s.dec.exp key payload rest hlen hfault
    exact decodeTick_fetched b hexp (hq ▸ hfetch)
  | some c =>
    have hfetch := fetchRun_countFault s.dec.exp key (payload.map Beat.data ++ rest) c hfault
    rw [decodeTick_raised b hexp (hq ▸ hfetch), exec_runOf_countFault key payload (s.takeKey key) c hlen hfault]
    simp [State.raise, State.takeKey, State.endCommand, hq]

/-- Between commands, the word at the head of `cmd` is carried out with itself taken (R204). -/
theorem step_command (s : State) (w : CmdWord) (rest : List CmdWord) (i : Instr) (hbusy : s.busy = none)
    (hcmd : s.cmd = w :: rest) (hdec : decodeCmd w = .ok i) : step s = exec i { s with cmd := rest } := by
  simp [step, hbusy, hcmd, hdec]

/-- Settles O17: a command word by the step's own equation, a run by what the interpreter does with a key and its payload. -/
theorem aStepRunsTheDecodedInstruction : Obligations.AStepRunsTheDecodedInstruction := by
  refine ⟨step_command, fun s b i rest hbusy hexp hrun hwf hq => ?_⟩
  obtain ⟨key, payload, rfl, hlen, -⟩ := exists_runOf i hrun hwf
  rw [runOf_runBytes key payload hlen] at hq ⊢
  rw [step_busy s b hbusy]
  exact decodeTick_run b s key payload rest hexp hlen hq

/-- A table word that is not 40 bits and decodes is exactly a run's key and payload. -/
theorem tableRun_of_decodeTableWord {nbits w : Nat} {i : Instr} (hn : nbits ≠ cmdBits)
    (h : decodeTableWord nbits w = some i) :
    ∃ key payload, tableRun nbits w = key :: payload ∧ i = runOf key payload ∧
      payload.length = payloadLen key ∧ keyCount key ≠ 0 := by
  rw [decodeTableWord, if_neg hn] at h
  split at h
  · next j rest hdec =>
    cases h
    obtain ⟨key, payload, hbytes, hi, hlen, hcount⟩ := decodeRun_ok hdec
    have hrest : rest = [] := by
      have hl := tableRun_length nbits w
      simp only [hbytes, List.length_cons, List.length_append, List.headD_cons, hlen] at hl
      exact List.eq_nil_of_length_eq_zero (by omega)
    exact ⟨key, payload, by rw [hbytes, hrest, List.append_nil], hi, hlen, hcount⟩
  · cases h

/-- A 40-bit table word that decodes is a command word. -/
theorem decodeCmd_of_decodeTableWord {w : Nat} {i : Instr} (h : decodeTableWord cmdBits w = some i) :
    decodeCmd (BitVec.ofNat 40 w) = .ok i := by
  rw [decodeTableWord, if_pos rfl] at h
  split at h
  · next j hdec => cases h; exact hdec
  · cases h

/-- Settles O18: a command word stands at the head of `cmd`; a run's key and payload stand at the head of `byte_in`, with the
decoder wanting exactly the key's count. -/
theorem aFetchWordIsTheNextInstruction : Obligations.AFetchWordIsTheNextInstruction := by
  refine ⟨fun s w i h => ?_, fun s nbits w i hn hbusy hexp h => ?_⟩
  · have hdec := decodeCmd_of_decodeTableWord h
    exact step_command (s.withFetchWord 40 w) (BitVec.ofNat 40 w) s.cmd i rfl rfl hdec
  · obtain ⟨key, payload, hbytes, rfl, hlen, hcount⟩ := tableRun_of_decodeTableWord hn h
    have hload : s.withFetchWord nbits w = { s with
        byteIn := Beat.data key :: (payload.map Beat.data ++ s.byteIn)
        busy := some .rledec
        dec := { s.dec with exp := keyCount key } } := by
      have hmax : max 1 (keyCount key) = keyCount key := by omega
      simp [State.withFetchWord, cmdBits, hn, hbytes, hbusy, hexp, hmax]
    refine ⟨(s.withFetchWord nbits w).takeKey key, ?_, ?_, ?_⟩
    · rw [hload, step_busy _ .rledec rfl]
      exact decodeTick_run _ _ key payload s.byteIn hcount hlen rfl
    · rw [hload, runOf_logical_length key payload hlen]; rfl
    · rw [hload, runOf_runBytes key payload hlen]; rfl

end Sys2Proof.Machine
end

section
/-! SUPPORT. Which bytes of a packed frame a pixel's code is read from (R54, R106). -/

namespace Sys2Proof.Machine

/-- The code of a pixel is read from the byte of its first bit and, where it straddles, from the next one; from no other. -/
theorem extractF_congr {P Q : List Byte} {i : Nat} (hfirst : P.getD (3 * i / 8) 0 = Q.getD (3 * i / 8) 0)
    (hnext : 5 < 3 * i % 8 → P.getD (3 * i / 8 + 1) 0 = Q.getD (3 * i / 8 + 1) 0) :
    extractF P i = extractF Q i := by
  by_cases hs : 3 * i % 8 ≤ 5
  · simp only [extractF, Config.codeBits, hs, if_true, hfirst]
  · simp only [extractF, Config.codeBits, hs, if_false, hfirst, hnext (by omega)]

theorem getD_set_ne (P : List Byte) (b : Byte) {j k : Nat} (h : j ≠ k) : (P.set j b).getD k 0 = P.getD k 0 := by
  rw [List.getD_eq_getElem?_getD, List.getElem?_set_ne h, List.getD_eq_getElem?_getD]

/-- Settles O5: outside the pixels of byte `j`, neither byte that the code is read from is byte `j`. -/
theorem aByteTouchesOnlyItsPixels : Obligations.AByteTouchesOnlyItsPixels := by
  intro P j b i hi
  have hfirst : j ≠ 3 * i / 8 := by omega
  have hnext : 5 < 3 * i % 8 → j ≠ 3 * i / 8 + 1 := by omega
  exact extractF_congr (getD_set_ne P b hfirst) fun hs => getD_set_ne P b (hnext hs)

end Sys2Proof.Machine
end

section
/-! SUPPORT. A command without the beats that decide its outcome waits (R62, R247). -/

namespace Sys2Proof.Machine

theorem withCodes_short (n : Nat) (s : State) (body : List Code → State → Result) (h : s.codeIn.length < n) :
    withCodes n s body = .fault .waitsForCode := by
  rw [withCodes, if_pos h]

theorem withCodes_enough (n : Nat) (s : State) (body : List Code → State → Result) (h : n ≤ s.codeIn.length) :
    withCodes n s body = body (s.codeIn.take n) { s with codeIn := s.codeIn.drop n } := by
  rw [withCodes, if_neg (by omega)]

theorem withBytes_short (n : Nat) (s : State) (body : List Byte → State → Result) (bs : List Byte)
    (hl : bs.length < n) (hq : s.byteIn = bs.map Beat.data) : withBytes n s body = .fault .waitsForByte := by
  rw [withBytes, hq, takeBytes_short n bs hl]

theorem decodeFor_wait (b : Busy) (L : Nat) (s : State) (h : rleDecF s.byteIn L = .wait) :
    decodeFor b L s = .fault .waitsForByte := by
  rw [decodeFor, h]

/-- A ready command that needs the geometry carries out its own part. -/
theorem precheck_ready (op : Byte) (s : State) (body : Result) (h : s.ready) : precheck op true s body = body :=
  precheck_pass op true s body h.1 fun _ => h.2

/-- `RLEENC` with a legal length takes its bytes (R150). -/
theorem execRleenc_legal (len : Word) (s : State) (hf : s.faulted = false) (hlen : len.toNat ≤ s.maxLen) :
    execRleenc len s = withBytes len.toNat s fun B s => .next (s.emitBytes (rleEncF B)).endCommand := by
  rw [execRleenc, precheck_pass _ _ _ _ hf (by simp), if_neg (by omega)]

/-- `RLEDEC` with a legal length decodes (R170). -/
theorem execRledec_legal (len : Word) (s : State) (hf : s.faulted = false) (hlen : len.toNat ≤ s.maxLen) :
    execRledec len s = decodeFor .rledec len.toNat s := by
  rw [execRledec, precheck_pass _ _ _ _ hf (by simp), if_neg (by omega)]

/-- Settles O8: each of the commands passes its checks and then waits where it takes its input. -/
theorem tooLittleInputWaits : Obligations.TooLittleInputWaits := by
  refine ⟨fun s hs hfew => ⟨?_, ?_⟩, fun s bs hs hq hl => ⟨?_, ?_⟩, fun s bs len hf hq hl hlen => ?_,
    fun s len hf hlen hwait => ?_, fun s hs hwait => ?_⟩
  · exact (precheck_ready opPack s _ hs).trans (withCodes_short _ _ _ hfew)
  · exact (precheck_ready opEncf s _ hs).trans (withCodes_short _ _ _ hfew)
  · exact (precheck_ready opDelta s _ hs).trans (withBytes_short _ _ _ bs hl hq)
  · exact (precheck_ready opFold s _ hs).trans (withBytes_short _ _ _ bs hl hq)
  · exact (execRleenc_legal len s hf hlen).trans (withBytes_short _ _ _ bs hl hq)
  · exact (execRledec_legal len s hf hlen).trans (decodeFor_wait _ _ _ hwait)
  · exact (precheck_ready opDecf s _ hs).trans (decodeFor_wait _ _ _ hwait)

end Sys2Proof.Machine
end

section
/-! SUPPORT. What the host appends to the input queues stays behind the beats that an enabled step takes (R61, R62): each way of
taking beats, then each operation of the commands, then every instruction and the step. -/

namespace Sys2Proof.Machine

/-! ## Taking beats from a longer queue -/

/-- The same beats taken from a queue that goes on with `more`. -/
def Taken.append (more : List Beat) : Taken → Taken
  | .got bs rest => .got bs (rest ++ more)
  | .trunc rest => .trunc (rest ++ more)
  | .wait => .wait

/-- The same run fetched from a queue that goes on with `more`. -/
def RunFetch.append (more : List Beat) : RunFetch → RunFetch
  | .run key payload afterKey rest => .run key payload (afterKey ++ more) (rest ++ more)
  | .raise c info rest => .raise c info (rest ++ more)
  | .wait => .wait

/-- The same stream decoded from a queue that goes on with `more`. -/
def Decoded.append (more : List Beat) : Decoded → Decoded
  | .done out rest => .done out (rest ++ more)
  | .raise c info rest => .raise c info (rest ++ more)
  | .wait => .wait

theorem takeBytes_append {n : Nat} {q : List Beat} (more : List Beat) (h : takeBytes n q ≠ .wait) :
    takeBytes n (q ++ more) = (takeBytes n q).append more := by
  cases e : takeBytes n q with
  | got bs rest =>
    obtain ⟨rfl, rfl⟩ := takeBytes_got n q bs rest e
    rw [List.append_assoc, takeBytes_data]; rfl
  | trunc rest =>
    obtain ⟨bs, hl, rfl⟩ := takeBytes_trunc n q rest e
    rw [List.append_assoc, List.cons_append, takeBytes_eos n bs _ hl]; rfl
  | wait => exact absurd e h

theorem fetchRun_append {exp : Nat} {q : List Beat} (more : List Beat) (h : fetchRun exp q ≠ .wait) :
    fetchRun exp (q ++ more) = (fetchRun exp q).append more := by
  match q with
  | [] => exact absurd rfl h
  | .eos :: q => rfl
  | .data key :: q =>
    rw [List.cons_append]
    rw [fetchRun] at h ⊢
    rw [fetchRun]
    cases hcount : countFault exp (keyCount key) with
    | some c => rfl
    | none =>
      simp only [hcount] at h ⊢
      cases e : takeBytes (payloadLen key) q with
      | wait => simp [e] at h
      | _ => rw [takeBytes_append more (by simp [e]), e]; rfl

theorem decLoop_append {fuel : Nat} {d : Decoder} {q : List Beat} (more : List Beat) (h : decLoop fuel d q ≠ .wait) :
    decLoop fuel d (q ++ more) = (decLoop fuel d q).append more := by
  induction fuel generalizing d q with
  | zero =>
    rw [decLoop] at h ⊢
    rw [decLoop]
    split_ifs at h ⊢
    · rfl
    · exact absurd rfl h
  | succ fuel ih =>
    rw [decLoop] at h ⊢
    rw [decLoop]
    split_ifs at h ⊢
    · rfl
    · cases e : fetchRun d.exp q with
      | wait => simp [e] at h
      | raise c info rest => rw [fetchRun_append more (by simp [e]), e]; rfl
      | run key payload afterKey rest =>
        rw [e] at h
        rw [fetchRun_append more (by simp [e]), e]
        exact ih h

theorem rleDecF_append {q : List Beat} {L : Nat} (more : List Beat) (h : rleDecF q L ≠ .wait) :
    rleDecF (q ++ more) L = (rleDecF q L).append more :=
  decLoop_append more h

/-! ## The state with more input -/

/-- What the host appends between two steps: words to `cmd`, codes to `code_in`, beats to `byte_in`. -/
structure Supply where
  words : List CmdWord
  codes : List Code
  beats : List Beat

/-- The state once the host has appended it. -/
def State.supply (s : State) (more : Supply) : State :=
  { s with cmd := s.cmd ++ more.words, codeIn := s.codeIn ++ more.codes, byteIn := s.byteIn ++ more.beats }

theorem State.supply_frame? (s : State) (more : Supply) : (s.supply more).frame? = s.frame? := rfl

theorem State.supply_dec (s : State) (more : Supply) : (s.supply more).dec = s.dec := rfl

/-- A key that is there is taken from in front of what is appended. -/
theorem State.takeKey_supply (s : State) (more : Supply) (key : Byte) (h : s.byteIn ≠ []) :
    (s.supply more).takeKey key = (s.takeKey key).supply more := by
  have hdrop : (s.byteIn ++ more.beats).drop 1 = s.byteIn.drop 1 ++ more.beats :=
    List.drop_append_of_le_length (List.length_pos_of_ne_nil h)
  rw [State.takeKey, State.supply, hdrop]
  rfl

/-- Two results, the second in a state with more input: if the first is a next state, the second is that state with the same
input appended. -/
def SameAnswer (more : Supply) (r r' : Result) : Prop := ∀ t, r = .next t → r' = .next (t.supply more)

theorem State.sendCommand_eq_supply (s : State) (w : CmdWord) : s.sendCommand w = s.supply ⟨[w], [], []⟩ := by
  simp [State.sendCommand, State.supply]

theorem State.supplyCode_eq_supply (s : State) (c : Code) : s.supplyCode c = s.supply ⟨[], [c], []⟩ := by
  simp [State.supplyCode, State.supply]

theorem State.supplyBeat_eq_supply (s : State) (b : Beat) : s.supplyBeat b = s.supply ⟨[], [], [b]⟩ := by
  simp [State.supplyBeat, State.supply]

namespace SameAnswer

variable {more : Supply} {s t : State}

theorem next : SameAnswer more (.next t) (.next (t.supply more)) := by
  rintro _ ⟨⟩; rfl

theorem fault {f : Fault} {r' : Result} : SameAnswer more (.fault f) r' := nofun

theorem ite {c : Prop} [Decidable c] {a b a' b' : Result} (ha : SameAnswer more a a') (hb : SameAnswer more b b') :
    SameAnswer more (if c then a else b) (if c then a' else b') := by
  split_ifs
  · exact ha
  · exact hb

theorem precheck {op : Byte} {need : Bool} {body body' : Result} (h : SameAnswer more body body') :
    SameAnswer more (precheck op need s body) (precheck op need (s.supply more) body') :=
  ite next (ite next h)

theorem illegalCommand {op : Byte} : SameAnswer more (illegalCommand op s) (illegalCommand op (s.supply more)) :=
  ite next next

/-- The frame store is not an input. -/
theorem withFrame {body body' : List Byte → Result} (h : ∀ f, SameAnswer more (body f) (body' f)) :
    SameAnswer more (withFrame s body) (withFrame (s.supply more) body') := by
  rw [Machine.withFrame, Machine.withFrame, State.supply_frame?]
  cases s.frame? with
  | some f => exact h f
  | none => exact fault

theorem withCodes {n : Nat} {body : List Code → State → Result}
    (h : ∀ codes u, SameAnswer more (body codes u) (body codes (u.supply more))) :
    SameAnswer more (withCodes n s body) (withCodes n (s.supply more) body) := by
  rcases withCodes_cases n s body with ⟨-, e⟩ | ⟨hn, e⟩
  · rw [e]; exact fault
  · have hn' : n ≤ (s.supply more).codeIn.length := by simp only [State.supply, List.length_append]; omega
    rw [e, withCodes_enough n _ body hn']
    simp only [State.supply, List.take_append_of_le_length hn, List.drop_append_of_le_length hn]
    exact h _ { s with codeIn := s.codeIn.drop n }

theorem withBytes {n : Nat} {body : List Byte → State → Result}
    (h : ∀ bs u, SameAnswer more (body bs u) (body bs (u.supply more))) :
    SameAnswer more (withBytes n s body) (withBytes n (s.supply more) body) := by
  rw [Machine.withBytes, Machine.withBytes]
  cases e : takeBytes n s.byteIn with
  | wait => exact fault
  | got bs rest =>
    rw [State.supply, takeBytes_append more.beats (by simp [e]), e]
    exact h bs { s with byteIn := rest }
  | trunc rest =>
    rw [State.supply, takeBytes_append more.beats (by simp [e]), e]
    exact next

theorem finishDecode {b : Busy} {out : List Byte} :
    SameAnswer more (finishDecode b out s) (finishDecode b out (s.supply more)) := by
  cases b with
  | rledec => exact next
  | decf => exact withFrame fun _ => next

theorem decodeFor {b : Busy} {L : Nat} : SameAnswer more (decodeFor b L s) (decodeFor b L (s.supply more)) := by
  rw [Machine.decodeFor, Machine.decodeFor]
  cases e : rleDecF s.byteIn L with
  | wait => exact fault
  | done out rest =>
    rw [State.supply, rleDecF_append more.beats (by simp [e]), e]
    exact finishDecode (s := { s with byteIn := rest })
  | raise c info rest =>
    rw [State.supply, rleDecF_append more.beats (by simp [e]), e]
    exact next

end SameAnswer

/-! ## Instructions and steps -/

theorem exec_supply (i : Instr) (s : State) (more : Supply) :
    SameAnswer more (exec i s) (exec i (s.supply more)) := by
  cases i with
  | rst => exact .next
  | setw => exact .precheck .next
  | seth => exact .precheck .next
  | init => exact .precheck (.ite .next .next)
  | pack => exact .precheck (.withCodes fun _ _ => .next)
  | delta => exact .precheck (.withBytes fun _ _ => .withFrame fun _ => .next)
  | rleenc => exact .precheck (.ite .next (.withBytes fun _ _ => .next))
  | encf => exact .precheck (.withCodes fun _ _ => .withFrame fun _ => .next)
  | rledec => exact .precheck (.ite .next .decodeFor)
  | fold => exact .precheck (.withBytes fun _ _ => .withFrame fun _ => .next)
  | decf => exact .precheck .decodeFor
  | extract => exact .precheck (.ite .next (.withFrame fun _ => .next))
  | unpack => exact .precheck (.withFrame fun _ => .next)
  | dump => exact .precheck (.withFrame fun _ => .next)
  | rep count v =>
    rw [exec, exec, execRep, execRep, State.supply_dec]
    cases countFault s.dec.exp count.toNat with
    | some c => exact .next
    | none => exact .withBytes fun _ _ => .next
  | lit payload =>
    rw [exec, exec, execLit, execLit, State.supply_dec]
    cases countFault s.dec.exp payload.length with
    | some c => exact .next
    | none => exact .withBytes fun _ _ => .next

theorem decodeTick_done (b : Busy) {s : State} (hexp : s.dec.exp = 0) :
    decodeTick b s = finishDecode b s.dec.wb s := by
  rw [decodeTick, if_pos hexp]

theorem decodeTick_supply (b : Busy) (s : State) (more : Supply) :
    SameAnswer more (decodeTick b s) (decodeTick b (s.supply more)) := by
  by_cases hexp : s.dec.exp = 0
  · rw [decodeTick_done b hexp, decodeTick_done (s := s.supply more) b hexp]
    exact .finishDecode
  · cases hf : fetchRun s.dec.exp s.byteIn with
    | wait => rw [decodeTick_waits b hexp hf]; exact .fault
    | raise c info rest =>
      have hf' : fetchRun s.dec.exp (s.byteIn ++ more.beats) = .raise c info (rest ++ more.beats) := by
        rw [fetchRun_append more.beats (by simp [hf]), hf]; rfl
      rw [decodeTick_raised b hexp hf, decodeTick_raised (s := s.supply more) b hexp hf']
      exact .next
    | run key payload afterKey rest =>
      have hf' : fetchRun s.dec.exp (s.byteIn ++ more.beats) =
          .run key payload (afterKey ++ more.beats) (rest ++ more.beats) := by
        rw [fetchRun_append more.beats (by simp [hf]), hf]; rfl
      have hne : s.byteIn ≠ [] := fun hnil => by simp [hnil, fetchRun] at hf
      rw [decodeTick_fetched b hexp hf, decodeTick_fetched (s := s.supply more) b hexp hf',
        State.takeKey_supply s more key hne]
      exact exec_supply (runOf key payload) (s.takeKey key) more

/-- A reserved word is taken and its fault raised (R74, R204). -/
theorem step_reserved (s : State) (w : CmdWord) (rest : List CmdWord) (e : DecodeError) (hbusy : s.busy = none)
    (hcmd : s.cmd = w :: rest) (hdec : decodeCmd w = .error e) :
    step s = illegalCommand (opOf w) { s with cmd := rest } := by
  simp [step, hbusy, hcmd, hdec]

theorem step_supply (s : State) (more : Supply) : SameAnswer more (step s) (step (s.supply more)) := by
  cases hbusy : s.busy with
  | some b =>
    rw [step_busy s b hbusy, step_busy (s.supply more) b hbusy]
    exact decodeTick_supply b s more
  | none =>
    have hsupplied : ∀ {w rest}, s.cmd = w :: rest → (s.supply more).cmd = w :: (rest ++ more.words) :=
      fun hcmd => congrArg (· ++ more.words) hcmd
    rcases step_between s hbusy with ⟨-, hstep⟩ | ⟨w, rest, i, hcmd, hdec, hstep⟩ | ⟨w, rest, e, hcmd, hdec, hstep⟩
    · rw [hstep]; exact .fault
    · rw [hstep, step_command (s.supply more) w _ i hbusy (hsupplied hcmd) hdec]
      exact exec_supply i { s with cmd := rest } more
    · rw [hstep, step_reserved (s.supply more) w _ e hbusy (hsupplied hcmd) hdec]
      exact .illegalCommand (s := { s with cmd := rest })

/-- Settles O7: the three appends are instances of one, and every operation of the model answers the same in front of it. -/
theorem laterInputDoesNotChangeAStep : Obligations.LaterInputDoesNotChangeAStep := by
  intro s t h
  simp only [State.sendCommand_eq_supply, State.supplyCode_eq_supply, State.supplyBeat_eq_supply]
  exact ⟨fun w => step_supply s _ t h, fun c => step_supply s _ t h, fun b => step_supply s _ t h⟩

end Sys2Proof.Machine
end

section
/-! SUPPORT. When an instruction has no transition (R62), and how a wait ends (R168, R247). -/

namespace Sys2Proof.Machine

/-! ## All the stops of an instruction -/

/-- Why an instruction answers a stop: too few codes, too few bytes for a frame, a buffer or a stream, or a frame that the store
has no bytes for. A run waits only inside a decoding command. -/
inductive Stops : Instr → State → Fault → Prop
  | codes {i : Instr} {s : State} (hi : i = .pack ∨ i = .encf) (hs : s.ready) (hfew : s.codeIn.length < s.npix) :
      Stops i s .waitsForCode
  | frameBytes {i : Instr} {s : State} {bs : List Byte} (hi : i = .delta ∨ i = .fold) (hs : s.ready)
      (hfew : bs.length < s.psz) (hq : s.byteIn = bs.map Beat.data) : Stops i s .waitsForByte
  | bufferBytes {len : Word} {s : State} {bs : List Byte} (hf : s.faulted = false) (hlen : len.toNat ≤ s.maxLen)
      (hfew : bs.length < len.toNat) (hq : s.byteIn = bs.map Beat.data) : Stops (.rleenc len) s .waitsForByte
  | bufferStream {len : Word} {s : State} (hf : s.faulted = false) (hlen : len.toNat ≤ s.maxLen)
      (hwait : rleDecF s.byteIn len.toNat = .wait) : Stops (.rledec len) s .waitsForByte
  | frameStream {s : State} (hs : s.ready) (hwait : rleDecF s.byteIn s.psz = .wait) : Stops .decf s .waitsForByte
  | run {i : Instr} {s : State} (hi : i.isCommand = false) : Stops i s .waitsForByte
  | noFrame {i : Instr} {s : State} (hbig : s.maxLen < s.psz) : Stops i s .noSuchFrameByte

/-- A command stops past its checks only. -/
theorem CommandAnswers.fault {op : Byte} {need : Bool} {s : State} {r : Result} {f : Fault} {own goal : Prop}
    (h : CommandAnswers op need s r own) (hr : r = .fault f)
    (hown : s.faulted = false → (need = true → s.configured = true) → own → goal) : goal := by
  rcases h with ⟨-, e⟩ | ⟨-, -, -, e⟩ | ⟨hf, hc, ho⟩
  · cases e.symm.trans hr
  · cases e.symm.trans hr
  · exact hown hf hc ho

/-- A command that takes bytes stops where they end, or by what it does with them. -/
theorem ByteAnswers.fault {n : Nat} {s : State} {r : Result} {f : Fault} {own : List Byte → List Beat → Prop} {goal : Prop}
    (h : ByteAnswers n s r own) (hr : r = .fault f)
    (hwait : ∀ bs : List Byte, bs.length < n → s.byteIn = bs.map Beat.data → f = .waitsForByte → goal)
    (hown : ∀ bs rest, own bs rest → goal) : goal := by
  rcases h with ⟨bs, hl, hq, e⟩ | ⟨bs, rest, -, -, e⟩ | ⟨bs, rest, -, -, ho⟩
  · cases e.symm.trans hr; exact hwait bs hl hq rfl
  · cases e.symm.trans hr
  · exact hown bs rest ho

/-- A decoding command stops where its stream ends, or by what it does with the bytes. -/
theorem decodeFor_fault {b : Busy} {L : Nat} {s : State} {f : Fault} {goal : Prop} (h : decodeFor b L s = .fault f)
    (hwait : rleDecF s.byteIn L = .wait → f = .waitsForByte → goal)
    (hown : ∀ out rest, finishDecode b out { s with byteIn := rest } = .fault f → goal) : goal := by
  rcases decodeFor_cases b L s with ⟨out, rest, -, e⟩ | ⟨c, info, rest, -, e⟩ | ⟨hd, e⟩
  · exact hown out rest (e.symm.trans h)
  · cases e.symm.trans h
  · cases e.symm.trans h; exact hwait hd rfl

/-- All the stops of an instruction. -/
theorem exec_fault {i : Instr} {s : State} {f : Fault} (h : exec i s = .fault f) : Stops i s f := by
  cases i with
  | rst => cases h
  | setw arg => exact (execSetw_cases arg s).fault h fun _ _ e => by cases e.symm.trans h
  | seth arg => exact (execSeth_cases arg s).fault h fun _ _ e => by cases e.symm.trans h
  | init =>
    refine (execInit_cases s).fault h fun _ _ ho => ?_
    rcases ho with ⟨-, e⟩ | ⟨-, e⟩ <;> cases e.symm.trans h
  | pack =>
    refine (execPack_cases s).fault h fun hf hc ho => ?_
    rcases ho with ⟨hfew, e⟩ | ⟨-, e⟩
    · cases e.symm.trans h; exact .codes (.inl rfl) ⟨hf, hc rfl⟩ hfew
    · cases e.symm.trans h
  | delta =>
    refine (execDelta_cases s).fault h fun hf hc hb => hb.fault h ?_ ?_
    · rintro bs hl hq rfl; exact .frameBytes (.inl rfl) ⟨hf, hc rfl⟩ hl hq
    · rintro p rest (⟨-, e⟩ | ⟨hbig, e⟩)
      · cases e.symm.trans h
      · cases e.symm.trans h; exact .noFrame hbig
  | rleenc len =>
    refine (execRleenc_cases len s).fault h fun hf _ ho => ?_
    rcases ho with ⟨-, e⟩ | ⟨hlen, hb⟩
    · cases e.symm.trans h
    · refine hb.fault h ?_ fun B rest e => by cases e.symm.trans h
      rintro bs hl hq rfl; exact .bufferBytes hf hlen hl hq
  | encf =>
    refine (execEncf_cases s).fault h fun hf hc ho => ?_
    rcases ho with ⟨hfew, e⟩ | ⟨-, -, e⟩ | ⟨-, hbig, e⟩
    · cases e.symm.trans h; exact .codes (.inr rfl) ⟨hf, hc rfl⟩ hfew
    · cases e.symm.trans h
    · cases e.symm.trans h; exact .noFrame hbig
  | rledec len =>
    refine (execRledec_cases len s).fault h fun hf _ ho => ?_
    rcases ho with ⟨-, e⟩ | ⟨hlen, e⟩
    · cases e.symm.trans h
    · refine decodeFor_fault (e.symm.trans h) ?_ fun out rest e => by cases e
      rintro hwait rfl; exact .bufferStream hf hlen hwait
  | fold =>
    refine (execFold_cases s).fault h fun hf hc hb => hb.fault h ?_ ?_
    · rintro bs hl hq rfl; exact .frameBytes (.inr rfl) ⟨hf, hc rfl⟩ hl hq
    · rintro d rest (⟨-, e⟩ | ⟨hbig, e⟩)
      · cases e.symm.trans h
      · cases e.symm.trans h; exact .noFrame hbig
  | decf =>
    refine (execDecf_cases s).fault h fun hf hc e => decodeFor_fault (e.symm.trans h) ?_ fun out rest hfin => ?_
    · rintro hwait rfl; exact .frameStream ⟨hf, hc rfl⟩ hwait
    · rcases finishDecode_decf_cases out { s with byteIn := rest } with ⟨-, e⟩ | ⟨hbig, e⟩
      · cases e.symm.trans hfin
      · cases e.symm.trans hfin; exact .noFrame hbig
  | extract px =>
    refine (execExtract_cases px s).fault h fun _ _ ho => ?_
    rcases ho with ⟨-, e⟩ | ⟨-, -, e⟩ | ⟨-, hbig, e⟩
    · cases e.symm.trans h
    · cases e.symm.trans h
    · cases e.symm.trans h; exact .noFrame hbig
  | unpack =>
    refine (execUnpack_cases s).fault h fun _ _ ho => ?_
    rcases ho with ⟨-, e⟩ | ⟨hbig, e⟩
    · cases e.symm.trans h
    · cases e.symm.trans h; exact .noFrame hbig
  | dump =>
    refine (execDump_cases s).fault h fun _ _ ho => ?_
    rcases ho with ⟨-, e⟩ | ⟨hbig, e⟩
    · cases e.symm.trans h
    · cases e.symm.trans h; exact .noFrame hbig
  | rep count v =>
    rcases execRep_cases count v s with ⟨c, -, e⟩ | ⟨-, hb⟩
    · cases e.symm.trans h
    · refine hb.fault h ?_ fun _ _ e => by cases e.symm.trans h
      rintro _ _ _ rfl; exact .run rfl
  | lit payload =>
    rcases execLit_cases payload s with ⟨c, -, e⟩ | ⟨-, hb⟩
    · cases e.symm.trans h
    · refine hb.fault h ?_ fun _ _ e => by cases e.symm.trans h
      rintro _ _ _ rfl; exact .run rfl

/-- A step between commands that stops is idle, or the stop is that of the command at the head of `cmd`. -/
theorem step_fault {s : State} {f : Fault} (hbusy : s.busy = none) (h : step s = .fault f) :
    f = .idle ∧ s.cmd = [] ∨
      ∃ w rest i, s.cmd = w :: rest ∧ decodeCmd w = .ok i ∧ Stops i { s with cmd := rest } f := by
  rcases step_between s hbusy with ⟨hcmd, e⟩ | ⟨w, rest, i, hcmd, hdec, e⟩ | ⟨w, rest, -, -, -, e⟩
  · cases e.symm.trans h; exact .inl ⟨rfl, hcmd⟩
  · exact .inr ⟨w, rest, i, hcmd, hdec, exec_fault (e.symm.trans h)⟩
  · rcases illegalCommand_cases (opOf w) { s with cmd := rest } with ⟨-, e'⟩ | ⟨-, e'⟩ <;>
      cases (e.symm.trans h).symm.trans e'

/-! ## An `Eos` ends a wait for bytes -/

theorem withBytes_eos (n : Nat) (s : State) (body : List Byte → State → Result) (bs : List Byte) (rest : List Beat)
    (hl : bs.length < n) (hq : s.byteIn = bs.map Beat.data ++ Beat.eos :: rest) :
    withBytes n s body = .next ({ s with byteIn := rest }.raise .trunc 0) := by
  rw [withBytes, hq, takeBytes_eos n bs rest hl]

theorem decodeFor_raise (b : Busy) {L : Nat} {s : State} {c : Cause} {info : Word} {rest : List Beat}
    (h : rleDecF s.byteIn L = .raise c info rest) :
    decodeFor b L s = .next ({ s with byteIn := rest }.raise c info) := by
  rw [decodeFor, h]

/-- A run that was fetched has its whole payload, and its count passed its test. -/
theorem fetchRun_eq_run {exp : Nat} {q : List Beat} {key : Byte} {payload : List Byte} {afterKey rest : List Beat}
    (h : fetchRun exp q = .run key payload afterKey rest) :
    countFault exp (keyCount key) = none ∧ payload.length = payloadLen key ∧
      q = Beat.data key :: (payload.map Beat.data ++ rest) := by
  match q with
  | [] => cases h
  | .eos :: q => cases h
  | .data k :: q =>
    rw [fetchRun] at h
    cases hcount : countFault exp (keyCount k) with
    | some c => simp [hcount] at h
    | none =>
      cases ht : takeBytes (payloadLen k) q with
      | got bs left =>
        simp only [hcount, ht] at h
        cases h
        obtain ⟨hlen, hq⟩ := takeBytes_got _ _ _ _ ht
        exact ⟨hcount, hlen, by rw [hq]⟩
      | trunc left => simp [hcount, ht] at h
      | wait => simp [hcount, ht] at h

/-- A fetch that waits is truncated by an `Eos` instead: neither the key nor the payload was all there. -/
theorem fetchRun_eos {exp : Nat} {q : List Beat} (h : fetchRun exp q = .wait) :
    fetchRun exp (q ++ [.eos]) = .raise .trunc 0 [] := by
  match q with
  | [] => rfl
  | .eos :: q => cases h
  | .data key :: q =>
    rw [fetchRun] at h
    rw [List.cons_append, fetchRun]
    cases hcount : countFault exp (keyCount key) with
    | some c => simp [hcount] at h
    | none =>
      cases ht : takeBytes (payloadLen key) q with
      | got bs left => simp [hcount, ht] at h
      | trunc left => simp [hcount, ht] at h
      | wait =>
        obtain ⟨bs, hl, rfl⟩ := takeBytes_wait _ _ ht
        simp only [takeBytes_eos _ bs [] hl]

/-- A whole run leaves as many bytes wanted fewer as its key's count says (R166, R167). -/
theorem applyRun_exp {key : Byte} {payload : List Byte} (d : Decoder) (hlen : payload.length = payloadLen key) :
    (applyRun key payload d).exp = d.exp - keyCount key := by
  cases hl : keyIsLit key with
  | true =>
    simp only [payloadLen, hl, if_true] at hlen
    simp [applyRun, hl, litRun, hlen]
  | false => simp [applyRun, hl, repRun]

theorem countFault_eq_none {exp count : Nat} (h : countFault exp count = none) : 1 ≤ count ∧ count ≤ exp := by
  rcases countFault_cases exp count with ⟨-, e⟩ | ⟨-, -, e⟩ | ⟨hpos, hle, -⟩
  · cases e.symm.trans h
  · cases e.symm.trans h
  · exact ⟨hpos, hle⟩

/-- A decoder that wants no more bytes is done. -/
theorem decLoop_wait_exp {fuel : Nat} {d : Decoder} {q : List Beat} (h : decLoop fuel d q = .wait) : d.exp ≠ 0 :=
  fun hexp => by rw [decLoop_zero_exp fuel d q hexp] at h; cases h

/-- With fuel for every byte wanted, the decoder waits only for beats, so an `Eos` truncates it. -/
theorem decLoop_eos {fuel : Nat} {d : Decoder} {q : List Beat} (hfuel : d.exp ≤ fuel) (h : decLoop fuel d q = .wait) :
    decLoop fuel d (q ++ [.eos]) = .raise .trunc 0 [] := by
  have hexp := decLoop_wait_exp h
  induction fuel generalizing d q with
  | zero => exact absurd (Nat.le_zero.1 hfuel) hexp
  | succ fuel ih =>
    rw [decLoop, if_neg hexp] at h ⊢
    cases hf : fetchRun d.exp q with
    | wait => rw [fetchRun_eos hf]
    | raise c info rest => simp [hf] at h
    | run key payload afterKey rest =>
      obtain ⟨hcount, hlen, -⟩ := fetchRun_eq_run hf
      obtain ⟨hpos, -⟩ := countFault_eq_none hcount
      have hless : (applyRun key payload d).exp ≤ fuel := by rw [applyRun_exp d hlen]; omega
      rw [hf] at h
      rw [fetchRun_append [.eos] (by simp [hf]), hf]
      exact ih hless h (decLoop_wait_exp h)

theorem rleDecF_eos {q : List Beat} {L : Nat} (h : rleDecF q L = .wait) : rleDecF (q ++ [.eos]) L = .raise .trunc 0 [] :=
  decLoop_eos (d := Decoder.start L) le_rfl h

/-- A command that waits for a byte is truncated by an `Eos`, which is the last beat taken. -/
theorem Stops.exec_supplyBeat_eos {i : Instr} {s : State} (h : Stops i s .waitsForByte) (hi : i.isCommand = true) :
    exec i (s.supplyBeat .eos) = .next ({ s with byteIn := [] }.raise .trunc 0) := by
  cases h with
  | frameBytes hcmd hs hfew hq =>
    have hq' := congrArg (· ++ [Beat.eos]) hq
    rcases hcmd with rfl | rfl
    · exact (precheck_ready opDelta (s.supplyBeat .eos) _ hs).trans (withBytes_eos _ _ _ _ [] hfew hq')
    · exact (precheck_ready opFold (s.supplyBeat .eos) _ hs).trans (withBytes_eos _ _ _ _ [] hfew hq')
  | bufferBytes hf hlen hfew hq =>
    have hq' := congrArg (· ++ [Beat.eos]) hq
    exact (execRleenc_legal _ (s.supplyBeat .eos) hf hlen).trans (withBytes_eos _ _ _ _ [] hfew hq')
  | bufferStream hf hlen hwait =>
    exact (execRledec_legal _ (s.supplyBeat .eos) hf hlen).trans (decodeFor_raise _ (rleDecF_eos hwait))
  | frameStream hs hwait =>
    exact (precheck_ready opDecf (s.supplyBeat .eos) _ hs).trans (decodeFor_raise _ (rleDecF_eos hwait))
  | run hrun => rw [hi] at hrun; cases hrun

/-! ## Enough codes end a wait for codes -/

/-- With `NPIX` codes there, a ready command that takes codes completes. -/
theorem exec_codes_enough {i : Instr} {s : State} (hi : i = .pack ∨ i = .encf) (hs : s.ready) (hfits : s.fits)
    (henough : s.npix ≤ s.codeIn.length) : ∃ t, exec i s = .next t ∧ t.faulted = false := by
  rcases hi with rfl | rfl
  · exact ⟨_, (precheck_ready opPack s _ hs).trans (withCodes_enough _ _ _ henough), hs.1⟩
  · exact ⟨_, (precheck_ready opEncf s _ hs).trans ((withCodes_enough _ _ _ henough).trans (withFrame_fits _ _ hfits)), hs.1⟩

/-- Settles O9: the step that waits is that of the command at the head of `cmd`, and so is the step with more input. -/
theorem aWaitEndsWhenInputComes : Obligations.AWaitEndsWhenInputComes := by
  intro s hinv
  obtain ⟨-, -, -, hbusy⟩ := hinv.between
  refine ⟨fun h => ?_, fun h cs henough => ?_⟩
  · rcases step_fault hbusy h with ⟨hidle, -⟩ | ⟨w, rest, i, hcmd, hdec, hstop⟩
    · cases hidle
    · exact ⟨_, (step_command (s.supplyBeat .eos) w rest i hbusy hcmd hdec).trans
        (hstop.exec_supplyBeat_eos (decodeCmd_isCommand w i hdec)), raise_faultCode _ _ _, rfl⟩
  · rcases step_fault hbusy h with ⟨hidle, -⟩ | ⟨w, rest, i, hcmd, hdec, hstop⟩
    · cases hidle
    · cases hstop with
      | codes hi hs =>
        have hfits : s.fits := configuredOk_fits s hinv.configuredOk hs.2
        rw [step_command { s with codeIn := s.codeIn ++ cs } w rest i hbusy hcmd hdec]
        exact exec_codes_enough hi hs hfits henough

end Sys2Proof.Machine
end

section
/-! SUPPORT. The decoder and the encoder as inverses of each other (R70 to R82): what a command word decodes to, and what the
bytes of a run decode to. -/

namespace Sys2Proof

/-! ## Command words -/

/-- The operand of an instruction that its command word carries in `arg` (R72, R73). -/
def Instr.operand : Instr → Option Word
  | .setw arg | .seth arg => some arg
  | .rleenc len | .rledec len => some len
  | .extract i => some i
  | .rst | .init | .pack | .delta | .encf | .fold | .decf | .unpack | .dump => none
  | .rep _ _ | .lit _ => none

theorem decodeCmd_cmdWord_of_find {op : Byte} {arg : Word} {i : Instr}
    (h : (opcodeTable.find? fun row => row.1 == op).map (fun row => row.2 arg) = some i) :
    decodeCmd (cmdWord op arg) = .ok i := by
  obtain ⟨row, hfind, rfl⟩ := Option.map_eq_some_iff.1 h
  simp [decodeCmd, hfind]

/-- A command word decodes to the instruction of its opcode whose operand, where it has one, is `arg` (R71 to R73). -/
theorem decodeCmd_cmdWord_iff {op : Byte} {arg : Word} {i : Instr} :
    decodeCmd (cmdWord op arg) = .ok i ↔ i.opcode = some op ∧ i.operand.getD arg = arg := by
  constructor
  · intro h
    obtain ⟨row, hrow, hop, rfl⟩ := decodeCmd_ok _ i h
    rw [opOf_cmdWord] at hop
    subst hop
    rw [argOf_cmdWord]
    fin_cases hrow <;> exact ⟨rfl, rfl⟩
  · rintro ⟨hop, harg⟩
    apply decodeCmd_cmdWord_of_find
    rw [← harg]
    cases i <;> cases hop <;> rfl

/-- A command without an operand ignores `arg` (R72). -/
theorem decodeCmd_of_operand_none {op : Byte} {i : Instr} (hop : i.opcode = some op) (hnone : i.operand = none)
    (arg : Word) : decodeCmd (cmdWord op arg) = .ok i :=
  decodeCmd_cmdWord_iff.2 ⟨hop, by rw [hnone, Option.getD_none]⟩

/-- A command with an operand has `arg` for it, as it stands (R72). -/
theorem decodeCmd_of_operand_some {op : Byte} {arg : Word} {i : Instr} (hop : i.opcode = some op)
    (hsome : i.operand = some arg) : decodeCmd (cmdWord op arg) = .ok i :=
  decodeCmd_cmdWord_iff.2 ⟨hop, by rw [hsome, Option.getD_some]⟩

theorem decodeCmd_iff {w : CmdWord} {i : Instr} :
    decodeCmd w = .ok i ↔ i.opcode = some (opOf w) ∧ i.operand.getD (argOf w) = argOf w := by
  rw [← decodeCmd_cmdWord_iff, cmdWord_fields]

/-- A command is written as its opcode and its operand, and with `arg = 0` where it has none (R71, R85). -/
theorem encode_of_isCommand {i : Instr} (h : i.isCommand = true) :
    ∃ op, i.opcode = some op ∧ encode i = .cmd (cmdWord op (i.operand.getD 0)) := by
  cases i with
  | rep | lit => cases h
  | _ => exact ⟨_, rfl, rfl⟩

/-- The word that encodes a command carries its opcode and decodes to it. -/
theorem decodeCmd_encode {i : Instr} (h : i.isCommand = true) :
    ∃ w, encode i = .cmd w ∧ decodeCmd w = .ok i ∧ i.opcode = some (opOf w) := by
  obtain ⟨op, hop, henc⟩ := encode_of_isCommand h
  have harg : i.operand.getD (i.operand.getD 0) = i.operand.getD 0 := by cases i.operand <;> rfl
  exact ⟨_, henc, decodeCmd_cmdWord_iff.2 ⟨hop, harg⟩, by rw [opOf_cmdWord, hop]⟩

/-- A decoded command is written back as its word, or with `arg = 0` where it ignores `arg` (R72). -/
theorem encode_decodeCmd {w : CmdWord} {i : Instr} (h : decodeCmd w = .ok i) :
    encode i = .cmd w ∨
      encode i = .cmd (cmdWord (opOf w) 0) ∧ ∀ arg, decodeCmd (cmdWord (opOf w) arg) = .ok i := by
  obtain ⟨hop, harg⟩ := decodeCmd_iff.1 h
  obtain ⟨op, hop', henc⟩ := encode_of_isCommand (decodeCmd_isCommand w i h)
  obtain rfl : op = opOf w := Option.some.inj (hop'.symm.trans hop)
  cases hoperand : i.operand with
  | none =>
    rw [hoperand] at henc
    exact .inr ⟨henc, decodeCmd_of_operand_none hop hoperand⟩
  | some a =>
    rw [hoperand] at henc harg
    obtain rfl : a = argOf w := harg
    rw [Option.getD_some, cmdWord_fields] at henc
    exact .inl henc

theorem wellFormed_of_isCommand {i : Instr} (h : i.isCommand = true) : i.wellFormed = true := by
  cases i with
  | rep | lit => cases h
  | _ => rfl

/-- The words that decode are those whose `op` is in the opcode map (R73). -/
theorem decodeCmd_of_mem_opcodes {w : CmdWord} (h : opOf w ∈ opcodes) : ∃ i, decodeCmd w = .ok i := by
  cases hdec : decodeCmd w with
  | ok i => exact ⟨i, rfl⟩
  | error e => exact absurd h (decodeCmd_error w e hdec).1

theorem decodeCmd_of_notMem_opcodes {w : CmdWord} (h : opOf w ∉ opcodes) :
    decodeCmd w = .error (.reservedOpcode (opOf w)) := by
  cases hdec : decodeCmd w with
  | ok i =>
    obtain ⟨row, hrow, hop, -⟩ := decodeCmd_ok w i hdec
    exact absurd (List.mem_map.2 ⟨row, hrow, hop⟩) h
  | error e => rw [(decodeCmd_error w e hdec).2]

/-! ## Runs -/

theorem encode_of_run {i : Instr} (h : i.isCommand = false) : encode i = .run i.runBytes := by
  cases i with
  | rep | lit => rfl
  | _ => cases h

@[simp] theorem runOf_isCommand (key : Byte) (payload : List Byte) : (runOf key payload).isCommand = false := by
  rw [runOf]
  split <;> rfl

theorem lit_wellFormed_iff {payload : List Byte} :
    (Instr.lit payload).wellFormed = true ↔ payload.length ≠ 0 ∧ payload.length ≤ 127 := by
  simp only [Instr.wellFormed, Bool.and_eq_true, bne_iff_ne, decide_eq_true_eq]
  exact Iff.rfl

/-- A key with a count and its payload make a well-formed run (R75). -/
theorem runOf_wellFormed {key : Byte} {payload : List Byte} (hlen : payload.length = payloadLen key)
    (hcount : keyCount key ≠ 0) : (runOf key payload).wellFormed = true := by
  cases hl : keyIsLit key with
  | true =>
    have hle : payload.length ≤ 127 := hlen ▸ payloadLen_le key
    have hpos : payload.length ≠ 0 := by simpa [hlen, payloadLen, hl] using hcount
    rw [runOf, if_pos hl]
    exact lit_wellFormed_iff.2 ⟨hpos, hle⟩
  | false =>
    have hne : key.extractLsb' 0 7 ≠ 0 := fun h => hcount (by rw [← keyCount_extract, h]; rfl)
    simpa [runOf, hl, Instr.wellFormed] using hne

/-- A key with a count and its payload decode to their run, and the bytes after them are left (R75 to R78). -/
theorem decodeRun_cons {key : Byte} {payload : List Byte} (hlen : payload.length = payloadLen key)
    (hcount : keyCount key ≠ 0) (rest : List Byte) :
    decodeRun (key :: (payload ++ rest)) = .ok (runOf key payload, rest) := by
  simp [decodeRun, hcount, ← hlen]

/-- A key with count 0 is reserved, whatever follows it (R80). -/
theorem decodeRun_reservedKey {key : Byte} (h : keyCount key = 0) (rest : List Byte) :
    decodeRun (key :: rest) = .error (.reservedKey key) := by
  rw [decodeRun, if_pos h]

/-- A run's bytes decode to it, and the bytes after them are left. -/
theorem decodeRun_runBytes {i : Instr} (hrun : i.isCommand = false) (hwf : i.wellFormed = true) (rest : List Byte) :
    decodeRun (i.runBytes ++ rest) = .ok (i, rest) := by
  obtain ⟨key, payload, rfl, hlen, hcount⟩ := exists_runOf i hrun hwf
  rw [runOf_runBytes key payload hlen]
  exact decodeRun_cons hlen hcount rest

/-- A byte string that decodes is the bytes of a well-formed run and the rest. -/
theorem runBytes_of_decodeRun {bytes rest : List Byte} {i : Instr} (h : decodeRun bytes = .ok (i, rest)) :
    i.wellFormed = true ∧ i.isCommand = false ∧ bytes = i.runBytes ++ rest := by
  obtain ⟨key, payload, rfl, rfl, hlen, hcount⟩ := decodeRun_ok h
  exact ⟨runOf_wellFormed hlen hcount, runOf_isCommand key payload, by rw [runOf_runBytes key payload hlen]; rfl⟩

/-- The encoding of an instruction, taken as one item (R70), decodes to it with nothing left. -/
theorem decode_encode {i : Instr} (hwf : i.wellFormed = true) : decode (encode i) = .ok (i, []) := by
  cases hcmd : i.isCommand with
  | true =>
    obtain ⟨w, henc, hdec, -⟩ := decodeCmd_encode hcmd
    rw [henc, decode, hdec]
    rfl
  | false =>
    rw [encode_of_run hcmd, decode, ← List.append_nil i.runBytes]
    exact decodeRun_runBytes hcmd hwf []

/-! ## The key byte -/

/-- A key from 0x01 to 0x7F is the first byte of the repeat run with the key as its count (R79, R82). -/
theorem rep_runBytes_of_key {key : Byte} (hhigh : key ≤ 0x7F) (v : Byte) :
    (Instr.rep (BitVec.ofNat 7 key.toNat) v).runBytes = [key, v] := by
  have hlt : key.toNat < 128 := Nat.lt_succ_of_le hhigh
  simp [Instr.runBytes, encode, repBytes, repKey, Nat.mod_eq_of_lt hlt]

theorem litKey_sub_flag {key : Byte} (hlow : 0x81 ≤ key) : litKey (key.toNat - 0x80) = key := by
  revert key
  decide +kernel

/-- A key from 0x81 is the first byte of the literal run with `key - 0x80` payload bytes (R79, R82). -/
theorem lit_runBytes_of_key {key : Byte} (hlow : 0x81 ≤ key) {payload : List Byte}
    (hlen : payload.length = key.toNat - 0x80) : (Instr.lit payload).runBytes = key :: payload := by
  simp [Instr.runBytes, encode, litBytes, hlen, litKey_sub_flag hlow]

end Sys2Proof

namespace Sys2Proof.Machine

/-- Settles O11: a command by its opcode and operand, a run by its key and payload. -/
theorem decodeOfEncodeIsTheInstruction : Obligations.DecodeOfEncodeIsTheInstruction :=
  fun _ hwf => ⟨decode_encode hwf, decodeCmd_encode, fun hrun => decodeRun_runBytes hrun hwf⟩

/-- Settles O12: a word is its fields, of which a command without an operand keeps `op` only; a run keeps its bytes. -/
theorem encodeOfDecodeIsTheWord : Obligations.EncodeOfDecodeIsTheWord := by
  refine ⟨fun w i h => ?_, fun _ _ _ => runBytes_of_decodeRun⟩
  have hcmd := decodeCmd_isCommand w i h
  exact ⟨wellFormed_of_isCommand hcmd, hcmd, encode_decodeCmd h⟩

/-- A reserved word taken between commands by an unfaulted block raises `ILLCMD` with its `op` (R74). -/
theorem step_raises_illcmd {s : State} {w : CmdWord} {rest : List CmdWord} (hbusy : s.busy = none)
    (hf : s.faulted = false) (hcmd : s.cmd = w :: rest) (hop : opOf w ∉ opcodes) :
    step s = .next ({ s with cmd := rest }.raise .illcmd (zext (opOf w))) := by
  rw [step_reserved s w rest _ hbusy hcmd (decodeCmd_of_notMem_opcodes hop)]
  rcases illegalCommand_cases (opOf w) { s with cmd := rest } with ⟨hf', -⟩ | ⟨-, e⟩
  · cases hf.symm.trans hf'
  · exact e

/-- Settles O13: the opcodes are counted, and what is outside the map neither decodes nor is carried out. -/
theorem reservedOpcodesAreIllegal : Obligations.ReservedOpcodesAreIllegal := by
  refine ⟨by decide +kernel, by decide, fun _ => decodeCmd_of_mem_opcodes, fun _ => decodeCmd_of_notMem_opcodes, ?_⟩
  intro s w rest hbusy hf hcmd hop
  exact ⟨_, step_raises_illcmd hbusy hf hcmd hop, rfl, raise_faultCode _ _ _, rfl⟩

/-- Settles O14: each command word by its `op` and `arg`, each run by its key and payload. -/
theorem wordsOfTheSpecDecode : Obligations.WordsOfTheSpecDecode :=
  ⟨decodeCmd_iff.2 (by decide), decodeCmd_iff.2 (by decide), decodeCmd_iff.2 (by decide), decodeCmd_iff.2 (by decide),
    decodeCmd_iff.2 (by decide), decodeCmd_iff.2 (by decide), decodeCmd_iff.2 (by decide),
    decodeRun_runBytes (i := .rep 5 0x05) rfl rfl [], decodeRun_runBytes (i := .lit [0x09, 0x09]) rfl rfl []⟩

/-- Settles O15: an instruction without an operand has the words of its opcode with every `arg`; one with an operand has the
word with that `arg`. -/
theorem unusedArgIsIgnored : Obligations.UnusedArgIsIgnored := by
  intro arg arg'
  refine ⟨fun op hop => ?_, ?_⟩
  · have hcommand : ∃ i : Instr, i.opcode = some op ∧ i.operand = none := by
      fin_cases hop
      exacts [⟨.rst, rfl, rfl⟩, ⟨.init, rfl, rfl⟩, ⟨.pack, rfl, rfl⟩, ⟨.delta, rfl, rfl⟩, ⟨.encf, rfl, rfl⟩,
        ⟨.fold, rfl, rfl⟩, ⟨.decf, rfl, rfl⟩, ⟨.unpack, rfl, rfl⟩, ⟨.dump, rfl, rfl⟩]
    obtain ⟨i, hopcode, hnone⟩ := hcommand
    rw [decodeCmd_of_operand_none hopcode hnone arg, decodeCmd_of_operand_none hopcode hnone arg']
  · exact ⟨decodeCmd_of_operand_some rfl rfl, decodeCmd_of_operand_some rfl rfl, decodeCmd_of_operand_some rfl rfl,
      decodeCmd_of_operand_some rfl rfl, decodeCmd_of_operand_some rfl rfl⟩

/-- Settles O16: a key outside the reserved two is the first byte of a well-formed run's bytes. -/
theorem keyByteMap : Obligations.KeyByteMap := by
  refine fun key rest => ⟨?_, fun ⟨hlow, hhigh⟩ v => ?_, fun hlow payload hlen => ?_⟩
  · rintro (rfl | rfl)
    · exact decodeRun_reservedKey rfl rest
    · exact decodeRun_reservedKey rfl rest
  · have hwf : (Instr.rep (BitVec.ofNat 7 key.toNat) v).wellFormed = true := by
      simp only [Instr.wellFormed, bne_iff_ne]
      bv_omega
    have hdec := decodeRun_runBytes rfl hwf rest
    rwa [rep_runBytes_of_key hhigh] at hdec
  · have hflag : 0x81 ≤ key.toNat := hlow
    have hwf : (Instr.lit payload).wellFormed = true := lit_wellFormed_iff.2 (by omega)
    have hdec := decodeRun_runBytes rfl hwf rest
    rwa [lit_runBytes_of_key hlow hlen] at hdec

end Sys2Proof.Machine
end

section
/-! SUPPORT. A list of words read as one stream of bits, least significant first, and as the number whose binary digits that
stream is (R51, R101, R102). A frame's codes and its packed bytes are the same stream, cut into threes and into eights. -/

namespace Sys2Proof.Machine

variable {w : Nat}

/-! ## The bit stream of a list of words -/

/-- Bit `o` of a list of `w`-bit words, the first word's bit 0 first; 0 beyond the list (R51). -/
def bitAt (L : List (BitVec w)) (o : Nat) : Bool := (L.getD (o / w) 0).getLsbD (o % w)

@[simp] theorem bitAt_nil (o : Nat) : bitAt ([] : List (BitVec w)) o = false := by simp [bitAt]

/-- The bits of word `i` start at offset `w * i`. -/
theorem bitAt_mul_add (L : List (BitVec w)) (i : Nat) {k : Nat} (hk : k < w) :
    bitAt L (w * i + k) = (L.getD i 0).getLsbD k := by
  rw [bitAt, Nat.mul_add_div (by omega), Nat.div_eq_of_lt hk, Nat.mul_add_mod, Nat.mod_eq_of_lt hk, Nat.add_zero]

theorem bitAt_cons (hw : 0 < w) (b : BitVec w) (L : List (BitVec w)) (o : Nat) :
    bitAt (b :: L) o = if o < w then b.getLsbD o else bitAt L (o - w) := by
  split_ifs with ho
  · simp [bitAt, Nat.div_eq_of_lt ho, Nat.mod_eq_of_lt ho]
  · rw [bitAt, Nat.div_eq_sub_div hw (by omega), Nat.mod_eq_sub_mod (by omega), List.getD_cons_succ, bitAt]

theorem bitAt_append (hw : 0 < w) (L M : List (BitVec w)) (o : Nat) :
    bitAt (L ++ M) o = if o < w * L.length then bitAt L o else bitAt M (o - w * L.length) := by
  induction L generalizing o with
  | nil => simp
  | cons b L ih =>
    have hlen : w * (b :: L).length = w + w * L.length := by rw [List.length_cons]; ring
    rw [List.cons_append, bitAt_cons hw, bitAt_cons hw, ih, hlen]
    by_cases hhead : o < w
    · rw [if_pos hhead, if_pos hhead, if_pos (by omega)]
    · simp only [hhead, if_false, Nat.sub_sub, Nat.sub_lt_iff_lt_add (Nat.le_of_not_lt hhead), Nat.add_comm]

/-- Beyond its words the stream is 0. -/
theorem bitAt_of_le (hw : 0 < w) (L : List (BitVec w)) {o : Nat} (ho : w * L.length ≤ o) : bitAt L o = false := by
  have hword : L.length ≤ o / w := (Nat.le_div_iff_mul_le hw).2 (by rwa [Nat.mul_comm])
  rw [bitAt, List.getD_eq_default _ _ hword]
  exact BitVec.getLsbD_zero

@[simp] theorem bitAt_replicate_zero (n o : Nat) : bitAt (List.replicate n (0 : BitVec w)) o = false := by
  rw [bitAt, List.getD_eq_getElem?_getD, List.getElem?_replicate]
  split_ifs <;> simp

/-- Lists of one length with the same bit stream are equal. -/
theorem eq_of_bitAt {L M : List (BitVec w)} (hlen : L.length = M.length) (h : ∀ o, bitAt L o = bitAt M o) : L = M := by
  refine List.ext_getElem hlen fun i hL hM => BitVec.eq_of_getLsbD_eq fun k hk => ?_
  have hbit := h (w * i + k)
  rwa [bitAt_mul_add L i hk, bitAt_mul_add M i hk, List.getD_eq_getElem _ _ hL, List.getD_eq_getElem _ _ hM] at hbit

/-! ## The number that the bits spell -/

/-- The words as the little-endian digits, to base `2^w`, of one number (R102). -/
def natOf (L : List (BitVec w)) : Nat := Nat.ofDigits (2 ^ w) (L.map BitVec.toNat)

@[simp] theorem natOf_nil : natOf ([] : List (BitVec w)) = 0 := rfl

theorem natOf_cons (b : BitVec w) (L : List (BitVec w)) : natOf (b :: L) = 2 ^ w * natOf L + b.toNat := by
  rw [natOf, List.map_cons, Nat.ofDigits_cons, Nat.add_comm, natOf]

theorem natOf_concat (L : List (BitVec w)) (b : BitVec w) :
    natOf (L ++ [b]) = natOf L + 2 ^ (w * L.length) * b.toNat := by
  rw [natOf, List.map_append, Nat.ofDigits_append, List.length_map, ← Nat.pow_mul, List.map_singleton,
    Nat.ofDigits_singleton, natOf]

theorem natOf_eq_sum (L : List (BitVec w)) : natOf L = (L.mapIdx fun i b => b.toNat * (2 ^ w) ^ i).sum := by
  rw [natOf, Nat.ofDigits_eq_sum_mapIdx]
  congr 1
  exact List.ext_getElem (by simp) (by simp)

theorem natOf_testBit (hw : 0 < w) (L : List (BitVec w)) (o : Nat) : (natOf L).testBit o = bitAt L o := by
  induction L generalizing o with
  | nil => simp
  | cons b L ih => rw [natOf_cons, Nat.testBit_two_pow_mul_add _ b.isLt, bitAt_cons hw, ih, BitVec.getLsbD]

/-- The number says the whole stream, even between words of different widths. -/
theorem natOf_eq_iff {v : Nat} (hw : 0 < w) (hv : 0 < v) (L : List (BitVec w)) (M : List (BitVec v)) :
    natOf L = natOf M ↔ ∀ o, bitAt L o = bitAt M o := by
  simp only [← natOf_testBit hw, ← natOf_testBit hv]
  exact ⟨fun h o => h ▸ rfl, Nat.eq_of_testBit_eq⟩

theorem natOf_lt (L : List (BitVec w)) : natOf L < 2 ^ (w * L.length) := by
  induction L with
  | nil => simp
  | cons b L ih =>
    have hb := b.isLt
    rw [natOf_cons, List.length_cons, Nat.mul_succ, Nat.pow_add]
    nlinarith

end Sys2Proof.Machine
end

section
/-! SUPPORT. `PackF` re-cuts the stream of its codes into bytes (R101, R102): one pixel's write, then the loop. -/

namespace Sys2Proof.Machine

theorem bitAt_orByte (P : List Byte) {j : Nat} (b : Byte) (hj : j < P.length) (o : Nat) :
    bitAt (orByte P j b) o = (bitAt P o || (decide (o / 8 = j) && b.getLsbD (o % 8))) := by
  rw [bitAt, orByte_getD P j _ b hj, bitAt]
  split_ifs with h <;> simp [h]

/-- A code that lies within one byte (R101). -/
theorem packAt_within (P : List Byte) {i : Nat} (c : Code) (hs : 3 * i % 8 ≤ 5) :
    packAt P i c = orByte P (3 * i / 8) (c.setWidth 8 <<< (3 * i % 8)) :=
  if_neg (Nat.not_lt.2 hs)

/-- A code that straddles two bytes (R101). -/
theorem packAt_straddling (P : List Byte) {i : Nat} (c : Code) (hs : 5 < 3 * i % 8) :
    packAt P i c = orByte (orByte P (3 * i / 8) (c.setWidth 8 <<< (3 * i % 8))) (3 * i / 8 + 1)
      (c.setWidth 8 >>> (8 - 3 * i % 8)) :=
  if_pos hs

/-- The part of a code that its first byte takes: shifted up to the code's bit offset. -/
theorem getLsbD_codeShiftLeft (c : Code) {i o : Nat} (ho : o / 8 = 3 * i / 8) :
    (c.setWidth 8 <<< (3 * i % 8)).getLsbD (o % 8) = (decide (3 * i ≤ o) && c.getLsbD (o - 3 * i)) := by
  have hbyte : o % 8 < 8 := Nat.mod_lt _ (by decide)
  have hoff : o % 8 < 3 * i % 8 ↔ ¬ 3 * i ≤ o := by omega
  have hsub : o % 8 - 3 * i % 8 = o - 3 * i := by omega
  have hlt : o - 3 * i < 8 := by omega
  simp only [BitVec.getLsbD_shiftLeft, BitVec.getLsbD_setWidth, hbyte, hoff, hsub, hlt, decide_true, decide_not,
    Bool.not_not, Bool.true_and]

/-- The part of a straddling code that the next byte takes: the bits that were shifted out of the first. -/
theorem getLsbD_codeShiftRight (c : Code) {i o : Nat} (ho : o / 8 = 3 * i / 8 + 1) :
    (c.setWidth 8 >>> (8 - 3 * i % 8)).getLsbD (o % 8) = (decide (3 * i ≤ o) && c.getLsbD (o - 3 * i)) := by
  have hle : 3 * i ≤ o := by omega
  have hadd : 8 - 3 * i % 8 + o % 8 = o - 3 * i := by omega
  rw [BitVec.getLsbD_ushiftRight, hadd, BitVec.getLsbD_setWidth, decide_eq_true hle]
  by_cases hlt : o - 3 * i < 8
  · simp [hlt]
  · simp [hlt, BitVec.getLsbD_of_ge c (o - 3 * i) (by omega)]

/-- No bit of a code lies outside the bytes that it is written to. -/
theorem code_bit_outside (c : Code) {i o : Nat} (hfirst : o / 8 ≠ 3 * i / 8)
    (hnext : 5 < 3 * i % 8 → o / 8 ≠ 3 * i / 8 + 1) :
    (decide (3 * i ≤ o) && c.getLsbD (o - 3 * i)) = false := by
  by_cases hle : 3 * i ≤ o
  · simp [BitVec.getLsbD_of_ge c (o - 3 * i) (by omega)]
  · simp [hle]

/-- One pass of `PackF`'s loop ORs the three bits of the code in at offset `3*i` (R101). -/
theorem bitAt_packAt (P : List Byte) {i : Nat} (c : Code) (hroom : 3 * (i + 1) ≤ 8 * P.length) (o : Nat) :
    bitAt (packAt P i c) o = (bitAt P o || (decide (3 * i ≤ o) && c.getLsbD (o - 3 * i))) := by
  have hfirst : 3 * i / 8 < P.length := by omega
  by_cases hs : 3 * i % 8 ≤ 5
  · rw [packAt_within P c hs, bitAt_orByte P _ hfirst]
    by_cases h1 : o / 8 = 3 * i / 8
    · rw [getLsbD_codeShiftLeft c h1, decide_eq_true h1, Bool.true_and]
    · rw [code_bit_outside c h1 (by omega), decide_eq_false h1, Bool.false_and]
  · have hnext : 3 * i / 8 + 1 < (orByte P (3 * i / 8) (c.setWidth 8 <<< (3 * i % 8))).length := by
      rw [orByte_length]
      omega
    rw [packAt_straddling P c (by omega), bitAt_orByte _ _ hnext, bitAt_orByte P _ hfirst, Bool.or_assoc]
    by_cases h1 : o / 8 = 3 * i / 8
    · simp [h1, getLsbD_codeShiftLeft c h1]
    · by_cases h2 : o / 8 = 3 * i / 8 + 1
      · simp [h2, getLsbD_codeShiftRight c h2]
      · simp [h1, h2, code_bit_outside c h1 fun _ => h2]

theorem bitAt_packFrom (P : List Byte) (i : Nat) (cs : List Code) (hroom : 3 * (i + cs.length) ≤ 8 * P.length)
    (o : Nat) : bitAt (packFrom P i cs) o = (bitAt P o || (decide (3 * i ≤ o) && bitAt cs (o - 3 * i))) := by
  induction cs generalizing P i with
  | nil => simp [packFrom]
  | cons c cs ih =>
    rw [List.length_cons] at hroom
    rw [packFrom, ih _ _ (by rw [packAt_length]; omega), bitAt_packAt P c (by omega), Bool.or_assoc,
      bitAt_cons (by decide)]
    congr 1
    by_cases hnext : 3 * (i + 1) ≤ o
    · have hsub : o - 3 * i - 3 = o - 3 * (i + 1) := by omega
      simp [hnext, hsub, BitVec.getLsbD_of_ge c (o - 3 * i) (by omega), show ¬ o - 3 * i < 3 by omega,
        show 3 * i ≤ o by omega]
    · simp [hnext, show o - 3 * i < 3 by omega]

theorem packedLen_eq (n : Nat) : packedLen n = (3 * n + 7) / 8 := rfl

/-- A packed frame is the stream of its codes (R101). -/
theorem bitAt_packF (codes : List Code) (o : Nat) : bitAt (packF codes) o = bitAt codes o := by
  have hroom : 3 * (0 + codes.length) ≤ 8 * (List.replicate (packedLen codes.length) (0 : Byte)).length := by
    rw [List.length_replicate, packedLen_eq]
    omega
  rw [packF, bitAt_packFrom _ _ _ hroom, bitAt_replicate_zero]
  simp

/-- So both spell one number (R102). -/
theorem natOf_packF (codes : List Code) : natOf (packF codes) = natOf codes :=
  (natOf_eq_iff (by decide) (by decide) _ _).2 (bitAt_packF codes)

/-- Bytes that spell the number of the codes, as many as `PackF` gives, are `PackF`'s. -/
theorem eq_packF_of_natOf {codes : List Code} {P : List Byte} (hlen : P.length = packedLen codes.length)
    (h : natOf P = natOf codes) : P = packF codes :=
  eq_of_bitAt (by rw [hlen, packF_length])
    ((natOf_eq_iff (by decide) (by decide) _ _).1 (h.trans (natOf_packF codes).symm))

theorem packF_injective {a b : List Code} (hlen : a.length = b.length) (h : packF a = packF b) : a = b :=
  eq_of_bitAt hlen fun o => by rw [← bitAt_packF, ← bitAt_packF, h]

/-- A multiple of eight codes fills its bytes, so the next code starts a byte of its own (R102). -/
theorem packF_append (a b : List Code) (hfull : a.length % 8 = 0) : packF (a ++ b) = packF a ++ packF b := by
  have hbytes : 8 * packedLen a.length = 3 * a.length := by
    rw [packedLen_eq]
    omega
  refine eq_of_bitAt ?_ fun o => ?_
  · simp only [packF_length, List.length_append, packedLen_eq]
    omega
  · rw [bitAt_packF, bitAt_append (by decide), bitAt_append (by decide), packF_length, hbytes, bitAt_packF, bitAt_packF]

/-- Settles O19: both sides of each equation are a bit of one stream. -/
theorem packPlacesEveryBit : Obligations.PackPlacesEveryBit := by
  refine fun codes => ⟨packF_length codes, fun i k _ hk => ?_, fun o ho => ?_⟩
  · exact (bitAt_packF codes (3 * i + k)).trans (bitAt_mul_add codes i hk)
  · exact (bitAt_packF codes o).trans (bitAt_of_le (by decide) codes ho)

/-- Settles O20: the two sums are the number that the one stream spells. -/
theorem packIsALittleEndianNumber : Obligations.PackIsALittleEndianNumber :=
  ⟨fun codes => (natOf_eq_sum (packF codes)).symm.trans ((natOf_packF codes).trans (natOf_eq_sum codes)),
    fun _ _ => packF_injective, packF_append⟩

end Sys2Proof.Machine
end

section
/-! SUPPORT. `ExtractF` reads three bits of a frame's stream (R106), so it inverts `PackF` (R107). -/

namespace Sys2Proof.Machine

/-- A code that lies within one byte (R106). -/
theorem extractF_within (P : List Byte) {i : Nat} (hs : 3 * i % 8 ≤ 5) :
    extractF P i = (P.getD (3 * i / 8) 0 >>> (3 * i % 8)).setWidth 3 :=
  if_pos hs

/-- A code that straddles two bytes (R106). -/
theorem extractF_straddling (P : List Byte) {i : Nat} (hs : 5 < 3 * i % 8) :
    extractF P i =
      (P.getD (3 * i / 8) 0 >>> (3 * i % 8) ||| P.getD (3 * i / 8 + 1) 0 <<< (8 - 3 * i % 8)).setWidth 3 :=
  if_neg (Nat.not_le.2 hs)

/-- The code of pixel `i` is the three bits at offset `3*i` (R106). -/
theorem getLsbD_extractF (P : List Byte) (i : Nat) {k : Nat} (hk : k < 3) :
    (extractF P i).getLsbD k = bitAt P (3 * i + k) := by
  by_cases hfirst : 3 * i % 8 + k < 8
  · have hdiv : (3 * i + k) / 8 = 3 * i / 8 := by omega
    have hmod : (3 * i + k) % 8 = 3 * i % 8 + k := by omega
    rw [bitAt, hdiv, hmod]
    by_cases hs : 3 * i % 8 ≤ 5
    · simp [extractF_within P hs, hk]
    · simp [extractF_straddling P (Nat.lt_of_not_le hs), hk, show k < 8 - 3 * i % 8 by omega]
  · have hdiv : (3 * i + k) / 8 = 3 * i / 8 + 1 := by omega
    have hmod : (3 * i + k) % 8 = k - (8 - 3 * i % 8) := by omega
    have hout : (P.getD (3 * i / 8) 0).getLsbD (3 * i % 8 + k) = false := BitVec.getLsbD_of_ge _ _ (by omega)
    rw [bitAt, hdiv, hmod, extractF_straddling P (by omega), BitVec.getLsbD_setWidth, BitVec.getLsbD_or,
      BitVec.getLsbD_ushiftRight, hout, BitVec.getLsbD_shiftLeft]
    simp [hk, show k < 8 by omega, show ¬ k < 8 - 3 * i % 8 by omega]

/-- Pixel by pixel, `UnpackF` reads the stream up to pixel `n`. -/
theorem bitAt_unpackF (P : List Byte) (n o : Nat) : bitAt (unpackF P n) o = (decide (o < 3 * n) && bitAt P o) := by
  by_cases ho : o < 3 * n
  · have hpix : o / 3 < n := by omega
    rw [bitAt, unpackF, List.getD_eq_getElem _ _ (by simpa using hpix), List.getElem_map, List.getElem_range,
      getLsbD_extractF P _ (Nat.mod_lt _ (by decide)), Nat.div_add_mod, decide_eq_true ho, Bool.true_and]
  · rw [bitAt_of_le (by decide) _ (by rw [unpackF_length]; omega), decide_eq_false ho, Bool.false_and]

/-- Bit-packing invariant (R107). -/
theorem extractF_packF (codes : List Code) (i : Nat) : extractF (packF codes) i = codes.getD i 0 :=
  BitVec.eq_of_getLsbD_eq fun k hk => by
    rw [getLsbD_extractF _ i hk, bitAt_packF, bitAt_mul_add codes i hk]

/-- The bits that a tail mask keeps (R12). -/
theorem getLsbD_maskOfTail {t k : Nat} (ht : t < 8) (hk : k < 8) :
    (maskOfTail t).getLsbD k = decide (t = 0 ∨ k < t) := by
  have htable : ∀ t < 8, ∀ k < 8, (maskOfTail t).getLsbD k = decide (t = 0 ∨ k < t) := by decide
  exact htable t ht k hk

/-- `MaskF` with the mask of the last byte's used bits clears the pad bits and nothing else (R12, R121). -/
theorem bitAt_maskF_maskOfTail (P : List Byte) {n : Nat} (hlen : P.length = packedLen n) (o : Nat) :
    bitAt (maskF P (maskOfTail (3 * n % 8))) o = (decide (o < 3 * n) && bitAt P o) := by
  have hmod : o % 8 < 8 := Nat.mod_lt _ (by decide)
  rw [packedLen_eq] at hlen
  by_cases hj : o / 8 < P.length
  · rw [bitAt, maskF_getD P _ _ hj, bitAt]
    split_ifs with hlast
    · have hused : (3 * n % 8 = 0 ∨ o % 8 < 3 * n % 8) ↔ o < 3 * n := by omega
      rw [BitVec.getLsbD_and, getLsbD_maskOfTail (Nat.mod_lt _ (by decide)) hmod, decide_eq_decide.2 hused, Bool.and_comm]
    · rw [decide_eq_true (show o < 3 * n by omega), Bool.true_and]
  · rw [bitAt_of_le (by decide) _ (by rw [maskF_length]; omega), decide_eq_false (by omega), Bool.false_and]

/-- The other direction of the invariant, which loses the pad bits (R107). -/
theorem packF_unpackF (P : List Byte) {n : Nat} (hlen : P.length = packedLen n) :
    packF (unpackF P n) = maskF P (maskOfTail (3 * n % 8)) :=
  eq_of_bitAt (by rw [packF_length, unpackF_length, maskF_length, hlen]) fun o => by
    rw [bitAt_packF, bitAt_unpackF, bitAt_maskF_maskOfTail P hlen]

/-- Settles O23: each law compares the bits that `ExtractF` reads. -/
theorem extractInvertsPack : Obligations.ExtractInvertsPack := by
  refine ⟨fun codes i _ => extractF_packF codes i, fun P Q n i _ _ hi hused => ?_, fun P i => ?_,
    fun P n _ hlen => packF_unpackF P hlen⟩
  · refine BitVec.eq_of_getLsbD_eq fun k hk => ?_
    rw [getLsbD_extractF P i hk, getLsbD_extractF Q i hk]
    exact hused (3 * i + k) (by omega)
  · exact Nat.le_of_lt_succ (extractF P i).isLt

/-! ## Reads of the frame store -/

/-- `MemRead` is the number that the bytes spell (R16, R52). -/
theorem memRead_eq_natOf (m : Memory) (j n : Nat) : memRead m j n = natOf ((List.range' j n).map (Memory.read m)) := by
  induction n generalizing j with
  | zero => rfl
  | succ n ih =>
    rw [memRead, ih, List.range'_succ, List.map_cons, natOf_cons]
    exact Nat.add_comm _ _

theorem bitAt_map_range' (m : Memory) (j : Nat) {n o : Nat} (ho : o < 8 * n) :
    bitAt ((List.range' j n).map (Memory.read m)) o = (Memory.read m ((8 * j + o) / 8)).getLsbD ((8 * j + o) % 8) := by
  rw [bitAt, List.getD_eq_getElem _ _ (by simp; omega), List.getElem_map, List.getElem_range', Nat.one_mul,
    Nat.mul_add_div (by decide), Nat.mul_add_mod]

theorem testBit_memRead (m : Memory) (j : Nat) {n o : Nat} (ho : o < 8 * n) :
    (memRead m j n).testBit o = (Memory.read m ((8 * j + o) / 8)).getLsbD ((8 * j + o) % 8) := by
  rw [memRead_eq_natOf, natOf_testBit (by decide), bitAt_map_range' m j ho]

/-- A code of a frame that the store holds, by the bits of the store (R106). -/
theorem getLsbD_extractF_map_read (m : Memory) {n i k : Nat} (hi : 3 * i + 2 < 8 * n) (hk : k < 3) :
    (extractF ((List.range n).map (Memory.read m)) i).getLsbD k =
      (Memory.read m ((3 * i + k) / 8)).getLsbD ((3 * i + k) % 8) := by
  have hbit := bitAt_map_range' m 0 (show 3 * i + k < 8 * n by omega)
  rwa [← List.range_eq_range', Nat.mul_zero, Nat.zero_add, ← getLsbD_extractF _ i hk] at hbit

/-- Settles O22: bit `k` of the code, and of the shifted read, is the bit of the frame at offset `3*i + k`. -/
theorem extractReadsTheCodesBits : Obligations.ExtractReadsTheCodesBits := by
  refine ⟨fun P i k _ hk => getLsbD_extractF P i hk, fun m n i hroom _ => Nat.eq_of_testBit_eq fun k => ?_⟩
  have hread : (memRead m (3 * i / 8) 2 / 2 ^ (3 * i % 8) % 8).testBit k =
      (decide (k < 3) && (memRead m (3 * i / 8) 2).testBit (3 * i % 8 + k)) := by
    rw [Nat.add_comm, ← Nat.testBit_div_two_pow]
    exact Nat.testBit_mod_two_pow _ 3 k
  rw [hread, BitVec.testBit_toNat]
  by_cases hk : k < 3
  · have hoff : 8 * (3 * i / 8) + (3 * i % 8 + k) = 3 * i + k := by omega
    rw [getLsbD_extractF_map_read m hroom hk, testBit_memRead m _ (by omega), hoff, decide_eq_true hk, Bool.true_and]
  · rw [BitVec.getLsbD_of_ge _ k (by omega), decide_eq_false hk, Bool.false_and]

end Sys2Proof.Machine
end

section
/-! SUPPORT. The streaming packer (R103): what it has emitted and the bits that wait in its register are, at every beat, the
number that the codes taken so far spell. -/

namespace Sys2Proof.Machine

/-- The registers after the codes `done` with the bytes `out` emitted: nothing is lost and nothing comes twice (R33, R103). -/
structure Streams (done : List Code) (out : List Byte) (r : PackerRegs) : Prop where
  pix : r.pix = done.length
  cursor : 8 * out.length + r.n.toNat = 3 * done.length
  value : natOf out + 2 ^ (8 * out.length) * r.acc.toNat = natOf done

theorem streams_zero : Streams [] [] .zero := ⟨rfl, rfl, rfl⟩

/-- The bits above the valid ones are 0. -/
theorem Streams.acc_lt {done : List Code} {out : List Byte} {r : PackerRegs} (h : Streams done out r) :
    r.acc.toNat < 2 ^ r.n.toNat := by
  have hbound := natOf_lt done
  rw [← h.cursor, ← h.value, Nat.pow_add] at hbound
  exact Nat.lt_of_mul_lt_mul_left (Nat.lt_of_le_of_lt (Nat.le_add_left _ _) hbound)

/-! ## The three parts of a beat -/

theorem packPush_n {r : PackerRegs} (hn : r.n.toNat < 8) (c : Code) : (packPush r c).n.toNat = r.n.toNat + 3 := by
  rw [packPush]
  bv_omega

/-- A pushed code goes above the bits that wait, and the register has room for it. -/
theorem packPush_acc {r : PackerRegs} (hn : r.n.toNat < 8) (hacc : r.acc.toNat < 2 ^ r.n.toNat) (c : Code) :
    (packPush r c).acc.toNat = r.acc.toNat + 2 ^ r.n.toNat * c.toNat := by
  have hroom : c.toNat * 2 ^ r.n.toNat ≤ 7 * 2 ^ 7 :=
    Nat.mul_le_mul (Nat.le_of_lt_succ c.isLt) (Nat.pow_le_pow_right (by decide) (Nat.le_of_lt_succ hn))
  have hcode : (c.setWidth 10 <<< r.n.toNat).toNat = c.toNat <<< r.n.toNat := by
    rw [BitVec.toNat_shiftLeft, BitVec.toNat_setWidth_of_le (by decide), Nat.shiftLeft_eq, Nat.mod_eq_of_lt (by omega)]
  rw [packPush, BitVec.toNat_or, hcode, Nat.or_comm, ← Nat.shiftLeft_add_eq_or_of_lt hacc, Nat.shiftLeft_eq,
    Nat.add_comm, Nat.mul_comm]

theorem Streams.push {done : List Code} {out : List Byte} {r : PackerRegs} (h : Streams done out r)
    (hn : r.n.toNat < 8) (c : Code) : Streams (done ++ [c]) out (packPush r c) where
  pix := by rw [List.length_append, ← h.pix]; rfl
  cursor := by
    have := h.cursor
    rw [packPush_n hn, List.length_append, List.length_singleton]
    omega
  value := by
    rw [packPush_acc hn h.acc_lt, natOf_concat, ← h.value, ← h.cursor, Nat.pow_add]
    ring

theorem packEmit_full {r : PackerRegs} (h : 8 ≤ r.n.toNat) :
    packEmit r = ({ r with acc := r.acc >>> 8, n := r.n - 8 }, [r.acc.setWidth 8]) := if_pos h

theorem packEmit_partial {r : PackerRegs} (h : r.n.toNat < 8) : packEmit r = (r, []) := if_neg (Nat.not_le.2 h)

theorem packEmit_n_lt (r : PackerRegs) : (packEmit r).1.n.toNat < 8 := by
  by_cases h : 8 ≤ r.n.toNat
  · rw [packEmit_full h]
    bv_omega
  · rw [packEmit_partial (Nat.lt_of_not_le h)]
    exact Nat.lt_of_not_le h

theorem packEmit_length_le (r : PackerRegs) : (packEmit r).2.length ≤ 1 := by
  rw [packEmit]
  split_ifs <;> simp

/-- An emitted byte leaves the register and stands in the output: the number stays. -/
theorem Streams.emit {done : List Code} {out : List Byte} {r : PackerRegs} (h : Streams done out r) :
    Streams done (out ++ (packEmit r).2) (packEmit r).1 := by
  by_cases hfull : 8 ≤ r.n.toNat
  · rw [packEmit_full hfull]
    refine ⟨h.pix, ?_, ?_⟩
    · have hcursor := h.cursor
      simp only [List.length_append, List.length_singleton]
      bv_omega
    · rw [← h.value, natOf_concat, BitVec.toNat_setWidth, BitVec.toNat_ushiftRight, Nat.shiftRight_eq_div_pow,
        List.length_append, List.length_singleton, Nat.mul_succ, Nat.pow_add, Nat.mul_assoc,
        Nat.add_assoc, ← Nat.mul_add, Nat.mod_add_div]
  · rw [packEmit_partial (Nat.lt_of_not_le hfull), List.append_nil]
    exact h

theorem packFlush_of_ne {npix : Nat} {r : PackerRegs} (h : r.pix ≠ npix) : packFlush npix r = (r, []) :=
  if_neg fun hflush => h hflush.1

theorem packFlush_length_le (npix : Nat) (r : PackerRegs) : (packFlush npix r).2.length ≤ 1 := by
  rw [packFlush]
  split_ifs <;> simp

/-- After the last code the flush empties the register, and the bytes emitted are `PackF`'s (R103). -/
theorem Streams.flush {done : List Code} {out : List Byte} {r : PackerRegs} (h : Streams done out r)
    (hn : r.n.toNat < 8) :
    (packFlush done.length r).1 = { acc := 0, n := 0, pix := done.length } ∧
      out ++ (packFlush done.length r).2 = packF done := by
  have hcursor := h.cursor
  have hacc := h.acc_lt
  by_cases hwaits : 0 < r.n.toNat
  · have hbyte : (r.acc.setWidth 8).toNat = r.acc.toNat := by
      have hpow : 2 ^ r.n.toNat ≤ 2 ^ 8 := Nat.pow_le_pow_right (by decide) hn.le
      rw [BitVec.toNat_setWidth, Nat.mod_eq_of_lt (by omega)]
    rw [packFlush, if_pos ⟨h.pix, hwaits⟩, h.pix]
    refine ⟨rfl, eq_packF_of_natOf ?_ ?_⟩
    · rw [List.length_append, List.length_singleton, packedLen_eq]
      omega
    · rw [natOf_concat, hbyte, h.value]
  · have hn0 : r.n.toNat = 0 := by omega
    rw [hn0, Nat.pow_zero, Nat.lt_one_iff] at hacc
    rw [packFlush, if_neg fun hflush => hwaits hflush.2, List.append_nil]
    refine ⟨?_, eq_packF_of_natOf ?_ ?_⟩
    · obtain ⟨acc, n, pix⟩ := r
      simpa [← BitVec.toNat_inj] using ⟨hacc, hn0, h.pix⟩
    · rw [packedLen_eq]
      omega
    · rw [← h.value, hacc, Nat.mul_zero, Nat.add_zero]

/-! ## The beats of a frame -/

theorem packBeats_concat (npix : Nat) (r : PackerRegs) (cs : List Code) (c : Code) :
    packBeats npix r (cs ++ [c]) =
      ((packBeat npix (packBeats npix r cs).1 c).1,
        (packBeats npix r cs).2 ++ (packBeat npix (packBeats npix r cs).1 c).2) := by
  induction cs generalizing r with
  | nil => simp [packBeats]
  | cons a cs ih => simp [packBeats, ih]

/-- A beat before the frame's last one emits no partial byte. -/
theorem packBeat_of_pix_ne {npix : Nat} {r : PackerRegs} (h : r.pix + 1 ≠ npix) (c : Code) :
    packBeat npix r c = packEmit (packPush r c) := by
  have hpix : (packEmit (packPush r c)).1.pix = r.pix + 1 := by
    rw [packEmit]
    split_ifs <;> rfl
  rw [packBeat, packFlush_of_ne (hpix.trans_ne h), List.append_nil]

theorem packBeat_length_le (npix : Nat) (r : PackerRegs) (c : Code) : (packBeat npix r c).2.length ≤ 2 := by
  rw [packBeat, List.length_append]
  exact Nat.add_le_add (packEmit_length_le _) (packFlush_length_le _ _)

/-- Up to the frame's last code the invariant holds, and less than a byte waits. -/
theorem packBeats_streams {npix : Nat} (pre : List Code) (hmore : pre.length < npix) :
    Streams pre (packBeats npix .zero pre).2 (packBeats npix .zero pre).1 ∧ (packBeats npix .zero pre).1.n.toNat < 8 := by
  induction pre using List.reverseRecOn with
  | nil => exact ⟨streams_zero, (by decide : PackerRegs.zero.n.toNat < 8)⟩
  | append_singleton pre c ih =>
    rw [List.length_append, List.length_singleton] at hmore
    obtain ⟨h, hn⟩ := ih (by omega)
    rw [packBeats_concat, packBeat_of_pix_ne (by rw [h.pix]; omega)]
    exact ⟨(h.push hn c).emit, packEmit_n_lt _⟩

theorem packBeats_eq_packF (codes : List Code) :
    packBeats codes.length .zero codes = ({ acc := 0, n := 0, pix := codes.length }, packF codes) := by
  rcases List.eq_nil_or_concat' codes with rfl | ⟨pre, c, rfl⟩
  · rfl
  · obtain ⟨h, hn⟩ := packBeats_streams (npix := (pre ++ [c]).length) pre (by simp)
    obtain ⟨hregs, hbytes⟩ := (h.push hn c).emit.flush (packEmit_n_lt _)
    rw [packBeats_concat, packBeat, ← List.append_assoc, hregs, hbytes]

/-- Settles O21: by the streaming invariant, up to the last beat and through its flush. -/
theorem streamingPackerEqualsPack : Obligations.StreamingPackerEqualsPack := by
  refine fun codes => ⟨packBeats_eq_packF codes, fun pre c post hcodes => ?_⟩
  have hlen : codes.length = pre.length + (post.length + 1) := by
    rw [hcodes, List.length_append, List.length_cons]
  obtain ⟨h, hn⟩ := packBeats_streams (npix := codes.length) pre (by omega)
  have hcursor := h.cursor
  refine ⟨h.pix, by omega, packBeat_length_le _ _ c, fun hpost => ?_⟩
  have hmore := List.length_pos_of_ne_nil hpost
  rw [packBeat_of_pix_ne (by rw [h.pix]; omega)]
  exact packEmit_length_le _

end Sys2Proof.Machine
end

section
/-! SUPPORT. The commands of the frame packer on a ready block (spec 40): each as the state before with the changed fields
replaced. -/

namespace Sys2Proof.Machine

/-- Between commands there is nothing for the end of a command to clear (R20). -/
theorem endCommand_of_between {s : State} (h : s.between) : s.endCommand = s := by
  obtain ⟨hpk, henc, hdec, hbusy⟩ := h
  rw [State.endCommand, ← hpk, ← henc, ← hdec, ← hbusy]

@[simp] theorem State.emitCodes_frame (s : State) (cs : List Code) : (s.emitCodes cs).frame = s.frame := rfl

theorem State.emitCodes_append (s : State) (cs ds : List Code) : s.emitCodes (cs ++ ds) = (s.emitCodes cs).emitCodes ds := by
  simp [State.emitCodes]

theorem exec_pack_ready {s : State} (hs : s.ready) (hcodes : s.npix ≤ s.codeIn.length) :
    exec .pack s =
      .next ({ s with codeIn := s.codeIn.drop s.npix }.emitBytes (packF (s.codeIn.take s.npix))).endCommand :=
  (precheck_ready opPack s _ hs).trans (withCodes_enough _ _ _ hcodes)

theorem exec_extract_ready {s : State} {i : Word} (hs : s.ready) (hfits : s.fits) (hi : i.toNat < s.npix) :
    exec (.extract i) s = .next (s.emitCodes [extractF s.frame i.toNat]) :=
  ((precheck_ready opExtract s _ hs).trans (if_neg (Nat.not_le.2 hi))).trans (withFrame_fits s _ hfits)

theorem exec_extract_beyond {s : State} {i : Word} (hs : s.ready) (hi : s.npix ≤ i.toNat) :
    exec (.extract i) s = .next (s.raise .badarg i) :=
  (precheck_ready opExtract s _ hs).trans (if_pos hi)

theorem exec_unpack_ready {s : State} (hs : s.ready) (hfits : s.fits) :
    exec .unpack s = .next (s.emitCodes (unpackF s.frame s.npix)) :=
  (precheck_ready opUnpack s _ hs).trans (withFrame_fits s _ hfits)

theorem exec_dump_ready {s : State} (hs : s.ready) (hfits : s.fits) : exec .dump s = .next (s.emitBytes s.frame) :=
  (precheck_ready opDump s _ hs).trans (withFrame_fits s _ hfits)

/-- `EXTRACT` of each pixel of a list, one after the other, emits their codes in that order: none of them changes what the
next one reads. -/
theorem execAll_extract (pixels : List Nat) {s : State} (hs : s.ready) (hcap : s.npix ≤ s.maxNpix)
    (hpixels : ∀ i ∈ pixels, i < s.npix) :
    execAll (pixels.map fun i => .extract (BitVec.ofNat 32 i)) s = .next (s.emitCodes (pixels.map (extractF s.frame))) := by
  induction pixels generalizing s with
  | nil => simp [execAll, State.emitCodes]
  | cons i pixels ih =>
    have hi : i < s.npix := hpixels i (by simp)
    have hword : (BitVec.ofNat 32 i).toNat = i := by
      rw [BitVec.toNat_ofNat]
      exact Nat.mod_eq_of_lt (Nat.lt_of_lt_of_le hi (hcap.trans s.cap.isLt.le))
    have hone : exec (.extract (BitVec.ofNat 32 i)) s = .next (s.emitCodes [extractF s.frame i]) := by
      rw [exec_extract_ready hs (psz_le_maxLen s hcap) (by rwa [hword]), hword]
    have hrest := ih (s := s.emitCodes [extractF s.frame i]) hs hcap fun k hk => hpixels k (by simp [hk])
    rw [List.map_cons, execAll, hone]
    rw [State.emitCodes_frame, ← State.emitCodes_append] at hrest
    exact hrest

/-- Settles O24: between commands the end of the command changes nothing more. -/
theorem packEmitsThePackedFrame : Obligations.PackEmitsThePackedFrame := by
  intro s hs hbetween hcodes
  exact (exec_pack_ready hs hcodes).trans (congrArg Host.Outcome.next (endCommand_of_between hbetween))

/-- The last bit of a pixel of the frame lies in one of its `PSZ` bytes (R12). -/
theorem pixel_lt_psz (s : State) {i : Nat} (hi : i < s.npix) : 3 * i + 2 < 8 * s.psz := by
  rw [State.psz, nbits_eq]
  omega

/-- Settles O25: the code emitted is read from the bits of the store. -/
theorem extractEmitsOnePixel : Obligations.ExtractEmitsOnePixel :=
  ⟨fun s i hs hfits hi => ⟨extractF s.frame i.toNat, exec_extract_ready hs hfits hi,
    fun _ hk => getLsbD_extractF_map_read s.fs (pixel_lt_psz s hi) hk⟩, fun _ _ => exec_extract_beyond⟩

/-- Settles O26: the frame is the bytes of the store below `PSZ`. -/
theorem unpackAndDumpReadTheFrame : Obligations.UnpackAndDumpReadTheFrame :=
  fun _ hs hfits => ⟨exec_unpack_ready hs hfits, exec_dump_ready hs hfits⟩

/-- Settles O27: the extracts of all pixels in order emit what `UNPACK` emits. -/
theorem unpackEqualsAllExtracts : Obligations.UnpackEqualsAllExtracts := by
  intro s hs hcap
  rw [execAll_extract (List.range s.npix) hs hcap fun i => List.mem_range.1, exec_unpack_ready hs (psz_le_maxLen s hcap), unpackF]

end Sys2Proof.Machine
end

section
/-! SUPPORT. The XOR of frames and the tail mask as an algebra (R121, R122, R129): XOR undoes itself, and `MaskF` goes through it. -/

namespace Sys2Proof.Machine

/-! ## XOR -/

/-- Bytes beyond the frames read as 0, so the equation holds at every index. -/
theorem xorF_getD_of_length_eq {f p : List Byte} (hlen : f.length = p.length) (j : Nat) :
    (xorF f p).getD j 0 = f.getD j 0 ^^^ p.getD j 0 := by
  by_cases hj : j < p.length
  · exact xorF_getD f p j (by omega) hj
  · have hout : ∀ D : List Byte, D.length = p.length → D.getD j 0 = 0 :=
      fun D hD => List.getD_eq_default _ _ (by omega)
    rw [hout (xorF f p) (by simp [hlen]), hout f hlen, hout p rfl]
    rfl

theorem bitAt_xorF {f p : List Byte} (hlen : f.length = p.length) (o : Nat) :
    bitAt (xorF f p) o = (bitAt f o ^^ bitAt p o) := by
  rw [bitAt, xorF_getD_of_length_eq hlen, BitVec.getLsbD_xor, bitAt, bitAt]

/-- The code of a pixel is three bits of the frame, so XOR acts on it (R129). -/
theorem extractF_xorF {f p : List Byte} (hlen : f.length = p.length) (i : Nat) :
    extractF (xorF f p) i = extractF f i ^^^ extractF p i :=
  BitVec.eq_of_getLsbD_eq fun k hk => by
    rw [BitVec.getLsbD_xor, getLsbD_extractF _ i hk, getLsbD_extractF _ i hk, getLsbD_extractF _ i hk, bitAt_xorF hlen]

/-- Folding a difference into the frame it was taken against gives the new frame (R127). -/
theorem xorF_xorF_cancel {f p : List Byte} (hlen : f.length = p.length) : xorF f (xorF f p) = p := by
  refine List.ext_getElem (by simp [hlen]) fun j _ _ => ?_
  simp [xorF]

theorem xorF_concat {f p : List Byte} (hlen : f.length = p.length) (a b : Byte) :
    xorF (f ++ [a]) (p ++ [b]) = xorF f p ++ [a ^^^ b] :=
  List.zipWith_append hlen

/-! ## The tail mask -/

@[simp] theorem maskF_concat (D : List Byte) (b m : Byte) : maskF (D ++ [b]) m = D ++ [b &&& m] := by
  induction D with
  | nil => rfl
  | cons c D ih =>
    cases D with
    | nil => rfl
    | cons d D => exact congrArg (c :: ·) ih

theorem byte_xor_and (a b m : Byte) : (a &&& m) ^^^ (b &&& m) = (a ^^^ b) &&& m :=
  BitVec.eq_of_getLsbD_eq fun k _ => by simp [Bool.and_xor_distrib_right]

theorem byte_and_ones (b : Byte) : b &&& 0xFF = b := BitVec.and_allOnes

theorem maskF_ones (D : List Byte) : maskF D 0xFF = D := by
  rcases List.eq_nil_or_concat' D with rfl | ⟨D, b, rfl⟩
  · rfl
  · rw [maskF_concat, byte_and_ones]

theorem maskF_replicate_zero (n : Nat) (m : Byte) : maskF (List.replicate n 0) m = List.replicate n 0 := by
  cases n with
  | zero => rfl
  | succ n =>
    rw [List.replicate_succ', maskF_concat]
    exact congrArg (List.replicate n 0 ++ [·]) BitVec.zero_and

theorem xorF_maskF {f p : List Byte} (hlen : f.length = p.length) (m : Byte) :
    xorF (maskF f m) (maskF p m) = maskF (xorF f p) m := by
  rcases List.eq_nil_or_concat' f with rfl | ⟨f, a, rfl⟩
  · rfl
  · rcases List.eq_nil_or_concat' p with rfl | ⟨p, b, rfl⟩
    · simp at hlen
    · have hlen' : f.length = p.length := by simpa using hlen
      rw [maskF_concat, maskF_concat, xorF_concat hlen', xorF_concat hlen', maskF_concat, byte_xor_and]

/-! ## The delta -/

theorem deltaF_length {f p : List Byte} (hlen : f.length = p.length) (m : Byte) : (deltaF f p m).length = p.length := by
  simp [deltaF, hlen]

/-- One frame of R127's sequence: a decoder that holds the old frame masked holds the new one masked after the fold. -/
theorem xorF_maskF_deltaF {f p : List Byte} (hlen : f.length = p.length) (m : Byte) :
    xorF (maskF f m) (deltaF f p m) = maskF p m := by
  have hlen' : f.length = (xorF f p).length := by simp [hlen]
  rw [deltaF, xorF_maskF hlen', xorF_xorF_cancel hlen]

/-- Settles O28: `MaskF` changes the last byte only, and a byte ANDed with 0xFF is itself. -/
theorem deltaMasksTheLastByteOnly : Obligations.DeltaMasksTheLastByteOnly := by
  refine ⟨fun f p m hlen => ⟨deltaF_length hlen m, fun j hj => ?_⟩, maskF_concat, maskF_ones⟩
  have hxor : (xorF f p).length = p.length := by simp [hlen]
  rw [deltaF, maskF_getD _ _ _ (by omega), hxor, xorF_getD_of_length_eq hlen]

/-- Settles O34: at every bit, hence at the three bits of every pixel; equal codes XOR to 0. -/
theorem xorActsPixelByPixel : Obligations.XorActsPixelByPixel := by
  intro f p hlen
  refine ⟨fun j k => ?_, extractF_xorF hlen, fun i hsame => ?_⟩
  · rw [xorF_getD_of_length_eq hlen, BitVec.getLsbD_xor]
  · rw [extractF_xorF hlen, hsame]
    exact BitVec.xor_self

end Sys2Proof.Machine
end

section
/-! SUPPORT. `DELTA` and `FOLD` on a ready block (R124, R125, R126), whole and beat by beat (R130), and with too few bytes
(R209). -/

namespace Sys2Proof.Machine

/-! ## The whole frame -/

theorem exec_delta_ready {s : State} {p : List Byte} {rest : List Beat} (hs : s.ready) (hfits : s.fits)
    (hlen : p.length = s.psz) (hq : s.byteIn = p.map Beat.data ++ rest) :
    exec .delta s =
      .next (({ s with byteIn := rest }.emitBytes (deltaF s.frame p s.tailMask)).storeFrame p).countFrame :=
  ((precheck_ready opDelta s _ hs).trans (withBytes_got _ _ _ p rest hlen hq)).trans
    (withFrame_fits { s with byteIn := rest } _ hfits)

theorem exec_fold_ready {s : State} {d : List Byte} {rest : List Beat} (hs : s.ready) (hfits : s.fits)
    (hlen : d.length = s.psz) (hq : s.byteIn = d.map Beat.data ++ rest) :
    exec .fold s = .next ({ s with byteIn := rest }.storeFrame (xorF s.frame d)).countFrame :=
  ((precheck_ready opFold s _ hs).trans (withBytes_got _ _ _ d rest hlen hq)).trans
    (withFrame_fits { s with byteIn := rest } _ hfits)

/-- A stored frame fills the bytes below `PSZ` and no other. -/
theorem read_storeFrame {s : State} {p : List Byte} (hwf : Memory.wf s.fs) (hlen : p.length = s.psz) (j : Nat) :
    Memory.read (s.storeFrame p).fs j = if j < s.psz then p.getD j 0 else Memory.read s.fs j := by
  simp [State.storeFrame, Memory.read_writeFrom s.fs 0 j p hwf, hlen]

/-- The store holds the frame that was stored last. -/
theorem storeFrame_frame {s : State} {p : List Byte} (hwf : Memory.wf s.fs) (hlen : p.length = s.psz) :
    (s.storeFrame p).frame = p := by
  have hpsz : (s.storeFrame p).psz = s.psz := rfl
  refine List.ext_getElem (by rw [frame_length, hpsz, hlen]) fun j hj hp => ?_
  rw [← List.getD_eq_getElem _ 0 hj, ← List.getD_eq_getElem _ 0 hp, frame_getD _ _ (by omega), read_storeFrame hwf hlen,
    if_pos (by omega)]

theorem xorF_frame_length {s : State} {d : List Byte} (hlen : d.length = s.psz) : (xorF s.frame d).length = s.psz := by
  simp [hlen]

/-- Settles O29: the store takes the input as given. -/
theorem deltaReplacesTheFrame : Obligations.DeltaReplacesTheFrame :=
  fun _ _ _ hs hfits hwf hlen hq => ⟨_, exec_delta_ready hs hfits hlen hq, rfl, read_storeFrame hwf hlen⟩

/-- Settles O30: the store takes the XOR of the held frame and the input, unmasked. -/
theorem foldXorsTheFrameInPlace : Obligations.FoldXorsTheFrameInPlace := by
  intro s d rest hs hfits hwf hlen hq
  refine ⟨_, exec_fold_ready hs hfits hlen hq, rfl, fun j => ?_⟩
  refine (read_storeFrame hwf (xorF_frame_length hlen) j).trans (ite_congr rfl (fun hj => ?_) fun _ => rfl)
  rw [xorF_getD_of_length_eq (by rw [frame_length, hlen]), frame_getD s j hj]

/-- Settles O31: each of the commands passes its checks and then meets the `Eos` where it takes its bytes. -/
theorem anEosTruncatesByteCommands : Obligations.AnEosTruncatesByteCommands := by
  refine ⟨fun s bs rest hs hq hl => ⟨?_, ?_⟩, fun s bs rest len hf hq hl hlen => ?_⟩
  · exact (precheck_ready opDelta s _ hs).trans (withBytes_eos _ _ _ bs rest hl hq)
  · exact (precheck_ready opFold s _ hs).trans (withBytes_eos _ _ _ bs rest hl hq)
  · exact (execRleenc_legal len s hf hlen).trans (withBytes_eos _ _ _ bs rest hl hq)

/-! ## Beat by beat -/

/-- A write below a range of indices is not seen in it, so a beat reads what the frame held before the first one. -/
theorem map_read_write_below (m : Memory) (b : Byte) {k j : Nat} (hkj : k < j) (n : Nat) :
    (List.range' j n).map (Memory.read (Memory.write m k b)) = (List.range' j n).map (Memory.read m) := by
  refine List.map_congr_left fun i hi => Memory.read_write_other m k i b ?_
  have := (List.mem_range'_1.1 hi).1
  omega

/-- `DELTA`'s beats from index `j` to the end of the frame emit the delta of the bytes from there on, and store their input. -/
theorem deltaBeats_eq (m : Byte) (fs : Memory) (j : Nat) (p : List Byte) :
    deltaBeats (j + p.length) m fs j p =
      (deltaF ((List.range' j p.length).map (Memory.read fs)) p m, Memory.writeFrom fs j p) := by
  induction p generalizing fs j with
  | nil => rfl
  | cons b p ih =>
    have hpsz : j + (b :: p).length = j + 1 + p.length := by rw [List.length_cons]; omega
    rw [deltaBeats, hpsz]
    simp only [deltaBeat, ih, map_read_write_below fs b (Nat.lt_succ_self j)]
    cases p with
    | nil => simp [deltaF, xorF, maskF, Memory.writeFrom]
    | cons c p =>
      have hmore : ¬ j + 1 = j + 1 + (c :: p).length := by simp
      rw [if_neg hmore, byte_and_ones]
      rfl

theorem foldBeats_eq (fs : Memory) (j : Nat) (d : List Byte) :
    foldBeats fs j d = Memory.writeFrom fs j (xorF ((List.range' j d.length).map (Memory.read fs)) d) := by
  induction d generalizing fs j with
  | nil => rfl
  | cons b d ih => rw [foldBeats, ih, foldBeat, map_read_write_below fs _ (Nat.lt_succ_self j)]; rfl

theorem frame_eq_map_range' (s : State) : s.frame = (List.range' 0 s.psz).map (Memory.read s.fs) := by
  rw [State.frame, List.range_eq_range']

/-- Settles O32: the beats from index 0 on. -/
theorem deltaAndFoldByBeats : Obligations.DeltaAndFoldByBeats := by
  intro s p _ hlen
  rw [frame_eq_map_range', ← hlen]
  refine ⟨?_, foldBeats_eq s.fs 0 p⟩
  have hdelta := deltaBeats_eq s.tailMask s.fs 0 p
  rwa [Nat.zero_add] at hdelta

end Sys2Proof.Machine
end

section
/-! SUPPORT. A sequence of frames through `DELTA` in one block and `FOLD` in another (R127, R128). -/

namespace Sys2Proof.Machine

/-- The deltas of a sequence of frames, each against the frame before it, the first against `f` (R127). -/
def deltasFrom (m : Byte) (f : List Byte) (Ps : List (List Byte)) : List (List Byte) :=
  List.zipWith (fun f p => deltaF f p m) (f :: Ps) Ps

theorem deltasFrom_cons (m : Byte) (f p : List Byte) (Ps : List (List Byte)) :
    deltasFrom m f (p :: Ps) = deltaF f p m :: deltasFrom m p Ps := rfl

theorem execAll_cons {i : Instr} {s t : State} (is : List Instr) (h : exec i s = .next t) :
    execAll (i :: is) s = execAll is t := by
  rw [execAll, h]

/-- The bytes of the first frame are at the head of the queue. -/
theorem flatten_cons_beats (p : List Byte) (Ps : List (List Byte)) :
    (p :: Ps).flatten.map Beat.data = p.map Beat.data ++ Ps.flatten.map Beat.data := by
  rw [List.flatten_cons, List.map_append]

/-- Two states of one block between which no command has touched the geometry, the capacity or `STATUS`. -/
structure SameSetup (s t : State) : Prop where
  cfgW : t.cfgW = s.cfgW
  cfgH : t.cfgH = s.cfgH
  cap : t.cap = s.cap
  status : t.status = s.status

namespace SameSetup

variable {s t : State}

theorem ready (h : SameSetup s t) (hs : s.ready) : t.ready := by
  simpa [State.ready, State.faulted, State.faultCode, State.configured, h.status] using hs

theorem nbits (h : SameSetup s t) : t.nbits = s.nbits := by
  rw [nbits_eq, nbits_eq, State.npix, State.npix, State.width, State.width, State.height, State.height, h.cfgW, h.cfgH]

theorem psz (h : SameSetup s t) : t.psz = s.psz := by rw [State.psz, State.psz, h.nbits]

theorem tailMask (h : SameSetup s t) : t.tailMask = s.tailMask := by
  rw [State.tailMask, State.tailMask, State.tailBits, State.tailBits, h.nbits]

theorem fits (h : SameSetup s t) (hs : s.fits) : t.fits := by
  have hlen : t.maxLen = s.maxLen := by rw [State.maxLen, State.maxLen, State.maxNpix, State.maxNpix, h.cap]
  rwa [State.fits, h.psz, hlen]

end SameSetup

/-- A `DELTA` in a sequence: the block is ready for the next one and holds the frame just taken. -/
theorem exec_delta_holds {s : State} {p : List Byte} {rest : List Beat} (hs : s.ready) (hfits : s.fits)
    (hwf : Memory.wf s.fs) (hlen : p.length = s.psz) (hq : s.byteIn = p.map Beat.data ++ rest) :
    ∃ t, exec .delta s = .next t ∧ SameSetup s t ∧ Memory.wf t.fs ∧ t.frame = p ∧ t.byteIn = rest ∧
      t.byteOut = s.byteOut ++ deltaF s.frame p s.tailMask :=
  ⟨_, exec_delta_ready hs hfits hlen hq, ⟨rfl, rfl, rfl, rfl⟩, Memory.writeFrom_wf s.fs 0 p hwf,
    storeFrame_frame hwf hlen, rfl, rfl⟩

/-- A `FOLD` in a sequence: the block is ready for the next one and holds the XOR. -/
theorem exec_fold_holds {s : State} {d : List Byte} {rest : List Beat} (hs : s.ready) (hfits : s.fits)
    (hwf : Memory.wf s.fs) (hlen : d.length = s.psz) (hq : s.byteIn = d.map Beat.data ++ rest) :
    ∃ t, exec .fold s = .next t ∧ SameSetup s t ∧ Memory.wf t.fs ∧ t.frame = xorF s.frame d ∧ t.byteIn = rest :=
  ⟨_, exec_fold_ready hs hfits hlen hq, ⟨rfl, rfl, rfl, rfl⟩, Memory.writeFrom_wf s.fs 0 _ hwf,
    storeFrame_frame hwf (xorF_frame_length hlen), rfl⟩

/-- `DELTA`s of a sequence of frames emit its deltas, one after the other. -/
theorem execAll_delta (Ps : List (List Byte)) {s : State} (hs : s.ready) (hfits : s.fits) (hwf : Memory.wf s.fs)
    (hlen : ∀ P ∈ Ps, P.length = s.psz) (hq : s.byteIn = Ps.flatten.map Beat.data) :
    ∃ e, execAll (List.replicate Ps.length .delta) s = .next e ∧
      e.byteOut = s.byteOut ++ (deltasFrom s.tailMask s.frame Ps).flatten := by
  induction Ps generalizing s with
  | nil => exact ⟨s, rfl, (List.append_nil _).symm⟩
  | cons p Ps ih =>
    obtain ⟨hp, hPs⟩ := List.forall_mem_cons.1 hlen
    obtain ⟨t, hone, hst, hwf', hframe, hq', hout⟩ :=
      exec_delta_holds hs hfits hwf hp (hq.trans (flatten_cons_beats p Ps))
    obtain ⟨e, hrun, hmore⟩ := ih (hst.ready hs) (hst.fits hfits) hwf' (hst.psz ▸ hPs) hq'
    refine ⟨e, (execAll_cons _ hone).trans hrun, ?_⟩
    rw [hmore, hout, hst.tailMask, hframe, deltasFrom_cons, List.flatten_cons, List.append_assoc]

/-- A decoder that holds a frame with its pad bits cleared keeps up with the encoder that held the frame itself: after `k`
`FOLD`s of the deltas it holds the `k`-th frame after it, with its pad bits cleared. -/
theorem execAll_fold (k : Nat) {f : List Byte} {Ps : List (List Byte)} {s : State} (hs : s.ready) (hfits : s.fits)
    (hwf : Memory.wf s.fs) (hlen : ∀ P ∈ f :: Ps, P.length = s.psz) (hk : k ≤ Ps.length)
    (hframe : s.frame = maskF f s.tailMask)
    (hq : s.byteIn = (deltasFrom s.tailMask f Ps).flatten.map Beat.data) :
    ∃ d, execAll (List.replicate k .fold) s = .next d ∧ d.frame = maskF ((f :: Ps).getD k []) s.tailMask := by
  induction k generalizing f Ps s with
  | zero => exact ⟨s, rfl, hframe⟩
  | succ k ih =>
    cases Ps with
    | nil => simp at hk
    | cons p Ps =>
      obtain ⟨hf, hps⟩ := List.forall_mem_cons.1 hlen
      have hp := hps p List.mem_cons_self
      have hfp : f.length = p.length := hf.trans hp.symm
      have hd : (deltaF f p s.tailMask).length = s.psz := (deltaF_length hfp _).trans hp
      obtain ⟨t, hone, hst, hwf', hxor, hq'⟩ :=
        exec_fold_holds hs hfits hwf hd (hq.trans (flatten_cons_beats _ (deltasFrom s.tailMask p Ps)))
      have hnew : t.frame = maskF p s.tailMask := by rw [hxor, hframe, xorF_maskF_deltaF hfp]
      rw [← hst.tailMask] at hnew hq' ⊢
      obtain ⟨d, hrun, hlast⟩ :=
        ih (hst.ready hs) (hst.fits hfits) hwf' (hst.psz ▸ hps) (Nat.le_of_succ_le_succ hk) hnew hq'
      exact ⟨d, (execAll_cons _ hone).trans hrun, hlast⟩

/-- An empty store holds the zero frame (R38, R194). -/
theorem frame_of_fs_nil {s : State} (h : s.fs = []) : s.frame = List.replicate s.psz 0 := by
  simp [State.frame, h, List.eq_replicate_iff]

/-- Settles O33: both blocks start from the zero frame, whose pad bits are clear already. -/
theorem foldingDeltasGivesTheFramesBack : Obligations.FoldingDeltasGivesTheFramesBack := by
  intro s Ps k hs hfits hfs hlen hpos hk
  have hwf : Memory.wf s.fs := hfs ▸ Memory.wf_nil
  have hzero := frame_of_fs_nil hfs
  have hlen' : ∀ P ∈ List.replicate s.psz 0 :: Ps, P.length = s.psz :=
    List.forall_mem_cons.2 ⟨List.length_replicate, hlen⟩
  obtain ⟨e, henc, hout⟩ := execAll_delta Ps
    (s := { s with byteIn := Ps.flatten.map Beat.data, byteOut := [] }) hs hfits hwf hlen rfl
  have hdeltas : e.byteOut = (deltasFrom s.tailMask (List.replicate s.psz 0) Ps).flatten := hzero ▸ hout
  obtain ⟨d, hdec, hframe⟩ := execAll_fold k (s := { s with byteIn := e.byteOut.map Beat.data }) hs hfits hwf hlen' hk
    (hzero.trans (maskF_replicate_zero _ _).symm) (congrArg (List.map Beat.data) hdeltas)
  obtain ⟨k, rfl⟩ := Nat.exists_eq_add_of_le' hpos
  exact ⟨e, d, henc, hdeltas, hdec, hframe, hframe.trans⟩

end Sys2Proof.Machine
end

section
/-! SUPPORT. The encoder as a sequence of runs (R140 to R146): the run that a buffer begins with, what its two scans find, and
the encoding as the stream of these runs. -/

namespace Sys2Proof.Machine

/-! ## Runs with a legal count -/

theorem toNat_ofNat_count {n : Nat} (h : n ≤ 127) : (BitVec.ofNat 7 n).toNat = n :=
  Nat.mod_eq_of_lt (Nat.lt_succ_of_le h)

theorem rep_logical {n : Nat} (h : n ≤ 127) (a : Byte) :
    (Instr.rep (BitVec.ofNat 7 n) a).logical = List.replicate n a := by
  rw [Instr.logical, toNat_ofNat_count h]

theorem rep_runBytes {n : Nat} (h : n ≤ 127) (a : Byte) : (Instr.rep (BitVec.ofNat 7 n) a).runBytes = repBytes n a := by
  rw [Instr.runBytes, encode, toNat_ofNat_count h]

/-- A literal run's key is 0x80 plus its count (R82). -/
theorem litKey_eq_add {n : Nat} (hpos : 1 ≤ n) (h : n ≤ 127) : litKey n = BitVec.ofNat 8 (0x80 + n) := by
  have hkey : (BitVec.ofNat 8 (0x80 + n)).toNat = 0x80 + n := Nat.mod_eq_of_lt (by omega)
  have hlow : (0x81 : Byte) ≤ BitVec.ofNat 8 (0x80 + n) := by rw [BitVec.le_def, hkey]; exact Nat.add_le_add_left hpos 0x80
  simpa [hkey] using litKey_sub_flag hlow

theorem lit_runBytes {p : List Byte} (hpos : p ≠ []) (h : p.length ≤ 127) :
    (Instr.lit p).runBytes = BitVec.ofNat 8 (0x80 + p.length) :: p := by
  rw [Instr.runBytes, encode, litBytes, litKey_eq_add (List.length_pos_iff.2 hpos) h]

/-! ## The repeat scan -/

/-- What the scan counts is equal bytes. -/
theorem replicate_repeatLen_prefix (b : Byte) (count : Nat) (tail : List Byte) :
    List.replicate (repeatLen b count tail) b <+: List.replicate count b ++ tail := by
  induction tail generalizing count with
  | nil => rw [repeatLen, List.append_nil]
  | cons a tail ih =>
    rw [repeatLen]
    split_ifs with h
    · rw [h.2, List.append_cons, ← List.replicate_succ']
      exact ih (count + 1)
    · exact List.prefix_append _ _

/-- The scan takes all the equal bytes ahead, up to the cap (R144). -/
theorem repeatLen_replicate_append {b : Byte} {count m : Nat} {rest : List Byte} (hmax : count + m ≤ 127)
    (hstop : count + m = 127 ∨ rest.head? ≠ some b) : repeatLen b count (List.replicate m b ++ rest) = count + m := by
  induction m generalizing count with
  | zero =>
    cases rest with
    | nil => rfl
    | cons a rest =>
      have hend : ¬ (count < Config.maxRun ∧ a = b) := by
        rintro ⟨hlt, rfl⟩
        rcases hstop with h | h
        · exact absurd h (Nat.ne_of_lt hlt)
        · exact h rfl
      exact if_neg hend
  | succ m ih =>
    have hgo : count < Config.maxRun ∧ b = b := ⟨Nat.lt_of_lt_of_le (by omega) hmax, rfl⟩
    rw [List.replicate_succ, List.cons_append, repeatLen, if_pos hgo, ih (by omega) (by rwa [Nat.add_right_comm])]
    omega

/-! ## The literal scan -/

/-- The lookahead fires at count `c`: the last byte accepted equals the two after it (R146 (b)). -/
abbrev LookaheadFires (B : List Byte) (c : Nat) : Prop :=
  c + 1 < B.length ∧ B.getD c 0 = B.getD (c - 1) 0 ∧ B.getD (c + 1) 0 = B.getD (c - 1) 0

/-- The count that the literal scan answers when it has accepted the first `c` bytes of the buffer. -/
def literalScan (B : List Byte) (c : Nat) : Nat := (literalLen c (B.getD (c - 1) 0) (B.drop c)).1

theorem drop_eq_getD_cons {B : List Byte} {c : Nat} (h : c < B.length) : B.drop c = B.getD c 0 :: B.drop (c + 1) := by
  rw [List.drop_eq_getElem_cons h, List.getD_eq_getElem _ 0 h]

/-- The model's test on the bytes ahead is the lookahead. -/
theorem lookahead_test_iff (B : List Byte) (c : Nat) :
    (B.getD c 0 = B.getD (c - 1) 0 ∧ (B.drop (c + 1)).head? = some (B.getD (c - 1) 0)) ↔ LookaheadFires B c := by
  rw [List.head?_drop, List.getElem?_eq_some_iff]
  constructor
  · rintro ⟨hnext, hlen, hafter⟩
    exact ⟨hlen, hnext, (List.getD_eq_getElem _ 0 hlen).trans hafter⟩
  · rintro ⟨hlen, hnext, hafter⟩
    exact ⟨hnext, hlen, (List.getD_eq_getElem _ 0 hlen).symm.trans hafter⟩

/-- Below the cap and before the end of the buffer, the scan gives up the last byte when the lookahead fires, and accepts one
more byte when it does not (R146). -/
theorem literalScan_step {B : List Byte} {c : Nat} (hcap : c < 127) (hlen : c < B.length) :
    literalScan B c = if LookaheadFires B c then c - 1 else literalScan B (c + 1) := by
  have hmax : c < Config.maxRun := hcap
  rw [literalScan, drop_eq_getD_cons hlen, literalLen, if_pos hmax, apply_ite Prod.fst]
  exact ite_congr (propext (lookahead_test_iff B c)) (fun _ => rfl) fun _ => rfl

theorem literalScan_of_fires {B : List Byte} {c : Nat} (hcap : c < 127) (h : LookaheadFires B c) :
    literalScan B c = c - 1 := by
  rw [literalScan_step hcap (Nat.lt_of_succ_lt h.1), if_pos h]

/-- The scan ends at the end of the buffer and at the cap. -/
theorem literalScan_end (B : List Byte) : literalScan B (min B.length 127) = min B.length 127 := by
  rw [literalScan]
  cases hahead : B.drop (min B.length 127) with
  | nil => rfl
  | cons a tail =>
    have hlen := congrArg List.length hahead
    rw [List.length_drop, List.length_cons] at hlen
    have hcap : ¬ min B.length 127 < Config.maxRun := by rw [Config.maxRun]; omega
    rw [literalLen, if_neg hcap]

/-- Where the lookahead does not fire the scan goes on. -/
theorem literalScan_skip {B : List Byte} {c d : Nat} (hcd : c ≤ d) (hd : d ≤ min B.length 127)
    (hno : ∀ k, c ≤ k → k < d → ¬ LookaheadFires B k) : literalScan B c = literalScan B d := by
  induction d, hcd using Nat.le_induction with
  | base => rfl
  | succ d hcd ih =>
    rw [ih (by omega) fun k hck hkd => hno k hck (Nat.lt_succ_of_lt hkd), literalScan_step (by omega) (by omega),
      if_neg (hno d hcd d.lt_succ_self)]

/-- At the first count at which the lookahead fires, the run ends one byte before it. -/
theorem literalScan_first {B : List Byte} {c : Nat} (hmin : 3 ≤ c) (hcap : c < 127) (hfires : LookaheadFires B c)
    (hfirst : ∀ k, 3 ≤ k → k < c → ¬ LookaheadFires B k) : literalScan B 3 = c - 1 := by
  have hlen := hfires.1
  rw [literalScan_skip hmin (by omega) hfirst, literalScan_of_fires hcap hfires]

/-- Where the lookahead never fires, the run goes to the end of the buffer or to the cap. -/
theorem literalScan_never {B : List Byte} (hlen : 3 ≤ B.length) (hno : ∀ c, 3 ≤ c → c < 127 → ¬ LookaheadFires B c) :
    literalScan B 3 = min B.length 127 := by
  rw [literalScan_skip (by omega) le_rfl fun c hc hlt => hno c hc (by omega), literalScan_end]

/-- The two ways in which a literal run ends (R146). -/
theorem literalScan_cases {B : List Byte} (hlen : 3 ≤ B.length) :
    (∃ c, 3 ≤ c ∧ c < 127 ∧ LookaheadFires B c ∧ literalScan B 3 = c - 1) ∨ literalScan B 3 = min B.length 127 := by
  by_cases h : ∃ c, 3 ≤ c ∧ c < 127 ∧ LookaheadFires B c
  · obtain ⟨hmin, hcap, hfires⟩ := Nat.find_spec h
    exact .inl ⟨_, hmin, hcap, hfires, literalScan_first hmin hcap hfires fun k hk hlt hf =>
      Nat.find_min h hlt ⟨hk, hlt.trans hcap, hf⟩⟩
  · exact .inr (literalScan_never hlen fun c hmin hcap hf => h ⟨c, hmin, hcap, hf⟩)

theorem literalScan_bounds {B : List Byte} (hlen : 3 ≤ B.length) :
    2 ≤ literalScan B 3 ∧ literalScan B 3 ≤ min B.length 127 := by
  rcases literalScan_cases hlen with ⟨c, hmin, hcap, ⟨hahead, -⟩, h⟩ | h <;> omega

/-- Where the lookahead fires, three equal bytes begin with the byte that is given up. -/
theorem drop_of_fires {B : List Byte} {c : Nat} (hpos : 1 ≤ c) (h : LookaheadFires B c) :
    ∃ a tail, B.drop (c - 1) = a :: a :: a :: tail := by
  obtain ⟨hlen, hnext, hafter⟩ := h
  refine ⟨B.getD (c - 1) 0, B.drop (c + 2), ?_⟩
  rw [drop_eq_getD_cons (by omega), Nat.sub_add_cancel hpos, drop_eq_getD_cons (c := c) (by omega), drop_eq_getD_cons hlen,
    hnext, hafter]

/-! ## The run that a buffer begins with -/

/-- The run that one pass of the encoder forms from the buffer ahead of its cursor (R141 to R146); of the empty buffer, from
which no pass forms one, the empty literal. -/
def headRun : List Byte → Instr
  | a :: b :: c :: tail =>
    if a = b ∧ a = c then .rep (BitVec.ofNat 7 (repeatLen a Config.minRep tail)) a
    else .lit ((a :: b :: c :: tail).take (literalScan (a :: b :: c :: tail) 3))
  | B => .lit B

/-- What is left of the buffer after its first run. -/
def afterHead (B : List Byte) : List Byte := B.drop (headRun B).logical.length

theorem headRun_repeat (a : Byte) (tail : List Byte) :
    headRun (a :: a :: a :: tail) = .rep (BitVec.ofNat 7 (repeatLen a 3 tail)) a := if_pos ⟨rfl, rfl⟩

theorem headRun_literal {B : List Byte} (hlen : 3 ≤ B.length)
    (hne : ¬ (B.getD 0 0 = B.getD 1 0 ∧ B.getD 0 0 = B.getD 2 0)) : headRun B = .lit (B.take (literalScan B 3)) := by
  match B, hlen with
  | a :: b :: c :: tail, _ => exact if_neg hne

/-- A buffer has at most two bytes, or begins with three equal ones, or begins with three that are not equal. -/
theorem buffer_cases (B : List Byte) :
    B.length ≤ 2 ∨ (∃ a tail, B = a :: a :: a :: tail) ∨
      (3 ≤ B.length ∧ ¬ (B.getD 0 0 = B.getD 1 0 ∧ B.getD 0 0 = B.getD 2 0)) := by
  match B with
  | [] | [_] | [_, _] => exact .inl (by simp)
  | a :: b :: c :: tail =>
    by_cases h : a = b ∧ a = c
    · obtain ⟨rfl, rfl⟩ := h
      exact .inr (.inl ⟨a, tail, rfl⟩)
    · exact .inr (.inr ⟨by simp, h⟩)

theorem headRun_short {B : List Byte} (h : B.length ≤ 2) : headRun B = .lit B := by
  match B, h with
  | [], _ | [_], _ | [_, _], _ => rfl

/-- The first run stands for the first bytes of the buffer. -/
theorem headRun_logical_prefix (B : List Byte) : (headRun B).logical <+: B := by
  rcases buffer_cases B with h | ⟨a, tail, rfl⟩ | ⟨hlen, hne⟩
  · rw [headRun_short h]
    exact List.prefix_rfl
  · rw [headRun_repeat, rep_logical (repeatLen_bounds a 3 tail (by omega)).2.1]
    exact replicate_repeatLen_prefix a 3 tail
  · rw [headRun_literal hlen hne]
    exact List.take_prefix _ _

theorem logical_headRun_append (B : List Byte) : (headRun B).logical ++ afterHead B = B :=
  List.prefix_iff_eq_append.1 (headRun_logical_prefix B)

/-- What the first run of a nonempty buffer can be, and what is left after it (R144 to R146, R148). -/
inductive FirstRun : Instr → List Byte → Prop
  | rep {n : Nat} (a : Byte) (rest : List Byte) (hmin : 3 ≤ n) (hmax : n ≤ 127) : FirstRun (.rep (BitVec.ofNat 7 n) a) rest
  | lit {p rest : List Byte} (hpos : p ≠ []) (hmax : p.length ≤ 127) (hone : p.length = 1 → rest = [])
      (hshort : p.length < 127 → rest = [] ∨ ∃ a tail, rest = a :: a :: a :: tail) : FirstRun (.lit p) rest

theorem afterHead_short {B : List Byte} (h : B.length ≤ 2) : afterHead B = [] := by
  rw [afterHead, headRun_short h]
  exact List.drop_length

theorem afterHead_literal {B : List Byte} (hlen : 3 ≤ B.length)
    (hne : ¬ (B.getD 0 0 = B.getD 1 0 ∧ B.getD 0 0 = B.getD 2 0)) : afterHead B = B.drop (literalScan B 3) := by
  have hle := (literalScan_bounds hlen).2
  rw [afterHead, headRun_literal hlen hne, Instr.logical, List.length_take_of_le (by omega)]

theorem firstRun_headRun {B : List Byte} (h : B ≠ []) : FirstRun (headRun B) (afterHead B) := by
  rcases buffer_cases B with hle | ⟨a, tail, rfl⟩ | ⟨hlen, hne⟩
  · rw [headRun_short hle, afterHead_short hle]
    exact .lit h (by omega) (fun _ => rfl) fun _ => .inl rfl
  · obtain ⟨hmin, hmax, -⟩ := repeatLen_bounds a 3 tail (by omega)
    rw [headRun_repeat]
    exact .rep a _ hmin hmax
  · obtain ⟨hmin, hmax⟩ := literalScan_bounds hlen
    have hcount : (B.take (literalScan B 3)).length = literalScan B 3 := List.length_take_of_le (by omega)
    rw [headRun_literal hlen hne, afterHead_literal hlen hne]
    refine .lit (List.ne_nil_of_length_pos (by omega)) (by omega) (by omega) fun hshort => ?_
    rcases literalScan_cases hlen with ⟨c, hc, -, hfires, hscan⟩ | hscan
    · rw [hscan]
      exact .inr (drop_of_fires (by omega) hfires)
    · exact .inl (List.drop_eq_nil_of_le (by omega))

theorem FirstRun.legal {i : Instr} {rest : List Byte} (h : FirstRun i rest) :
    i.isCommand = false ∧ i.wellFormed = true := by
  cases h with
  | rep a rest hmin hmax =>
    have hne : BitVec.ofNat 7 _ ≠ 0 := fun h0 => by
      have hcount := (congrArg BitVec.toNat h0).symm.trans (toNat_ofNat_count hmax)
      exact absurd (hcount ▸ hmin) (by decide)
    exact ⟨rfl, bne_iff_ne.2 hne⟩
  | lit hpos hmax => exact ⟨rfl, lit_wellFormed_iff.2 ⟨mt List.length_eq_zero_iff.1 hpos, hmax⟩⟩

theorem FirstRun.logical_ne_nil {i : Instr} {rest : List Byte} (h : FirstRun i rest) : i.logical ≠ [] := by
  cases h with
  | rep a rest hmin hmax =>
    rw [rep_logical hmax]
    exact mt (List.replicate_eq_nil_iff a).1 (by omega)
  | lit hpos => exact hpos

theorem afterHead_length_lt {B : List Byte} (h : B ≠ []) : (afterHead B).length < B.length := by
  have hpos := List.length_pos_iff.2 (firstRun_headRun h).logical_ne_nil
  have hlen := congrArg List.length (logical_headRun_append B)
  rw [List.length_append] at hlen
  omega

/-! ## The encoding as a stream of runs -/

/-- The runs that the encoder makes of a buffer (R141). -/
def encoderRuns (B : List Byte) : List Instr :=
  if _ : B = [] then [] else headRun B :: encoderRuns (afterHead B)
termination_by B.length
decreasing_by exact afterHead_length_lt ‹_›

theorem encoderRuns_nil : encoderRuns [] = [] := by
  rw [encoderRuns, dif_pos rfl]

theorem encoderRuns_of_ne_nil {B : List Byte} (h : B ≠ []) : encoderRuns B = headRun B :: encoderRuns (afterHead B) := by
  rw [encoderRuns, dif_neg h]

/-- One pass of the encoder emits the first run of the buffer ahead and moves the cursor past it. -/
theorem encPass_eq_headRun {B : List Byte} {r : EncoderRegs} (h : B.drop r.off ≠ []) :
    ∃ r', encPass B r = some ((headRun (B.drop r.off)).runBytes, r') ∧
      r'.off = r.off + (headRun (B.drop r.off)).logical.length := by
  rw [encPass]
  generalize B.drop r.off = S at h ⊢
  match S with
  | [_] | [_, _] => exact ⟨_, rfl, rfl⟩
  | a :: b :: c :: tail =>
    by_cases hrep : a = b ∧ a = c
    · obtain ⟨rfl, rfl⟩ := hrep
      have hmax := (repeatLen_bounds a 3 tail (by omega)).2.1
      rw [headRun_repeat, rep_runBytes hmax, rep_logical hmax, List.length_replicate]
      exact ⟨_, if_pos ⟨rfl, rfl⟩, rfl⟩
    · have hlen : 3 ≤ (a :: b :: c :: tail).length := by simp
      have hle := (literalScan_bounds hlen).2
      rw [headRun_literal hlen hrep, Instr.logical, List.length_take_of_le (by omega)]
      exact ⟨_, if_neg hrep, rfl⟩

theorem encPass_end {B : List Byte} {r : EncoderRegs} (h : B.drop r.off = []) : encPass B r = none := by
  rw [encPass, h]

/-- With enough passes the loop emits the runs of the buffer ahead of its cursor. -/
theorem encLoop_eq_streamOf {B : List Byte} {fuel : Nat} {r : EncoderRegs} (hfuel : B.length ≤ r.off + fuel) :
    encLoop B fuel r = streamOf (encoderRuns (B.drop r.off)) := by
  induction fuel generalizing r with
  | zero => rw [List.drop_eq_nil_of_le (i := r.off) hfuel, encoderRuns_nil]; rfl
  | succ fuel ih =>
    rw [encLoop]
    by_cases hahead : B.drop r.off = []
    · rw [encPass_end hahead, hahead, encoderRuns_nil]
      rfl
    · obtain ⟨r', hpass, hoff⟩ := encPass_eq_headRun hahead
      have hpos := List.length_pos_iff.2 (firstRun_headRun hahead).logical_ne_nil
      have hafter : afterHead (B.drop r.off) = B.drop r'.off := by rw [afterHead, List.drop_drop, hoff]
      rw [hpass, encoderRuns_of_ne_nil hahead, hafter, streamOf, List.flatMap_cons]
      exact congrArg _ (ih (by omega))

/-- The encoding is the stream of the encoder's runs. -/
theorem rleEncF_eq_streamOf (B : List Byte) : rleEncF B = streamOf (encoderRuns B) :=
  encLoop_eq_streamOf (r := .zero) (Nat.le_add_left _ _)

theorem rleEncF_nil : rleEncF [] = [] := rfl

/-- The encoder emits the first run and then encodes afresh what is left (R141). -/
theorem rleEncF_of_ne_nil {B : List Byte} (h : B ≠ []) : rleEncF B = (headRun B).runBytes ++ rleEncF (afterHead B) := by
  rw [rleEncF_eq_streamOf, rleEncF_eq_streamOf, encoderRuns_of_ne_nil h, streamOf, List.flatMap_cons]
  rfl

theorem rleEncF_short {B : List Byte} (hpos : B ≠ []) (h : B.length ≤ 2) :
    rleEncF B = BitVec.ofNat 8 (0x80 + B.length) :: B := by
  rw [rleEncF_of_ne_nil hpos, headRun_short h, afterHead_short h, rleEncF_nil, List.append_nil,
    lit_runBytes hpos (by omega)]

theorem rleEncF_literal {B : List Byte} (hlen : 3 ≤ B.length)
    (hne : ¬ (B.getD 0 0 = B.getD 1 0 ∧ B.getD 0 0 = B.getD 2 0)) :
    rleEncF B = BitVec.ofNat 8 (0x80 + literalScan B 3) :: B.take (literalScan B 3) ++
      rleEncF (B.drop (literalScan B 3)) := by
  obtain ⟨hmin, hmax⟩ := literalScan_bounds hlen
  have hcount : (B.take (literalScan B 3)).length = literalScan B 3 := List.length_take_of_le (by omega)
  rw [rleEncF_of_ne_nil (List.ne_nil_of_length_pos (by omega)), afterHead_literal hlen hne, headRun_literal hlen hne,
    lit_runBytes (List.ne_nil_of_length_pos (by omega)) (by omega), hcount]

theorem rleEncF_repeat {a : Byte} {n : Nat} {rest : List Byte} (hmin : 3 ≤ n) (hmax : n ≤ 127)
    (hstop : n = 127 ∨ rest.head? ≠ some a) :
    rleEncF (List.replicate n a ++ rest) = repBytes n a ++ rleEncF rest := by
  obtain ⟨m, rfl⟩ := Nat.exists_eq_add_of_le hmin
  have hthree : List.replicate (3 + m) a ++ rest = a :: a :: a :: (List.replicate m a ++ rest) := by
    rw [List.replicate_add]
    rfl
  have hhead : headRun (List.replicate (3 + m) a ++ rest) = .rep (BitVec.ofNat 7 (3 + m)) a := by
    rw [hthree, headRun_repeat, repeatLen_replicate_append hmax hstop]
  have hafter : afterHead (List.replicate (3 + m) a ++ rest) = rest := by
    rw [afterHead, hhead, rep_logical hmax, List.drop_left]
  have hne : List.replicate (3 + m) a ++ rest ≠ [] := by simp [hthree]
  rw [rleEncF_of_ne_nil hne, hafter, hhead, rep_runBytes hmax]

/-- Settles O36: the repeat scan takes all `n` bytes and stops there. -/
theorem encoderRepeatRun : Obligations.EncoderRepeatRun :=
  fun _ _ _ => rleEncF_repeat

/-- Settles O37: the literal scan ends where the lookahead fires first, or goes to the end or the cap. -/
theorem encoderLiteralRun : Obligations.EncoderLiteralRun := by
  intro B hlen hne
  refine ⟨fun c hmin hcap hfires hfirst => ?_, fun hno => ?_⟩
  · rw [← literalScan_first hmin hcap hfires hfirst]
    exact rleEncF_literal hlen hne
  · rw [← literalScan_never hlen hno]
    exact rleEncF_literal hlen hne

/-- Settles O35: at most two bytes are one literal run. -/
theorem encoderRemainderRule : Obligations.EncoderRemainderRule :=
  ⟨rleEncF_nil, fun a => rleEncF_short (List.cons_ne_nil a []) (by simp),
    fun a b => rleEncF_short (List.cons_ne_nil a [b]) (by simp)⟩

end Sys2Proof.Machine
end

section
/-! SUPPORT. What the encoder's runs are (R147, R148): legal, for the buffer's own bytes, in the order that the scans allow, and
of bounded size; and `RLEENC`, which emits them (R150). -/

namespace Sys2Proof.Machine

/-! ## The runs of an encoding -/

theorem logicalOf_encoderRuns (B : List Byte) : logicalOf (encoderRuns B) = B := by
  induction B using encoderRuns.induct with
  | case1 => rw [encoderRuns_nil]; rfl
  | case2 B h ih =>
    rw [encoderRuns_of_ne_nil h, logicalOf, List.flatMap_cons]
    exact (congrArg _ ih).trans (logical_headRun_append B)

theorem firstRun_of_encoderRuns_cons {B : List Byte} {i : Instr} {is : List Instr} (h : encoderRuns B = i :: is) :
    ∃ rest, FirstRun i rest ∧ encoderRuns rest = is := by
  have hne : B ≠ [] := by
    rintro rfl
    rw [encoderRuns_nil] at h
    cases h
  rw [encoderRuns_of_ne_nil hne] at h
  obtain ⟨rfl, hrest⟩ := List.cons.inj h
  exact ⟨_, firstRun_headRun hne, hrest⟩

/-- Each run of an encoding is the first run of some buffer, and the runs after it encode what is left of that buffer. -/
theorem firstRun_of_encoderRuns {B : List Byte} {pre post : List Instr} {i : Instr}
    (h : encoderRuns B = pre ++ i :: post) : ∃ rest, FirstRun i rest ∧ encoderRuns rest = post := by
  induction pre generalizing B with
  | nil => exact firstRun_of_encoderRuns_cons h
  | cons j pre ih =>
    obtain ⟨rest, -, hrest⟩ := firstRun_of_encoderRuns_cons h
    exact ih hrest

theorem firstRun_of_mem_encoderRuns {B : List Byte} {i : Instr} (h : i ∈ encoderRuns B) : ∃ rest, FirstRun i rest := by
  obtain ⟨pre, post, hsplit⟩ := List.append_of_mem h
  obtain ⟨rest, hfirst, -⟩ := firstRun_of_encoderRuns hsplit
  exact ⟨rest, hfirst⟩

theorem encoderRuns_legal (B : List Byte) : legalRuns (encoderRuns B) := fun _ hi =>
  let ⟨_, hfirst⟩ := firstRun_of_mem_encoderRuns hi
  hfirst.legal

theorem FirstRun.rep_min {n : BitVec 7} {v : Byte} {rest : List Byte} (h : FirstRun (.rep n v) rest) : 3 ≤ n.toNat := by
  cases h with
  | rep _ _ hmin hmax => rwa [toNat_ofNat_count hmax]

theorem encoderRuns_rep_min {B : List Byte} {n : BitVec 7} {v : Byte} (h : .rep n v ∈ encoderRuns B) : 3 ≤ n.toNat :=
  let ⟨_, hfirst⟩ := firstRun_of_mem_encoderRuns h
  hfirst.rep_min

/-- A literal run of one byte ends the encoding (R148 (d)). -/
theorem encoderRuns_lit_one_last {B p : List Byte} {pre post : List Instr} (h : encoderRuns B = pre ++ .lit p :: post)
    (hone : p.length = 1) : post = [] := by
  obtain ⟨rest, hfirst, rfl⟩ := firstRun_of_encoderRuns h
  cases hfirst with
  | lit hpos hmax hlast hshort => rw [hlast hone, encoderRuns_nil]

/-- After a literal run below the cap comes a repeat run, where a run comes at all: the scan ended at a lookahead. -/
theorem encoderRuns_rep_after_short_lit {B p : List Byte} {pre post : List Instr} {i : Instr}
    (h : encoderRuns B = pre ++ .lit p :: i :: post) (hlt : p.length < 127) : ∃ n v, i = .rep n v := by
  obtain ⟨rest, hfirst, hpost⟩ := firstRun_of_encoderRuns h
  cases hfirst with
  | lit hpos hmax hone hshort =>
    rcases hshort hlt with rfl | ⟨a, tail, rfl⟩
    · rw [encoderRuns_nil] at hpost
      cases hpost
    · rw [encoderRuns_of_ne_nil (List.cons_ne_nil _ _), headRun_repeat] at hpost
      exact ⟨_, _, (List.cons.inj hpost).1.symm⟩

/-! ## The size of an encoding -/

/-- The size bound (R148 (h)), with a byte to spare where the encoding begins with a repeat run: that byte pays for the key of
a literal run below the cap in front of it, and every 127 bytes of the buffer pay for the key of a literal run at the cap. -/
theorem rleEncF_length_add_le (B : List Byte) :
    (rleEncF B).length ≤ B.length + (B.length + 126) / 127 ∧
      (∀ n v, headRun B = .rep n v → (rleEncF B).length + 1 ≤ B.length + (B.length + 126) / 127) := by
  induction B using encoderRuns.induct with
  | case1 => exact ⟨Nat.zero_le _, fun _ _ h => nomatch h⟩
  | case2 B h ih =>
    obtain ⟨hle, hspare⟩ := ih
    have hlogical := congrArg List.length (logical_headRun_append B)
    rw [List.length_append] at hlogical
    rw [rleEncF_of_ne_nil h, List.length_append]
    have hfirst := firstRun_headRun h
    generalize headRun B = i at *
    generalize afterHead B = rest at *
    cases hfirst with
    | @rep n a _ hmin hmax =>
      rw [rep_logical hmax, List.length_replicate] at hlogical
      have hbytes : (Instr.rep (BitVec.ofNat 7 n) a).runBytes.length = 2 := rfl
      rw [hbytes]
      exact ⟨by omega, fun _ _ _ => by omega⟩
    | @lit p _ hpos hmax hone hshort =>
      have hbytes : (Instr.lit p).runBytes.length = p.length + 1 := rfl
      have hlen : p.length + rest.length = B.length := hlogical
      have hp := List.length_pos_iff.2 hpos
      rw [hbytes]
      refine ⟨?_, fun _ _ h => nomatch h⟩
      by_cases hlt : p.length < 127
      · rcases hshort hlt with rfl | ⟨a, tail, rfl⟩
        · rw [rleEncF_nil, List.length_nil]
          rw [List.length_nil] at hlen
          omega
        · have := hspare _ _ (headRun_repeat a tail)
          omega
      · omega

/-- Settles O38: the runs are the encoder's own, and each is the first run of what is left when it is formed. -/
theorem encoderOutputIsLegalRuns : Obligations.EncoderOutputIsLegalRuns := fun B =>
  ⟨⟨encoderRuns B, rleEncF_eq_streamOf B, encoderRuns_legal B, logicalOf_encoderRuns B, fun _ _ => encoderRuns_rep_min,
    fun _ _ _ => encoderRuns_lit_one_last, fun _ _ _ _ => encoderRuns_rep_after_short_lit⟩, (rleEncF_length_add_le B).1⟩

/-! ## `RLEENC` -/

/-- `RLEENC` of a length above `MAX_LEN` (R150, R201). -/
theorem execRleenc_beyond (len : Word) (s : State) (hf : s.faulted = false) (hlen : s.maxLen < len.toNat) :
    execRleenc len s = .next (s.raise .badarg len) := by
  rw [execRleenc, precheck_pass _ _ _ _ hf (by simp), if_pos hlen]

/-- Settles O39: between commands the end of the command changes nothing more. -/
theorem rleencEmitsTheEncoding : Obligations.RleencEmitsTheEncoding := by
  refine ⟨fun s len B rest hf hbetween hB hlen hq => ?_, fun s len => execRleenc_beyond len s⟩
  calc exec (.rleenc len) s
      = .next ({ s with byteIn := rest }.emitBytes (rleEncF B)).endCommand :=
        (execRleenc_legal len s hf hlen).trans (withBytes_got _ _ _ B rest hB hq)
    _ = .next { s with byteIn := rest, byteOut := s.byteOut ++ rleEncF B } :=
        congrArg Host.Outcome.next (endCommand_of_between (s := { s with byteIn := rest }.emitBytes (rleEncF B)) hbetween)

end Sys2Proof.Machine
end

section
/-! SUPPORT. The decoder on a stream of runs (R160 to R172): it passes over complete runs, and stops at the first head of the
queue that is none. -/

namespace Sys2Proof.Machine

/-! ## Streams -/

/-- The beats of a sequence of runs. -/
abbrev beatsOf (rs : List Instr) : List Beat := (streamOf rs).map Beat.data

theorem beatsOf_runOf_cons {key : Byte} {payload : List Byte} (hlen : payload.length = payloadLen key) (rs : List Instr)
    (q : List Beat) : beatsOf (runOf key payload :: rs) ++ q = .data key :: (payload.map Beat.data ++ (beatsOf rs ++ q)) := by
  simp [beatsOf, streamOf, runOf_runBytes key payload hlen]

theorem logicalOf_cons (i : Instr) (rs : List Instr) : logicalOf (i :: rs) = i.logical ++ logicalOf rs :=
  List.flatMap_cons

/-- A whole run takes its key into the register, adds what it stands for to `out`, and lowers `exp` by its count. -/
theorem applyRun_eq {key : Byte} {payload : List Byte} (d : Decoder) (hlen : payload.length = payloadLen key) :
    applyRun key payload d =
      { exp := d.exp - keyCount key, key := key, wb := d.wb ++ (runOf key payload).logical } := by
  cases hl : keyIsLit key with
  | true =>
    simp only [payloadLen, hl, if_true] at hlen
    simp [applyRun, runOf, litRun, Instr.logical, hl, hlen]
  | false => simp [applyRun, runOf, repRun, Instr.logical, hl, toNat_mod_eq_keyCount]

/-! ## One turn of the loop -/

theorem decLoop_run {fuel : Nat} {d : Decoder} {q : List Beat} (hexp : d.exp ≠ 0) {key : Byte} {payload : List Byte}
    {afterKey rest : List Beat} (hf : fetchRun d.exp q = .run key payload afterKey rest) :
    decLoop (fuel + 1) d q = decLoop fuel (applyRun key payload d) rest := by
  rw [decLoop, if_neg hexp, hf]

theorem decLoop_raise {fuel : Nat} {d : Decoder} {q : List Beat} (hexp : d.exp ≠ 0) {c : Cause} {info : Word}
    {rest : List Beat} (hf : fetchRun d.exp q = .raise c info rest) : decLoop (fuel + 1) d q = .raise c info rest := by
  rw [decLoop, if_neg hexp, hf]

theorem decLoop_wait {fuel : Nat} {d : Decoder} {q : List Beat} (hexp : d.exp ≠ 0) (hf : fetchRun d.exp q = .wait) :
    decLoop (fuel + 1) d q = .wait := by
  rw [decLoop, if_neg hexp, hf]

/-! ## Complete runs -/

/-- The loop passes over legal runs that fit what it wants, whatever follows them, and then wants so much less. -/
theorem decLoop_runs {rs : List Instr} (hlegal : legalRuns rs) {fuel : Nat} {d : Decoder}
    (hfit : (logicalOf rs).length ≤ d.exp) (hfuel : d.exp ≤ fuel) :
    ∃ fuel' d', d'.exp = d.exp - (logicalOf rs).length ∧ d'.wb = d.wb ++ logicalOf rs ∧ d'.exp ≤ fuel' ∧
      ∀ q, decLoop fuel d (beatsOf rs ++ q) = decLoop fuel' d' q := by
  induction rs generalizing fuel d with
  | nil => exact ⟨fuel, d, rfl, (List.append_nil _).symm, hfuel, fun _ => rfl⟩
  | cons i rs ih =>
    obtain ⟨⟨hrun, hwf⟩, hlegal'⟩ := List.forall_mem_cons.1 hlegal
    obtain ⟨key, payload, rfl, hlen, hcount⟩ := exists_runOf i hrun hwf
    rw [logicalOf_cons, List.length_append, runOf_logical_length key payload hlen] at hfit
    obtain ⟨fuel, rfl⟩ := Nat.exists_eq_add_of_le' (show 1 ≤ fuel by omega)
    have hdec := applyRun_eq d hlen
    obtain ⟨fuel', d', hexp, hwb, hfuel', hloop⟩ := ih hlegal' (fuel := fuel) (d := applyRun key payload d)
      (by rw [hdec]; show _ ≤ d.exp - _; omega) (by rw [hdec]; show d.exp - _ ≤ _; omega)
    refine ⟨fuel', d', ?_, ?_, hfuel', fun q => ?_⟩
    · rw [hexp, hdec, logicalOf_cons, List.length_append, runOf_logical_length key payload hlen, Nat.sub_sub]
    · rw [hwb, hdec, logicalOf_cons, List.append_assoc]
    · have hok : countFault d.exp (keyCount key) = none := countFault_none _ _ (by omega) (by omega)
      rw [beatsOf_runOf_cons hlen, decLoop_run (by omega) (fetchRun_run d.exp key payload _ hlen hok), hloop]

/-- Legal runs that make up the wanted length decode to what they stand for, and exactly their beats are taken (R171). -/
theorem rleDecF_runs {rs : List Instr} (hlegal : legalRuns rs) (rest : List Beat) :
    rleDecF (beatsOf rs ++ rest) (logicalOf rs).length = .done (logicalOf rs) rest := by
  obtain ⟨fuel, d, hexp, hwb, -, hloop⟩ :=
    decLoop_runs hlegal (fuel := (logicalOf rs).length) (d := Decoder.start _) le_rfl le_rfl
  have hdone : d.exp = 0 := by rw [hexp]; exact Nat.sub_self _
  rw [rleDecF, hloop rest, decLoop_zero_exp fuel d rest hdone, hwb]
  rfl

/-- A loop that wants no more bytes has decoded no run. -/
theorem decLoop_done_of_exp_zero {fuel : Nat} {d : Decoder} {q rest : List Beat} {out : List Byte} (hexp : d.exp = 0)
    (h : decLoop fuel d q = .done out rest) : q = rest ∧ out = d.wb := by
  rw [decLoop_zero_exp fuel d q hexp] at h
  cases h
  exact ⟨rfl, rfl⟩

/-- Whatever the loop decodes was a sequence of legal runs. -/
theorem decLoop_done {fuel : Nat} {d : Decoder} {q rest : List Beat} {out : List Byte}
    (h : decLoop fuel d q = .done out rest) :
    ∃ rs, legalRuns rs ∧ q = beatsOf rs ++ rest ∧ out = d.wb ++ logicalOf rs ∧ (logicalOf rs).length = d.exp := by
  induction fuel generalizing d q with
  | zero =>
    by_cases hexp : d.exp = 0
    · obtain ⟨rfl, rfl⟩ := decLoop_done_of_exp_zero hexp h
      exact ⟨[], nofun, rfl, (List.append_nil _).symm, hexp.symm⟩
    · rw [decLoop, if_neg hexp] at h
      cases h
  | succ fuel ih =>
    by_cases hexp : d.exp = 0
    · obtain ⟨rfl, rfl⟩ := decLoop_done_of_exp_zero hexp h
      exact ⟨[], nofun, rfl, (List.append_nil _).symm, hexp.symm⟩
    · cases hf : fetchRun d.exp q with
      | raise c info left => cases (decLoop_raise hexp hf).symm.trans h
      | wait => cases (decLoop_wait hexp hf).symm.trans h
      | run key payload afterKey left =>
        obtain ⟨hok, hlen, rfl⟩ := fetchRun_eq_run hf
        obtain ⟨hpos, hle⟩ := countFault_eq_none hok
        obtain ⟨rs, hlegal, rfl, rfl, hcount⟩ := ih ((decLoop_run hexp hf).symm.trans h)
        rw [applyRun_eq d hlen] at hcount ⊢
        have hcount : (logicalOf rs).length = d.exp - keyCount key := hcount
        refine ⟨runOf key payload :: rs, ?_, ?_, ?_, ?_⟩
        · exact List.forall_mem_cons.2 ⟨⟨runOf_isCommand key payload, runOf_wellFormed hlen (by omega)⟩, hlegal⟩
        · rw [beatsOf_runOf_cons hlen]
        · rw [logicalOf_cons, List.append_assoc]
        · rw [logicalOf_cons, List.length_append, runOf_logical_length key payload hlen]
          omega

/-- Settles O40: the loop takes legal runs only, and takes all of them. -/
theorem decoderDecodesExactlyLegalRuns : Obligations.DecoderDecodesExactlyLegalRuns := by
  intro S L out rest
  constructor
  · intro h
    obtain ⟨rs, hlegal, hS, hout, hlen⟩ := decLoop_done (d := Decoder.start L) h
    have hout : out = logicalOf rs := hout
    exact ⟨rs, hlegal, hS, hout, hout ▸ hlen⟩
  · rintro ⟨rs, hlegal, rfl, rfl, rfl⟩
    exact rleDecF_runs hlegal rest

/-- Settles O42: the encoder's output is the stream of legal runs that stand for the buffer. -/
theorem rleRoundTrip : Obligations.RleRoundTrip := by
  intro B X
  have h := rleDecF_runs (encoderRuns_legal B) X
  rwa [logicalOf_encoderRuns, beatsOf, ← rleEncF_eq_streamOf] at h

/-! ## After the complete runs -/

/-- After complete runs that leave bytes to produce, the decoder's answer is the loop's at what follows them. -/
theorem rleDecF_after_runs {rs : List Instr} {L : Nat} (hlegal : legalRuns rs) (hleft : (logicalOf rs).length < L) :
    ∃ fuel d, d.exp = L - (logicalOf rs).length ∧ d.exp ≠ 0 ∧
      ∀ q, rleDecF (beatsOf rs ++ q) L = decLoop (fuel + 1) d q := by
  obtain ⟨fuel, d, hexp, -, hfuel, hloop⟩ := decLoop_runs hlegal (d := Decoder.start L) hleft.le le_rfl
  have hexp : d.exp = L - (logicalOf rs).length := hexp
  obtain ⟨fuel, rfl⟩ := Nat.exists_eq_add_of_le' (show 1 ≤ fuel by omega)
  exact ⟨fuel, d, hexp, by omega, hloop⟩

theorem rleDecF_raise_after_runs {rs : List Instr} {L : Nat} (hlegal : legalRuns rs) (hleft : (logicalOf rs).length < L)
    {q rest : List Beat} {c : Cause} {info : Word} (hf : fetchRun (L - (logicalOf rs).length) q = .raise c info rest) :
    rleDecF (beatsOf rs ++ q) L = .raise c info rest := by
  obtain ⟨fuel, d, hexp, hne, hloop⟩ := rleDecF_after_runs hlegal hleft
  rw [hloop, decLoop_raise hne (hexp ▸ hf)]

theorem rleDecF_wait_after_runs {rs : List Instr} {L : Nat} (hlegal : legalRuns rs) (hleft : (logicalOf rs).length < L)
    {q : List Beat} (hf : fetchRun (L - (logicalOf rs).length) q = .wait) : rleDecF (beatsOf rs ++ q) L = .wait := by
  obtain ⟨fuel, d, hexp, hne, hloop⟩ := rleDecF_after_runs hlegal hleft
  rw [hloop, decLoop_wait hne (hexp ▸ hf)]

theorem fetchRun_payload_eos {exp : Nat} {key : Byte} (hok : countFault exp (keyCount key) = none) {bs : List Byte}
    (hshort : bs.length < payloadLen key) (X : List Beat) :
    fetchRun exp (.data key :: bs.map Beat.data ++ .eos :: X) = .raise .trunc 0 X := by
  rw [List.cons_append, fetchRun, hok]
  simp only [takeBytes_eos _ bs X hshort]

theorem fetchRun_payload_short {exp : Nat} {key : Byte} (hok : countFault exp (keyCount key) = none) {bs : List Byte}
    (hshort : bs.length < payloadLen key) : fetchRun exp (.data key :: bs.map Beat.data) = .wait := by
  rw [fetchRun, hok]
  simp only [takeBytes_short _ bs hshort]

theorem countFault_zero (exp : Nat) : countFault exp 0 = some .zerocnt := rfl

theorem countFault_over {exp count : Nat} (h : exp < count) : countFault exp count = some .overrun := by
  rw [countFault, if_neg (by omega), if_pos h]

/-- Settles O41: each bad head of the queue is what the fetch of the next run answers. -/
theorem decoderStopsAtTheFirstBadBeat : Obligations.DecoderStopsAtTheFirstBadBeat := by
  intro rs L X hlegal hleft S left
  have raised {q rest : List Beat} {c : Cause} {info : Word} (hf : fetchRun left q = .raise c info rest) :
      rleDecF (S ++ q) L = .raise c info rest := rleDecF_raise_after_runs hlegal hleft hf
  have waits {q : List Beat} (hf : fetchRun left q = .wait) : rleDecF (S ++ q) L = .wait :=
    rleDecF_wait_after_runs hlegal hleft hf
  refine ⟨raised rfl, ?_, fun key => ⟨fun hzero => ?_, fun hover => ?_, fun hpos hle bs hshort => ?_⟩⟩
  · simpa using waits (q := []) rfl
  · exact raised (fetchRun_countFault _ key X _ (hzero ▸ countFault_zero left))
  · exact raised (fetchRun_countFault _ key X _ (countFault_over hover))
  · have hok := countFault_none left (keyCount key) hpos hle
    rw [List.append_assoc]
    exact ⟨raised (fetchRun_payload_eos hok hshort X), waits (fetchRun_payload_short hok hshort)⟩

end Sys2Proof.Machine
end

section
/-! SUPPORT. `RLEDEC` (R170), and the runs `REP` and `LIT` as instructions of the interpreter (R166, R167). -/

namespace Sys2Proof.Machine

/-! ## `RLEDEC` -/

theorem decodeFor_done (b : Busy) {L : Nat} {s : State} {out : List Byte} {rest : List Beat}
    (h : rleDecF s.byteIn L = .done out rest) : decodeFor b L s = finishDecode b out { s with byteIn := rest } := by
  rw [decodeFor, h]

/-- `RLEDEC` of a length above `MAX_LEN` (R170, R201). -/
theorem execRledec_beyond (len : Word) (s : State) (hf : s.faulted = false) (hlen : s.maxLen < len.toNat) :
    execRledec len s = .next (s.raise .badarg len) := by
  rw [execRledec, precheck_pass _ _ _ _ hf (by simp), if_pos hlen]

/-- Settles O43: `RLEDEC` answers as `RleDecF` does, and between commands the end of the command changes nothing more. -/
theorem rledecEmitsTheDecoding : Obligations.RledecEmitsTheDecoding := by
  refine ⟨fun s len rs rest hf hbetween hlegal hcount hlen hq => ?_, fun s len => execRledec_beyond len s,
    fun s len c info rest hf hlen hraise => (execRledec_legal len s hf hlen).trans (decodeFor_raise _ hraise)⟩
  have hdec : rleDecF s.byteIn len.toNat = .done (logicalOf rs) rest := by
    rw [hq, ← hcount]
    exact rleDecF_runs hlegal rest
  calc exec (.rledec len) s
      = .next ({ s with byteIn := rest }.emitBytes (logicalOf rs)).endCommand :=
        (execRledec_legal len s hf hlen).trans (decodeFor_done _ hdec)
    _ = .next { s with byteIn := rest, byteOut := s.byteOut ++ logicalOf rs } :=
        congrArg Host.Outcome.next
          (endCommand_of_between (s := { s with byteIn := rest }.emitBytes (logicalOf rs)) hbetween)

/-! ## One run -/

/-- A run that fits takes its payload, and then adds what it stands for to `out` and lowers `exp` by its count. -/
theorem exec_runOf_fits {key : Byte} {payload : List Byte} {s : State} (hlen : payload.length = payloadLen key)
    (hok : countFault s.dec.exp (keyCount key) = none) :
    exec (runOf key payload) s = withBytes (payloadLen key) s fun _ s => .next { s with
      dec := { s.dec with exp := s.dec.exp - keyCount key, wb := s.dec.wb ++ (runOf key payload).logical } } := by
  cases hl : keyIsLit key with
  | true =>
    simp only [payloadLen, hl, if_true] at hlen
    simp [runOf, hl, exec, execLit, litRun, Instr.logical, payloadLen, hlen, hok]
  | false => simp [runOf, hl, exec, execRep, repRun, Instr.logical, payloadLen, toNat_mod_eq_keyCount, hok]

/-- Settles O44: the count is tested first, and then the payload is taken. -/
theorem runsAppendTheirBytes : Obligations.RunsAppendTheirBytes := by
  refine ⟨fun i s hrun hwf => ?_, fun s v => ⟨rfl, rfl⟩⟩
  obtain ⟨key, payload, rfl, hlen, hcount⟩ := exists_runOf i hrun hwf
  rw [runOf_runBytes key payload hlen, runOf_logical_length key payload hlen]
  have fits (hle : keyCount key ≤ s.dec.exp) := exec_runOf_fits hlen (countFault_none s.dec.exp _ (by omega) hle)
  refine ⟨fun rest hle hq => ?_, fun hover => ?_, fun bs rest hle hq hshort => ?_⟩
  · rw [fits hle, withBytes_got _ _ _ payload rest hlen hq]
  · exact exec_runOf_countFault key payload s _ hlen (countFault_over hover)
  · rw [fits hle, withBytes_eos _ _ _ bs rest (by simp only [List.length_cons] at hshort; omega) hq]

end Sys2Proof.Machine
end

section
/-! SUPPORT. The interpreter run by run (R160 to R162, log 4): it goes through the states inside a decoding command in step with
the loop of `RleDecF`, and ends in the answer of the command. -/

namespace Sys2Proof.Machine

/-- What a decoding command answers, by what `RleDecF` gave it (R170, R183). -/
def Decoded.answer (b : Busy) (s : State) : Decoded → Result
  | .done out rest => finishDecode b out { s with byteIn := rest }
  | .raise c info rest => .next ({ s with byteIn := rest }.raise c info)
  | .wait => .fault .waitsForByte

theorem decodeFor_eq_answer (b : Busy) (L : Nat) (s : State) : decodeFor b L s = (rleDecF s.byteIn L).answer b s := by
  rw [decodeFor]
  cases rleDecF s.byteIn L <;> rfl

/-- The state inside a decoding command that began in `s`, its decoder at `d` with the beats `q` ahead. -/
def State.decoding (s : State) (b : Busy) (d : Decoder) (q : List Beat) : State :=
  { s with busy := some b, dec := d, byteIn := q }

theorem State.beginDecode_eq_decoding (s : State) (b : Busy) (L : Nat) :
    s.beginDecode b L = s.decoding b (Decoder.start L) s.byteIn := rfl

/-! ## The end of the command -/

/-- The end of the command clears what was in progress. -/
theorem finishDecode_decoding (s : State) (b : Busy) (d : Decoder) (q : List Beat) (out : List Byte) :
    finishDecode b out (s.decoding b d q) = finishDecode b out { s with byteIn := q } := by
  cases b <;> rfl

theorem finishDecode_not_busy {b : Busy} {out : List Byte} {s t : State} (h : finishDecode b out s = .next t) :
    t.busy = none := by
  cases b with
  | rledec => cases h; rfl
  | decf => obtain ⟨-, rfl⟩ := finishDecode_decf_next h; rfl

/-! ## Interpreter steps -/

theorem decodeTicks_not_busy (fuel : Nat) {s : State} (h : s.busy = none) : decodeTicks fuel s = .next s := by
  cases fuel with
  | zero => rfl
  | succ fuel => rw [decodeTicks, h]

theorem decodeTicks_next {fuel : Nat} {b : Busy} {s t : State} (hbusy : s.busy = some b) (h : decodeTick b s = .next t) :
    decodeTicks (fuel + 1) s = decodeTicks fuel t := by
  simp only [decodeTicks, hbusy, h]

/-- A step after which no command is in progress, or which stops, is the last. -/
theorem decodeTicks_last {fuel : Nat} {b : Busy} {s : State} {r : Result} (hbusy : s.busy = some b)
    (h : decodeTick b s = r) (hend : ∀ t, r = .next t → t.busy = none) : decodeTicks (fuel + 1) s = r := by
  cases r with
  | next t => rw [decodeTicks_next hbusy h, decodeTicks_not_busy fuel (hend t rfl)]
  | fault f => simp only [decodeTicks, hbusy, h]
  | refused f => simp only [decodeTicks, hbusy, h]

/-- A run that was fetched takes the interpreter to the decoder's registers after it and the beats after it. -/
theorem decodeTick_decoding_run {s : State} {b : Busy} {d : Decoder} {q : List Beat} (hexp : d.exp ≠ 0) {key : Byte}
    {payload : List Byte} {afterKey rest : List Beat} (hf : fetchRun d.exp q = .run key payload afterKey rest) :
    decodeTick b (s.decoding b d q) = .next (s.decoding b (applyRun key payload d) rest) := by
  obtain ⟨hok, hlen, rfl⟩ := fetchRun_eq_run hf
  rw [decodeTick_fetched (s := s.decoding b d _) b hexp hf, exec_runOf_fits hlen hok,
    withBytes_got _ _ _ payload rest hlen rfl, applyRun_eq d hlen]
  rfl

theorem decodeTicks_decoding_done {fuel : Nat} {d : Decoder} (s : State) (b : Busy) (q : List Beat) (hexp : d.exp = 0) :
    decodeTicks (fuel + 1) (s.decoding b d q) = (decLoop fuel d q).answer b s := by
  rw [decLoop_zero_exp fuel d q hexp, decodeTicks_last rfl (decodeTick_done b hexp) fun _ => finishDecode_not_busy]
  exact finishDecode_decoding s b d q d.wb

/-- With a step for every byte wanted and one for the end, the interpreter answers as the command does after the loop. -/
theorem decodeTicks_decoding {fuel : Nat} {d : Decoder} (s : State) (b : Busy) (q : List Beat) (hfuel : d.exp ≤ fuel) :
    decodeTicks (fuel + 1) (s.decoding b d q) = (decLoop fuel d q).answer b s := by
  induction fuel generalizing d q with
  | zero => exact decodeTicks_decoding_done s b q (Nat.le_zero.1 hfuel)
  | succ fuel ih =>
    by_cases hexp : d.exp = 0
    · exact decodeTicks_decoding_done s b q hexp
    · cases hf : fetchRun d.exp q with
      | wait =>
        rw [decLoop_wait hexp hf, decodeTicks_last rfl (decodeTick_waits b hexp hf) fun _ => nofun]
        rfl
      | raise c info rest =>
        rw [decLoop_raise hexp hf, decodeTicks_last rfl (decodeTick_raised b hexp hf) fun _ h => by cases h; rfl]
        rfl
      | run key payload afterKey rest =>
        obtain ⟨hok, hlen, -⟩ := fetchRun_eq_run hf
        obtain ⟨hpos, -⟩ := countFault_eq_none hok
        have hless : (applyRun key payload d).exp ≤ fuel := by rw [applyRun_exp d hlen]; omega
        rw [decLoop_run hexp hf, decodeTicks_next rfl (decodeTick_decoding_run hexp hf), ih rest hless]

theorem decodeTicks_beginDecode (s : State) (b : Busy) (L : Nat) :
    decodeTicks (L + 1) (s.beginDecode b L) = decodeFor b L s := by
  rw [State.beginDecode_eq_decoding, decodeFor_eq_answer]
  exact decodeTicks_decoding s b s.byteIn le_rfl

/-- Settles O45: past their checks both commands decode, and the interpreter answers what they do. -/
theorem runByRunEqualsTheCommand : Obligations.RunByRunEqualsTheCommand := fun s len hf _ =>
  ⟨fun hlen => (decodeTicks_beginDecode s .rledec len.toNat).trans (execRledec_legal len s hf hlen).symm,
    fun hc => (decodeTicks_beginDecode s .decf s.psz).trans (precheck_ready opDecf s _ ⟨hf, hc⟩).symm⟩

end Sys2Proof.Machine
end

section
/-! SUPPORT. `ENCF` and `DECF` on a ready block (R181, R183), and as the commands that each is made of (R182, R184). -/

namespace Sys2Proof.Machine

theorem exec_encf_ready {s : State} (hs : s.ready) (hfits : s.fits) (hcodes : s.npix ≤ s.codeIn.length) :
    exec .encf s = .next ((({ s with codeIn := s.codeIn.drop s.npix }.emitBytes
      (rleEncF (deltaF s.frame (packF (s.codeIn.take s.npix)) s.tailMask))).storeFrame
        (packF (s.codeIn.take s.npix))).countFrame).endCommand :=
  ((precheck_ready opEncf s _ hs).trans (withCodes_enough _ _ _ hcodes)).trans
    (withFrame_fits { s with codeIn := s.codeIn.drop s.npix } _ hfits)

theorem exec_decf_ready {s : State} {d : List Byte} {rest : List Beat} (hs : s.ready) (hfits : s.fits)
    (hdec : rleDecF s.byteIn s.psz = .done d rest) :
    exec .decf s = .next (({ s with byteIn := rest }.storeFrame (xorF s.frame d)).countFrame).endCommand :=
  ((precheck_ready opDecf s _ hs).trans (decodeFor_done .decf hdec)).trans
    (withFrame_fits { s with byteIn := rest } _ hfits)

/-- Settles O46: between commands the end of the command changes nothing more, and the store takes the packed frame. -/
theorem encfEmitsTheEncodedDelta : Obligations.EncfEmitsTheEncodedDelta := fun s hs hfits hbetween hwf hcodes =>
  ⟨_, exec_encf_ready hs hfits hcodes, endCommand_of_between hbetween, read_storeFrame hwf (packF_take_length s hcodes)⟩

/-- Settles O47: past its checks `DECF` answers as `RleDecF` does, and the store takes the XOR of the held frame and the decoded
bytes. -/
theorem decfFoldsTheDecodedDelta : Obligations.DecfFoldsTheDecodedDelta := by
  refine ⟨fun s rs rest hs hfits hbetween hwf hlegal hcount hq => ?_,
    fun s c info rest hs hraise => (precheck_ready opDecf s _ hs).trans (decodeFor_raise _ hraise)⟩
  have hdec : rleDecF s.byteIn s.psz = .done (logicalOf rs) rest := by
    rw [hq, ← hcount]
    exact rleDecF_runs hlegal rest
  refine ⟨_, exec_decf_ready hs hfits hdec, endCommand_of_between hbetween, fun j => ?_⟩
  refine (read_storeFrame hwf (xorF_frame_length hcount) j).trans (ite_congr rfl (fun hj => ?_) fun _ => rfl)
  rw [xorF_getD_of_length_eq (by rw [frame_length, hcount]), frame_getD s j hj]

/-- A frame length within the store is an operand of `RLEENC` and `RLEDEC` (R11, R72). -/
theorem toNat_ofNat_psz {s : State} (hfits : s.fits) : (BitVec.ofNat 32 s.psz).toNat = s.psz := by
  have hcap : s.cap.toNat < 2 ^ 32 := s.cap.isLt
  have hlen : s.psz ≤ (3 * s.cap.toNat + 7) / 8 := hfits
  exact Nat.mod_eq_of_lt (by omega)

/-- Settles O48: `PACK` packs the frame that `ENCF` packs, `DELTA` takes it against the same held frame and stores it, and
`RLEENC` encodes the delta. -/
theorem encfEqualsItsParts : Obligations.EncfEqualsItsParts := by
  intro s hs hfits hbetween hcodes
  have hpsz := toNat_ofNat_psz hfits
  have hp := packF_take_length s hcodes
  have hd := (deltaF_length ((frame_length s).trans hp.symm) s.tailMask).trans hp
  exact ⟨_, _, _, _, _, _, _, exec_encf_ready hs hfits hcodes,
    packEmitsThePackedFrame s hs hbetween hcodes, rfl,
    exec_delta_ready hs hfits hp (List.append_nil _).symm, rfl,
    rleencEmitsTheEncoding.1 _ _ _ [] hs.1 hbetween (hd.trans hpsz.symm) (hpsz.trans_le hfits) (List.append_nil _).symm, rfl,
    rfl, rfl, rfl, rfl⟩

/-- Settles O49: `RLEDEC` takes the runs that `DECF` takes, and `FOLD` XORs what they stand for into the same held frame. -/
theorem decfEqualsItsParts : Obligations.DecfEqualsItsParts := by
  intro s d rest hs hfits hbetween hdec
  have hpsz := toNat_ofNat_psz hfits
  obtain ⟨rs, hlegal, hq, rfl, hd⟩ := (decoderDecodesExactlyLegalRuns _ _ d rest).1 hdec
  exact ⟨_, _, _, exec_decf_ready hs hfits hdec,
    rledecEmitsTheDecoding.1 s _ rs rest hs.1 hbetween hlegal (hd.trans hpsz.symm) (hpsz.trans_le hfits) hq, rfl,
    exec_fold_ready hs hfits hd (List.append_nil _).symm, rfl, rfl, rfl, rfl⟩

end Sys2Proof.Machine
end

section
/-! SUPPORT. A sequence of frames through `ENCF` in one block and `DECF` in another (R185). -/

namespace Sys2Proof.Machine

/-! ## Packed frames -/

theorem packF_length_frame {s : State} {c : List Code} (hlen : c.length = s.npix) : (packF c).length = s.psz := by
  rw [packF_length, hlen, packedLen_npix]

/-- Unpacking a packed frame gives its codes back (R107). -/
theorem unpackF_packF (c : List Code) : unpackF (packF c) c.length = c := by
  refine List.ext_getElem (unpackF_length _ _) fun i _ hi => ?_
  simp [unpackF, extractF_packF, hi]

/-- The pad bits of a packed frame are clear already. -/
theorem maskF_packF {s : State} {c : List Code} (hlen : c.length = s.npix) : maskF (packF c) s.tailMask = packF c := by
  have h := packF_unpackF (packF c) (packF_length c)
  rw [unpackF_packF, hlen] at h
  exact h.symm

/-! ## One frame -/

theorem SameSetup.npix {s t : State} (h : SameSetup s t) : t.npix = s.npix := by
  rw [State.npix, State.npix, State.width, State.width, State.height, State.height, h.cfgW, h.cfgH]

/-- A block in the middle of a sequence: it can take the next frame, and the frame that it holds has its pad bits clear. -/
structure State.InSequence (s : State) : Prop where
  ready : s.ready
  fits : s.fits
  fsWf : Memory.wf s.fs
  padClear : maskF s.frame s.tailMask = s.frame

/-- A decoder that keeps step with an encoder: the same setup, and the same frame store (R185). -/
structure InStep (e d : State) : Prop where
  setup : SameSetup e d
  fs : d.fs = e.fs

theorem InStep.frame {e d : State} (h : InStep e d) : d.frame = e.frame := by
  rw [State.frame, State.frame, h.setup.psz, h.fs]

/-- `n` `ENCF`s lead an encoder from `e` to `e'`, and `n` `DECF`s of what they emit lead every decoder in step with `e` to one in
step with `e'`, which has taken exactly those bytes. -/
structure Carries (n : Nat) (e e' : State) (bytes : List Byte) : Prop where
  encodes : execAll (List.replicate n .encf) e = .next e'
  setup : SameSetup e e'
  byteOut : e'.byteOut = e.byteOut ++ bytes
  decodes : ∀ {d : State} {X : List Beat}, InStep e d → d.byteIn = bytes.map Beat.data ++ X →
    ∃ d', execAll (List.replicate n .decf) d = .next d' ∧ InStep e' d' ∧ d'.byteIn = X ∧ d'.codeOut = d.codeOut

/-- The decoder's fold of an encoder's delta gives the encoder's new frame, byte for byte, where no pad bit is set. -/
theorem xorF_deltaF_of_padClear {f p : List Byte} {m : Byte} (hlen : f.length = p.length) (hf : maskF f m = f)
    (hp : maskF p m = p) : xorF f (deltaF f p m) = p := by
  have h := xorF_maskF_deltaF hlen m
  rwa [hf, hp] at h

/-- `DECF` of what an encoder in step made of the frame `p` stores `p` itself. -/
theorem exec_decf_frame {e d : State} {p : List Byte} {X : List Beat} (he : e.InSequence) (hed : InStep e d)
    (hlen : p.length = e.psz) (hp : maskF p e.tailMask = p)
    (hq : d.byteIn = (rleEncF (deltaF e.frame p e.tailMask)).map Beat.data ++ X) :
    exec .decf d = .next (({ d with byteIn := X }.storeFrame p).countFrame).endCommand := by
  have hframe : e.frame.length = p.length := by rw [frame_length, hlen]
  have hdec : rleDecF d.byteIn d.psz = .done (deltaF e.frame p e.tailMask) X := by
    rw [hq, hed.setup.psz, ← hlen, ← deltaF_length hframe e.tailMask]
    exact rleRoundTrip _ X
  rw [exec_decf_ready (hed.setup.ready he.ready) (hed.setup.fits he.fits) hdec, hed.frame,
    xorF_deltaF_of_padClear hframe he.padClear hp]

/-- One frame: the encoder stores it packed and holds it for the next one. -/
theorem carries_frame {e : State} {c rest : List Code} (he : e.InSequence) (hlen : c.length = e.npix)
    (hq : e.codeIn = c ++ rest) :
    ∃ e' bytes, Carries 1 e e' bytes ∧ e'.InSequence ∧ e'.codeIn = rest ∧ e'.frame = packF c := by
  have htake : e.codeIn.take e.npix = c := by rw [hq, ← hlen, List.take_left]
  have hdrop : e.codeIn.drop e.npix = rest := by rw [hq, ← hlen, List.drop_left]
  have hp := packF_length_frame hlen
  have hone := exec_encf_ready he.ready he.fits (by rw [hq, ← hlen, List.length_append]; omega)
  rw [htake, hdrop] at hone
  have hholds := storeFrame_frame he.fsWf hp
  refine ⟨_, rleEncF (deltaF e.frame (packF c) e.tailMask),
    ⟨execAll_cons [] hone, ⟨rfl, rfl, rfl, rfl⟩, rfl, fun hed hb => ?_⟩,
    ⟨he.ready, he.fits, Memory.writeFrom_wf e.fs 0 _ he.fsWf, ?_⟩, rfl, hholds⟩
  · refine ⟨_, execAll_cons [] (exec_decf_frame he hed hp (maskF_packF hlen) hb), ?_, rfl, rfl⟩
    exact ⟨⟨hed.setup.cfgW, hed.setup.cfgH, hed.setup.cap, hed.setup.status⟩,
      congrArg (Memory.writeFrom · 0 (packF c)) hed.fs⟩
  · exact (congrArg (maskF · e.tailMask) hholds).trans ((maskF_packF hlen).trans hholds.symm)

/-! ## Many frames -/

theorem execAll_append {is : List Instr} (js : List Instr) {s t : State} (h : execAll is s = .next t) :
    execAll (is ++ js) s = execAll js t := by
  induction is generalizing s with
  | nil => cases h; rfl
  | cons i is ih =>
    cases hone : exec i s with
    | next u =>
      rw [execAll_cons _ hone] at h
      exact (execAll_cons _ hone).trans (ih h)
    | fault r => simp [execAll, hone] at h
    | refused r => simp [execAll, hone] at h

theorem Carries.refl (e : State) : Carries 0 e e [] :=
  ⟨rfl, ⟨rfl, rfl, rfl, rfl⟩, (List.append_nil _).symm, fun hed hb => ⟨_, rfl, hed, hb, rfl⟩⟩

theorem Carries.trans {n m : Nat} {e e' e'' : State} {bytes bytes' : List Byte} (h : Carries n e e' bytes)
    (h' : Carries m e' e'' bytes') : Carries (n + m) e e'' (bytes ++ bytes') where
  encodes := by rw [List.replicate_add, execAll_append _ h.encodes, h'.encodes]
  setup := ⟨h'.setup.cfgW.trans h.setup.cfgW, h'.setup.cfgH.trans h.setup.cfgH, h'.setup.cap.trans h.setup.cap,
    h'.setup.status.trans h.setup.status⟩
  byteOut := by rw [h'.byteOut, h.byteOut, List.append_assoc]
  decodes := by
    intro d X hed hb
    rw [List.map_append, List.append_assoc] at hb
    obtain ⟨d', hrun, hed', hb', hout⟩ := h.decodes hed hb
    obtain ⟨d'', hrun', hed'', hb'', hout'⟩ := h'.decodes hed' hb'
    exact ⟨d'', by rw [List.replicate_add, execAll_append _ hrun, hrun'], hed'', hb'', hout'.trans hout⟩

theorem carries_frames (cs : List (List Code)) {e : State} {rest : List Code} (he : e.InSequence)
    (hlen : ∀ c ∈ cs, c.length = e.npix) (hq : e.codeIn = cs.flatten ++ rest) :
    ∃ e' bytes, Carries cs.length e e' bytes ∧ e'.InSequence ∧ e'.codeIn = rest := by
  induction cs generalizing e with
  | nil => exact ⟨e, [], Carries.refl e, he, hq⟩
  | cons c cs ih =>
    obtain ⟨hc, hcs⟩ := List.forall_mem_cons.1 hlen
    rw [List.flatten_cons, List.append_assoc] at hq
    obtain ⟨e₁, bytes, hone, he₁, hq₁, -⟩ := carries_frame he hc hq
    obtain ⟨e₂, bytes', hmore, he₂, hq₂⟩ := ih he₁ (hone.setup.npix ▸ hcs) hq₁
    refine ⟨e₂, bytes ++ bytes', ?_, he₂, hq₂⟩
    rw [List.length_cons, Nat.add_comm]
    exact hone.trans hmore

/-- The frames up to and with `c`, and then those after it. -/
theorem carries_split (pre : List (List Code)) (c : List Code) (post : List (List Code)) {s : State} (hs : s.InSequence)
    (hlen : ∀ a ∈ pre ++ c :: post, a.length = s.npix) (hq : s.codeIn = (pre ++ c :: post).flatten) :
    ∃ ek e bytes bytes', Carries (pre.length + 1) s ek bytes ∧ Carries post.length ek e bytes' ∧
      ek.InSequence ∧ ek.frame = packF c := by
  rw [List.forall_mem_append, List.forall_mem_cons] at hlen
  obtain ⟨hpre, hc, hpost⟩ := hlen
  obtain ⟨e₀, b₀, h₀, he₀, hq₀⟩ := carries_frames pre hs hpre (hq.trans List.flatten_append)
  obtain ⟨ek, b₁, h₁, hek, hqk, hframe⟩ := carries_frame he₀ (hc.trans h₀.setup.npix.symm) hq₀
  have hpath := h₀.trans h₁
  obtain ⟨e, b₂, h₂, -, -⟩ :=
    carries_frames (rest := []) post hek (hpath.setup.npix ▸ hpost) (hqk.trans (List.append_nil _).symm)
  exact ⟨ek, e, _, b₂, hpath, h₂, hek, hframe⟩

/-- A configured block whose store is zero is at the start of a sequence (R185). -/
theorem inSequence_of_fs_nil {s : State} (hs : s.ready) (hfits : s.fits) (hfs : s.fs = []) : s.InSequence :=
  ⟨hs, hfits, hfs ▸ Memory.wf_nil, by rw [frame_of_fs_nil hfs, maskF_replicate_zero]⟩

/-- `UNPACK` of a packed frame emits its codes. -/
theorem exec_unpack_packF {s : State} {c : List Code} (hs : s.ready) (hfits : s.fits) (hlen : c.length = s.npix)
    (hframe : s.frame = packF c) : exec .unpack s = .next (s.emitCodes c) := by
  rw [exec_unpack_ready hs hfits, hframe, ← hlen, unpackF_packF]

/-- Settles O50: the frames up to the `k`-th and then those after it, carried from encoder to decoder; after the `k`-th the decoder
holds it packed, and `UNPACK` reads its codes. -/
theorem wholePathRoundTrip : Obligations.WholePathRoundTrip := by
  intro s cs X k hs hfits hfs _ hlen hk
  obtain ⟨pre, c, post, rfl, rfl⟩ : ∃ pre c post, cs = pre ++ c :: post ∧ k = pre.length :=
    ⟨cs.take k, cs[k], cs.drop (k + 1), by simp, by simp [hk.le]⟩
  have hc : c.length = s.npix := hlen c (by simp)
  have hget : (pre ++ c :: post).getD pre.length [] = c := by simp
  have hcount : (pre ++ c :: post).length = pre.length + 1 + post.length := by
    rw [List.length_append, List.length_cons]; omega
  obtain ⟨ek, e, bytes, bytes', hpath, hmore, hek, hframe⟩ := carries_split pre c post
    (inSequence_of_fs_nil (s := { s with codeIn := (pre ++ c :: post).flatten, byteOut := [] }) hs hfits hfs) hlen rfl
  have hall := hpath.trans hmore
  have hbytes : e.byteOut.map Beat.data ++ X = bytes.map Beat.data ++ (bytes'.map Beat.data ++ X) := by
    rw [hall.byteOut, List.nil_append, List.map_append, List.append_assoc]
  obtain ⟨dk, hdec, hstep, htaken, hcodes⟩ := hpath.decodes
    (d := { s with byteIn := e.byteOut.map Beat.data ++ X }) ⟨⟨rfl, rfl, rfl, rfl⟩, rfl⟩ hbytes
  have hdk : dk.frame = packF c := hstep.frame.trans hframe
  have hnpix : c.length = dk.npix := hc.trans (hstep.setup.npix.trans hpath.setup.npix).symm
  rw [hget, hcount]
  refine ⟨e, ek, dk, _, hall.encodes, hpath.encodes, hdec, hstep.fs, hdk, ?_,
    exec_unpack_packF (hstep.setup.ready hek.ready) (hstep.setup.fits hek.fits) hnpix hdk, congrArg (· ++ c) hcodes⟩
  rw [htaken, hmore.byteOut, List.drop_left]

end Sys2Proof.Machine
end

section
/-! SUPPORT. The control commands (R191 to R194) on a block that records no fault: the state that each answers, and what a write of
`CONFIGURED` keeps of `STATUS`. -/

namespace Sys2Proof.Machine

/-! ## `CONFIGURED` -/

/-- A write of `CONFIGURED` touches bit 0 only (R28). -/
theorem getLsbD_statusSetConfigured (st : Word) (b : Bool) {k : Nat} (hk : 1 ≤ k) :
    (statusSetConfigured st b).getLsbD k = st.getLsbD k := by
  have hmask : 0xFFFFFFFE#32 = ~~~1#32 := by decide
  have hone : (1#32).getLsbD k = false := by simp [BitVec.getLsbD_one]; omega
  have hnew : (if b then 1#32 else 0#32).getLsbD k = false := by
    cases b
    · exact BitVec.getLsbD_zero
    · exact hone
  rw [statusSetConfigured, BitVec.getLsbD_or, hnew, Bool.or_false, BitVec.getLsbD_and, hmask, BitVec.getLsbD_not, hone]
  by_cases hlt : k < 32
  · simp [hlt]
  · simp [BitVec.getLsbD_of_ge st k (by omega)]

/-! ## The geometry registers -/

theorem exec_setw (arg : Word) {s : State} (hf : s.faulted = false) :
    exec (.setw arg) s = .next ({ s with cfgW := arg }.setConfigured false) :=
  precheck_pass _ _ _ _ hf nofun

theorem exec_seth (arg : Word) {s : State} (hf : s.faulted = false) :
    exec (.seth arg) s = .next ({ s with cfgH := arg }.setConfigured false) :=
  precheck_pass _ _ _ _ hf nofun

/-! ## `INIT` -/

/-- Past its check, `INIT` asks only whether the geometry is legal. -/
theorem exec_init_unfaulted {s : State} (hf : s.faulted = false) :
    exec .init s = if s.legalGeometry then .next ({ s with fs := [], frames := 0 }.setConfigured true)
      else .next (s.raise .badcfg 0) :=
  precheck_pass _ _ _ _ hf nofun

theorem exec_init_legal {s : State} (hf : s.faulted = false) (h : s.legalGeometry = true) :
    exec .init s = .next ({ s with fs := [], frames := 0 }.setConfigured true) := by
  rw [exec_init_unfaulted hf, if_pos h]

theorem exec_init_illegal {s : State} (hf : s.faulted = false) (h : ¬ s.legalGeometry = true) :
    exec .init s = .next (s.raise .badcfg 0) := by
  rw [exec_init_unfaulted hf, if_neg h]

/-- The illegal geometries: an empty side, or more pixels than the capacity (R194). -/
theorem not_legalGeometry {s : State}
    (h : s.cfgW = 0 ∨ s.cfgH = 0 ∨ s.cap.toNat < s.cfgW.toNat * s.cfgH.toNat) : ¬ s.legalGeometry = true := by
  rw [legalGeometry_iff]
  rintro ⟨hw, hh, hfits⟩
  rcases h with h | h | h
  · simp [State.width, h] at hw
  · simp [State.height, h] at hh
  · exact absurd hfits (Nat.not_le.mpr h)

/-- Settles O54: `INIT` passes exactly the legal geometries, and an empty store reads 0 everywhere. -/
theorem initChecksTheGeometry : Obligations.InitChecksTheGeometry := by
  intro s hf
  refine ⟨fun hw hh hfits => ?_, fun hbad => exec_init_illegal hf (not_legalGeometry hbad)⟩
  have hlegal : s.legalGeometry = true := (legalGeometry_iff s).mpr ⟨hw, hh, hfits⟩
  exact ⟨_, exec_init_legal hf hlegal, rfl, setConfigured_configured _ _,
    fun _ hk => getLsbD_statusSetConfigured _ _ hk, Memory.read_nil⟩

/-! ## The other control commands -/

/-- Settles O51: `RST` is the soft reset, whose fields are those of the reset state. -/
theorem rstGivesTheResetState : Obligations.RstGivesTheResetState := fun s => execRst_eq s

/-- Settles O53: each writes its register, and then the bit `CONFIGURED` only. -/
theorem setwAndSethWriteTheGeometry : Obligations.SetwAndSethWriteTheGeometry := fun _ arg hf =>
  ⟨⟨_, exec_setw arg hf, rfl, setConfigured_configured _ _, fun _ hk => getLsbD_statusSetConfigured _ _ hk⟩,
    ⟨_, exec_seth arg hf, rfl, setConfigured_configured _ _, fun _ hk => getLsbD_statusSetConfigured _ _ hk⟩⟩

end Sys2Proof.Machine
end

section
/-! SUPPORT. What a recorded fault means for the commands that follow it (R206), and what a missing geometry means for the commands
that need one (R204). -/

namespace Sys2Proof.Machine

/-- Settles O55: each of the eight commands stops at its check, before it looks at its argument or its input. -/
theorem unconfiguredCommandsRaiseNocfg : Obligations.UnconfiguredCommandsRaiseNocfg := by
  intro i s op hneed hop hf hc
  cases i with
  | pack | delta | encf | fold | decf | extract | unpack | dump =>
    cases hop
    exact precheck_unconfigured _ s _ hf hc
  | _ => cases hneed

/-- A faulted block drops every command but `RST`. -/
theorem exec_faulted {i : Instr} {s : State} (hcmd : i.isCommand = true) (hne : i ≠ .rst) (hf : s.faulted = true) :
    exec i s = .next s := by
  cases i with
  | rst => exact absurd rfl hne
  | rep | lit => cases hcmd
  | _ => exact precheck_faulted _ _ s _ hf

theorem illegalCommand_faulted {op : Byte} {s : State} (hf : s.faulted = true) : illegalCommand op s = .next s :=
  if_pos hf

/-- Settles O56: a word that decodes is a command other than `RST`, which is dropped, and so is a reserved word. -/
theorem aFaultIsSticky : Obligations.AFaultIsSticky := by
  intro s w rest hbusy hf hcmd hop
  cases hdec : decodeCmd w with
  | ok i =>
    have hne : i ≠ .rst := by
      rintro rfl
      exact hop (Option.some.inj (decodeCmd_iff.1 hdec).1).symm
    rw [step_command s w rest i hbusy hcmd hdec]
    exact exec_faulted (decodeCmd_isCommand w i hdec) hne hf
  | error e =>
    rw [step_reserved s w rest e hbusy hcmd hdec]
    exact illegalCommand_faulted hf

/-- A word with the opcode of `RST` is carried out whatever `STATUS.FAULT` is (R191). -/
theorem step_rst {s : State} {w : CmdWord} {rest : List CmdWord} (hbusy : s.busy = none) (hcmd : s.cmd = w :: rest)
    (hop : opOf w = opRst) : step s = .next { s with cmd := rest }.softReset := by
  have hdec : decodeCmd w = .ok .rst := decodeCmd_iff.2 ⟨congrArg some hop.symm, rfl⟩
  exact step_command s w rest .rst hbusy hcmd hdec

/-- A command word taken by a faulted block takes no data beat. -/
theorem step_faulted_keeps_data {s t : State} {w : CmdWord} {rest : List CmdWord} (hbusy : s.busy = none)
    (hf : s.faulted = true) (hcmd : s.cmd = w :: rest) (h : step s = .next t) :
    t.byteIn = s.byteIn ∧ t.codeIn = s.codeIn := by
  by_cases hop : opOf w = opRst
  · cases (step_rst hbusy hcmd hop).symm.trans h
    exact ⟨rfl, rfl⟩
  · cases (aFaultIsSticky s w rest hbusy hf hcmd hop).symm.trans h
    exact ⟨rfl, rfl⟩

end Sys2Proof.Machine
end

section
/-! SUPPORT. Where the decoder's input goes wrong (R164, R165, R168, R209). -/

namespace Sys2Proof.Machine

/-- The faults that beats of `byte_in` can be the cause of, each with its information and the beats left: an `Eos` after data
beats, or a key with a bad count after complete runs (R209). -/
inductive BadStream (q : List Beat) : Cause → Word → List Beat → Prop
  | eos {bs : List Byte} {rest : List Beat} (hq : q = bs.map Beat.data ++ .eos :: rest) : BadStream q .trunc 0 rest
  | zeroCount {rs : List Instr} {key : Byte} {rest : List Beat} (hlegal : legalRuns rs)
      (hq : q = beatsOf rs ++ .data key :: rest) (hkey : keyCount key = 0) : BadStream q .zerocnt (zext key) rest
  | overrun {rs : List Instr} {key : Byte} {rest : List Beat} (hlegal : legalRuns rs)
      (hq : q = beatsOf rs ++ .data key :: rest) (hkey : keyCount key ≠ 0) : BadStream q .overrun (zext key) rest

/-- What is wrong with the end of a stream is wrong with the stream that has one more run in front. -/
theorem BadStream.after_run {key : Byte} {payload : List Byte} {q rest : List Beat} {c : Cause} {info : Word}
    (h : BadStream q c info rest) (hlen : payload.length = payloadLen key) (hcount : keyCount key ≠ 0) :
    BadStream (.data key :: (payload.map Beat.data ++ q)) c info rest := by
  have hlegal {rs : List Instr} (hrs : legalRuns rs) : legalRuns (runOf key payload :: rs) :=
    List.forall_mem_cons.2 ⟨⟨runOf_isCommand key payload, runOf_wellFormed hlen hcount⟩, hrs⟩
  cases h with
  | @eos bs _ hq => exact .eos (bs := key :: (payload ++ bs)) (by simp [hq])
  | zeroCount hrs hq hkey => exact .zeroCount (hlegal hrs) (by rw [beatsOf_runOf_cons hlen, hq]) hkey
  | overrun hrs hq hkey => exact .overrun (hlegal hrs) (by rw [beatsOf_runOf_cons hlen, hq]) hkey

/-- A fetch raises a fault at an `Eos`, in place of the key or within the payload, or at the key. -/
theorem fetchRun_badStream {exp : Nat} {q rest : List Beat} {c : Cause} {info : Word}
    (h : fetchRun exp q = .raise c info rest) : BadStream q c info rest := by
  match q with
  | [] => cases h
  | .eos :: q => cases h; exact .eos (bs := []) rfl
  | .data key :: q =>
    rw [fetchRun] at h
    rcases countFault_cases exp (keyCount key) with ⟨hzero, e⟩ | ⟨hpos, -, e⟩ | ⟨-, -, e⟩
    · rw [e] at h; cases h
      exact .zeroCount (rs := []) nofun rfl hzero
    · rw [e] at h; cases h
      exact .overrun (rs := []) nofun rfl (by omega)
    · cases ht : takeBytes (payloadLen key) q with
      | got bs left => simp [e, ht] at h
      | wait => simp [e, ht] at h
      | trunc left =>
        simp only [e, ht] at h; cases h
        obtain ⟨bs, -, rfl⟩ := takeBytes_trunc _ _ _ ht
        exact .eos (bs := key :: bs) rfl

/-- The loop raises a fault at the first fetch that does, after the runs that it has taken. -/
theorem decLoop_badStream {fuel : Nat} {d : Decoder} {q rest : List Beat} {c : Cause} {info : Word}
    (h : decLoop fuel d q = .raise c info rest) : BadStream q c info rest := by
  have hexp : d.exp ≠ 0 := fun hexp => by rw [decLoop_zero_exp fuel d q hexp] at h; cases h
  induction fuel generalizing d q with
  | zero => rw [decLoop, if_neg hexp] at h; cases h
  | succ fuel ih =>
    cases hf : fetchRun d.exp q with
    | wait => cases (decLoop_wait hexp hf).symm.trans h
    | raise c info left => cases (decLoop_raise hexp hf).symm.trans h; exact fetchRun_badStream hf
    | run key payload afterKey left =>
      obtain ⟨hok, hlen, rfl⟩ := fetchRun_eq_run hf
      obtain ⟨hpos, -⟩ := countFault_eq_none hok
      have hloop := (decLoop_run hexp hf).symm.trans h
      have hexp' : (applyRun key payload d).exp ≠ 0 := fun hzero => by
        rw [decLoop_zero_exp fuel _ left hzero] at hloop; cases hloop
      exact (ih hloop hexp').after_run hlen (by omega)

theorem rleDecF_badStream {q rest : List Beat} {L : Nat} {c : Cause} {info : Word} (h : rleDecF q L = .raise c info rest) :
    BadStream q c info rest :=
  decLoop_badStream h

end Sys2Proof.Machine
end

section
/-! SUPPORT. All that an instruction can answer in a block that records no fault: each operation of the model is followed once, then
every instruction. -/

namespace Sys2Proof.Machine

/-- The instructions that take a number of bytes which is fixed before they take the first. -/
abbrev TakesBytes (i : Instr) : Prop :=
  i = .delta ∨ i = .fold ∨ (∃ a, i = .rleenc a) ∨ i.isCommand = false

/-- Why an instruction raises a fault, with the information recorded and the beats of `byte_in` left (R201, R209). -/
inductive Raises (i : Instr) (s : State) : Cause → Word → List Beat → Prop
  | nocfg {op : Byte} (hneed : i.needsConfigured = true) (hop : i.opcode = some op) (hc : s.configured = false) :
      Raises i s .nocfg (zext op) s.byteIn
  | badcfg (hi : i = .init) (hillegal : s.legalGeometry = false) : Raises i s .badcfg 0 s.byteIn
  | badarg {a : Word} (hi : i = .rleenc a ∧ s.maxLen < a.toNat ∨ i = .rledec a ∧ s.maxLen < a.toNat ∨
      i = .extract a ∧ s.configured = true ∧ s.npix ≤ a.toNat) : Raises i s .badarg a s.byteIn
  | trunc {bs : List Byte} {rest : List Beat} (hi : TakesBytes i) (hq : s.byteIn = bs.map Beat.data ++ .eos :: rest) :
      Raises i s .trunc 0 rest
  | stream {c : Cause} {info : Word} {rest : List Beat} (hi : i = .decf ∨ ∃ a, i = .rledec a)
      (hbad : BadStream s.byteIn c info rest) : Raises i s c info rest
  | overrun {key : Byte} (hi : i.isCommand = false) (hkey : keyCount key ≠ 0) : Raises i s .overrun (zext key) s.byteIn

/-- The answers of an instruction in a block that records no fault. -/
inductive Answers (i : Instr) (s : State) : Result → Prop
  | completes {t : State} (ht : t.faulted = false) : Answers i s (.next t)
  | raises {c : Cause} {info : Word} {rest : List Beat} (h : Raises i s c info rest) :
      Answers i s (.next ({ s with byteIn := rest }.raise c info))
  | waitsForCode : Answers i s (.fault .waitsForCode)
  | waitsForByte : Answers i s (.fault .waitsForByte)
  | noFrame (hc : s.configured = true) (hbig : s.maxLen < s.psz) : Answers i s (.fault .noSuchFrameByte)

namespace Answers

variable {i : Instr} {s : State}

/-- A fault raised with no beat taken. -/
theorem raises_here {c : Cause} {info : Word} (h : Raises i s c info s.byteIn) : Answers i s (.next (s.raise c info)) :=
  .raises h

/-- A command that needs no geometry. -/
theorem precheck_free {op : Byte} {body : Result} (hf : s.faulted = false) (h : Answers i s body) :
    Answers i s (precheck op false s body) := by
  rwa [precheck_pass op false s body hf nofun]

/-- A command that needs the geometry raises `NOCFG` without one. -/
theorem precheck_configured {op : Byte} {body : Result} (hf : s.faulted = false) (hneed : i.needsConfigured = true)
    (hop : i.opcode = some op) (h : s.configured = true → Answers i s body) : Answers i s (precheck op true s body) := by
  cases hc : s.configured with
  | false => rw [precheck_unconfigured op s body hf hc]; exact raises_here (.nocfg hneed hop hc)
  | true => rw [precheck_pass op true s body hf fun _ => hc]; exact h hc

/-- Taking beats changes neither the geometry nor the capacity, so the frame is asked for in the state before. -/
theorem withFrame {u : State} {body : List Byte → Result} (hc : s.configured = true) (hpsz : u.psz = s.psz)
    (hcap : u.maxLen = s.maxLen) (h : ∀ f, Answers i s (body f)) : Answers i s (withFrame u body) := by
  rcases withFrame_cases u body with ⟨-, e⟩ | ⟨hbig, e⟩
  · rw [e]; exact h _
  · rw [e]; exact .noFrame hc (by rwa [← hpsz, ← hcap])

theorem withCodes {n : Nat} {body : List Code → State → Result}
    (h : ∀ codes rest, Answers i s (body codes { s with codeIn := rest })) : Answers i s (withCodes n s body) := by
  rcases withCodes_cases n s body with ⟨-, e⟩ | ⟨-, e⟩
  · rw [e]; exact .waitsForCode
  · rw [e]; exact h _ _

theorem withBytes {n : Nat} {body : List Byte → State → Result}
    (hi : TakesBytes i) (h : ∀ bs rest, Answers i s (body bs { s with byteIn := rest })) :
    Answers i s (withBytes n s body) := by
  rcases withBytes_cases n s body with ⟨bs, rest, -, -, e⟩ | ⟨bs, rest, -, hq, e⟩ | ⟨-, -, -, e⟩
  · rw [e]; exact h bs rest
  · rw [e]; exact .raises (.trunc hi hq)
  · rw [e]; exact .waitsForByte

theorem decodeFor {b : Busy} {L : Nat} (hi : i = .decf ∨ ∃ a, i = .rledec a)
    (h : ∀ out rest, Answers i s (finishDecode b out { s with byteIn := rest })) : Answers i s (decodeFor b L s) := by
  rcases decodeFor_cases b L s with ⟨out, rest, -, e⟩ | ⟨c, info, rest, hbad, e⟩ | ⟨-, e⟩
  · rw [e]; exact h out rest
  · rw [e]; exact .raises (.stream hi (rleDecF_badStream hbad))
  · rw [e]; exact .waitsForByte

/-- The next state of an instruction records a fault only where the instruction raises it. -/
theorem raised {t : State} (h : Answers i s (.next t)) (ht : t.faulted = true) :
    ∃ c info rest, Raises i s c info rest ∧ t = { s with byteIn := rest }.raise c info := by
  cases h with
  | completes hf => cases hf.symm.trans ht
  | raises h => exact ⟨_, _, _, h, rfl⟩

end Answers

/-- A command meets its checks in the order that its rule gives. -/
theorem exec_command_answers {i : Instr} {s : State} (hcmd : i.isCommand = true) (hf : s.faulted = false) :
    Answers i s (exec i s) := by
  cases i with
  | rst => exact .completes (softReset_faulted s)
  | setw arg => exact .precheck_free hf (.completes ((setConfigured_faulted _ _).trans hf))
  | seth arg => exact .precheck_free hf (.completes ((setConfigured_faulted _ _).trans hf))
  | init =>
    rw [exec_init_unfaulted hf]
    split_ifs with hlegal
    · exact .completes ((setConfigured_faulted _ _).trans hf)
    · exact .raises_here (.badcfg rfl (Bool.eq_false_of_not_eq_true hlegal))
  | pack => exact .precheck_configured hf rfl rfl fun _ => .withCodes fun _ _ => .completes hf
  | delta =>
    exact .precheck_configured hf rfl rfl fun hc => .withBytes (.inl rfl) fun _ _ =>
      .withFrame hc rfl rfl fun _ => .completes hf
  | rleenc len =>
    by_cases hlen : len.toNat ≤ s.maxLen
    · rw [exec, execRleenc_legal len s hf hlen]
      exact .withBytes (.inr (.inr (.inl ⟨len, rfl⟩))) fun _ _ => .completes hf
    · rw [exec, execRleenc_beyond len s hf (by omega)]
      exact .raises_here (.badarg (.inl ⟨rfl, by omega⟩))
  | encf =>
    exact .precheck_configured hf rfl rfl fun hc => .withCodes fun _ _ => .withFrame hc rfl rfl fun _ => .completes hf
  | rledec len =>
    by_cases hlen : len.toNat ≤ s.maxLen
    · rw [exec, execRledec_legal len s hf hlen]
      exact .decodeFor (.inr ⟨len, rfl⟩) fun _ _ => .completes hf
    · rw [exec, execRledec_beyond len s hf (by omega)]
      exact .raises_here (.badarg (.inr (.inl ⟨rfl, by omega⟩)))
  | fold =>
    exact .precheck_configured hf rfl rfl fun hc => .withBytes (.inr (.inl rfl)) fun _ _ =>
      .withFrame hc rfl rfl fun _ => .completes hf
  | decf =>
    exact .precheck_configured hf rfl rfl fun hc => .decodeFor (.inl rfl) fun _ _ =>
      .withFrame hc rfl rfl fun _ => .completes hf
  | extract px =>
    refine .precheck_configured hf rfl rfl fun hc => ?_
    split_ifs with hpx
    · exact .raises_here (.badarg (.inr (.inr ⟨rfl, hc, hpx⟩)))
    · exact .withFrame hc rfl rfl fun _ => .completes hf
  | unpack => exact .precheck_configured hf rfl rfl fun hc => .withFrame hc rfl rfl fun _ => .completes hf
  | dump => exact .precheck_configured hf rfl rfl fun hc => .withFrame hc rfl rfl fun _ => .completes hf
  | rep | lit => cases hcmd

/-- A well-formed run has no count of 0, so of the tests on its count only `OVERRUN` can fail. -/
theorem exec_run_answers {i : Instr} {s : State} (hrun : i.isCommand = false) (hwf : i.wellFormed = true)
    (hf : s.faulted = false) : Answers i s (exec i s) := by
  obtain ⟨key, payload, rfl, hlen, hcount⟩ := exists_runOf i hrun hwf
  rcases countFault_cases s.dec.exp (keyCount key) with ⟨hzero, -⟩ | ⟨-, -, e⟩ | ⟨-, -, e⟩
  · exact absurd hzero hcount
  · rw [exec_runOf_countFault key payload s _ hlen e]
    exact .raises_here (.overrun hrun hcount)
  · rw [exec_runOf_fits hlen e]
    exact .withBytes (.inr (.inr (.inr hrun))) fun _ _ => .completes hf

theorem exec_answers {i : Instr} {s : State} (hwf : i.wellFormed = true) (hf : s.faulted = false) :
    Answers i s (exec i s) := by
  cases hcmd : i.isCommand with
  | true => exact exec_command_answers hcmd hf
  | false => exact exec_run_answers hcmd hwf hf

/-- Settles O58: the reasons for which an instruction raises a fault, by cause. -/
theorem faultCausesByCommand : Obligations.FaultCausesByCommand := by
  intro i s t hwf hf h ht
  obtain ⟨c, info, rest, hraises, rfl⟩ := (h ▸ exec_answers hwf hf).raised ht
  rw [raise_faultCode, State.raise_faultInfo]
  cases hraises with
  | nocfg hneed hop hc => exact .inl ⟨rfl, hneed, hc, _, hop, rfl⟩
  | badcfg hi hillegal => exact .inr (.inl ⟨rfl, hi, hillegal, rfl⟩)
  | badarg hi => exact .inr (.inr (.inl ⟨rfl, _, rfl, hi⟩))
  | trunc hi hq =>
    refine .inr (.inr (.inr (.inl ⟨rfl, rfl, by simp [hq], ?_⟩)))
    rcases hi with hi | hi | ⟨a, hi⟩ | hi
    · exact .inl hi
    · exact .inr (.inl hi)
    · exact .inr (.inr (.inr (.inl ⟨a, .inl hi⟩)))
    · exact .inr (.inr (.inr (.inr hi)))
  | overrun hi hkey => exact .inr (.inr (.inr (.inr (.inl ⟨rfl, .inr (.inr hi), _, rfl, hkey⟩))))
  | stream hi hbad =>
    cases hbad with
    | eos hq =>
      refine .inr (.inr (.inr (.inl ⟨rfl, rfl, by simp [hq], ?_⟩)))
      rcases hi with hi | ⟨a, hi⟩
      · exact .inr (.inr (.inl hi))
      · exact .inr (.inr (.inr (.inl ⟨a, .inr hi⟩)))
    | overrun _ _ hkey =>
      exact .inr (.inr (.inr (.inr (.inl ⟨rfl, hi.imp_right .inl, _, rfl, hkey⟩))))
    | zeroCount _ _ hkey => exact .inr (.inr (.inr (.inr (.inr ⟨rfl, hi, _, rfl, hkey⟩))))

end Sys2Proof.Machine
end

section
/-! SUPPORT. What a step between commands can answer: it stops only where the block is idle or waits (R221, R253), and a fault that it
records is atomic, with the beats of R209 gone (R205). -/

namespace Sys2Proof.Machine

/-! ## Stops -/

/-- In a block whose configured frame lies within the store, a command steps or waits. -/
theorem exec_steps_or_waits {i : Instr} {s : State} (hcmd : i.isCommand = true) (hok : s.configuredOk) :
    (∃ t, exec i s = .next t) ∨ exec i s = .fault .waitsForCode ∨ exec i s = .fault .waitsForByte := by
  cases hf : s.faulted with
  | true =>
    by_cases hrst : i = .rst
    · subst hrst; exact .inl ⟨_, execRst_eq s⟩
    · exact .inl ⟨s, exec_faulted hcmd hrst hf⟩
  | false =>
    have hans := exec_command_answers hcmd hf
    cases hr : exec i s with
    | next t => exact .inl ⟨t, rfl⟩
    | fault f =>
      rw [hr] at hans
      cases hans with
      | waitsForCode => exact .inr (.inl rfl)
      | waitsForByte => exact .inr (.inr rfl)
      | noFrame hc hbig => exact absurd (configuredOk_fits s hok hc) (Nat.not_le.2 hbig)
    | refused r => rw [hr] at hans; cases hans

theorem runStatus_waiting {s : State} (h : step s = .fault .waitsForCode ∨ step s = .fault .waitsForByte) :
    s.runStatus = .waiting := by
  have hwaits : s.waits = true := by rcases h with h | h <;> simp [State.waits, h]
  rw [State.runStatus, if_pos hwaits]

/-- Settles O10: a block that meets the invariants is between commands, and its frame lies within the store where it is
configured. -/
theorem aStepStopsOnlyIdleOrWaiting : Obligations.AStepStopsOnlyIdleOrWaiting := by
  intro s hinv
  obtain ⟨-, -, -, hbusy⟩ := hinv.between
  rcases step_between s hbusy with ⟨hcmd, e⟩ | ⟨w, rest, i, -, hdec, e⟩ | ⟨w, rest, -, -, -, e⟩
  · exact .inr (.inl ⟨e, hcmd⟩)
  · have hok : State.configuredOk { s with cmd := rest } := hinv.configuredOk
    rcases exec_steps_or_waits (decodeCmd_isCommand w i hdec) hok with ⟨t, e'⟩ | hwaits
    · exact .inl ⟨t, e.trans e'⟩
    · rw [← e] at hwaits
      exact .inr (.inr ⟨hwaits, runStatus_waiting hwaits⟩)
  · rcases illegalCommand_cases (opOf w) { s with cmd := rest } with ⟨-, e'⟩ | ⟨-, e'⟩
    · exact .inl ⟨_, e.trans e'⟩
    · exact .inl ⟨_, e.trans e'⟩

/-! ## Faults -/

/-- A command that raises a fault has taken no beat of `byte_in`, or the beats up to the bad one. -/
theorem Raises.beats {i : Instr} {s : State} {c : Cause} {info : Word} {rest : List Beat} (h : Raises i s c info rest)
    (hcmd : i.isCommand = true) :
    c ∈ [.illcmd, .nocfg, .badcfg, .badarg] ∧ rest = s.byteIn ∨ BadStream s.byteIn c info rest := by
  cases h with
  | nocfg | badcfg | badarg => exact .inl ⟨by simp, rfl⟩
  | trunc _ hq => exact .inr (.eos hq)
  | stream _ hbad => exact .inr hbad
  | overrun hrun => cases hrun.symm.trans hcmd

/-- All that a step of an unfaulted block does when it records a fault: it takes its command word, and those beats. -/
theorem step_raises {s t : State} (hbusy : s.busy = none) (hf : s.faulted = false) (h : step s = .next t)
    (ht : t.faulted = true) :
    ∃ w rest c info left, s.cmd = w :: rest ∧ t = { s with cmd := rest, byteIn := left }.raise c info ∧
      (c ∈ [.illcmd, .nocfg, .badcfg, .badarg] ∧ left = s.byteIn ∨ BadStream s.byteIn c info left) := by
  rcases step_between s hbusy with ⟨-, e⟩ | ⟨w, rest, i, hcmd, hdec, e⟩ | ⟨w, rest, -, hcmd, -, e⟩
  · cases e.symm.trans h
  · have hi := decodeCmd_isCommand w i hdec
    have hans := exec_command_answers (s := { s with cmd := rest }) hi hf
    rw [← e, h] at hans
    obtain ⟨c, info, left, hraises, rfl⟩ := hans.raised ht
    exact ⟨w, rest, c, info, left, hcmd, rfl, hraises.beats hi⟩
  · rcases illegalCommand_cases (opOf w) { s with cmd := rest } with ⟨hf', -⟩ | ⟨-, e'⟩
    · cases hf.symm.trans hf'
    · cases (e.symm.trans h).symm.trans e'
      exact ⟨w, rest, .illcmd, _, s.byteIn, hcmd, rfl, .inl ⟨by simp, rfl⟩⟩

/-- A write of `FAULT` touches bits 7:4 only (R28). -/
theorem getLsbD_statusSetFault (st : Word) (code : BitVec 4) {k : Nat} (hk : k < 4 ∨ 8 ≤ k) :
    (statusSetFault st code).getLsbD k = st.getLsbD k := by
  have hmask : 0xFFFFFF0F#32 = ~~~((0xF#4).setWidth 32 <<< 4) := by decide
  have hfield (c : BitVec 4) : (c.setWidth 32 <<< 4).getLsbD k = false := by
    rcases hk with hk | hk
    · simp [hk]
    · simp [BitVec.getLsbD_of_ge c (k - 4) (by omega)]
  rw [statusSetFault, BitVec.getLsbD_or, hfield, Bool.or_false, BitVec.getLsbD_and, hmask, BitVec.getLsbD_not, hfield]
  by_cases hlt : k < 32
  · simp [hlt]
  · simp [BitVec.getLsbD_of_ge st k (by omega)]

/-- Between commands, taking a fault writes `STATUS.FAULT` and `FAULT_INFO` only (R205). -/
theorem raise_of_between {s : State} (h : s.between) (c : Cause) (info : Word) :
    s.raise c info = { s with status := statusSetFault s.status c.code, faultInfo := info } :=
  endCommand_of_between (s := { s with status := statusSetFault s.status c.code, faultInfo := info }) h

/-- Settles O57: the step takes its word and its beats, and then raises its fault. -/
theorem aFaultingStepIsAtomic : Obligations.AFaultingStepIsAtomic := by
  intro s t hbetween hf h ht
  have ⟨_, _, _, hbusy⟩ := hbetween
  obtain ⟨w, rest, c, info, left, hcmd, rfl, -⟩ := step_raises hbusy hf h ht
  refine ⟨c, rest, raise_faultCode _ _ _, ht, raise_configured _ _ _, ⟨w, hcmd⟩, ?_,
    fun k hk => getLsbD_statusSetFault _ _ hk⟩
  exact raise_of_between (s := { s with cmd := rest, byteIn := left }) hbetween c info

/-- Settles O59: the command word by the order of the queues; the beats of a faulted block by what it drops, and those of a fault by
what raised it. -/
theorem beatsTakenByAFaultingCommand : Obligations.BeatsTakenByAFaultingCommand := by
  intro s t hbusy h
  obtain ⟨w, hcmd⟩ := (queuesAreFirstInFirstOut s t h).1 hbusy
  refine ⟨⟨w, hcmd⟩, fun hf => step_faulted_keeps_data hbusy hf hcmd h, fun hf ht => ?_⟩
  obtain ⟨-, rest, c, info, left, -, rfl, hbeats⟩ := step_raises hbusy hf h ht
  refine ⟨rfl, ?_⟩
  rw [raise_faultCode, State.raise_byteIn, State.raise_faultInfo]
  rcases hbeats with ⟨hc, hleft⟩ | hbad
  · exact .inl ⟨List.mem_map_of_mem (f := Cause.code) hc, hleft⟩
  · cases hbad with
    | eos hq => exact .inr (.inl ⟨rfl, _, hq⟩)
    | zeroCount hlegal hq hkey => exact .inr (.inr ⟨_, _, hlegal, rfl, by simp [hq], .inl ⟨rfl, hkey⟩⟩)
    | overrun hlegal hq hkey => exact .inr (.inr ⟨_, _, hlegal, rfl, by simp [hq], .inr ⟨rfl, hkey⟩⟩)

end Sys2Proof.Machine
end

section
/-! SUPPORT. Hardware reset (R230 to R232): it is `RST`, but for the input queues where it cuts a command short. -/

namespace Sys2Proof.Machine

/-- Between commands, hardware reset is `RST`, queues and all (R230, R231). -/
theorem hardwareReset_of_not_inCommand {s : State} (h : s.inCommand = false) : s.hardwareReset = s.softReset := by
  simp [State.hardwareReset, h]

/-- Where it cuts a command short, hardware reset is `RST` with free input queues (R231, R232, log 8). -/
theorem hardwareReset_of_inCommand {s : State} (h : s.inCommand = true) :
    s.hardwareReset = { s.softReset with
      cmd := Config.cmdAfterReset s.hwResets, codeIn := Config.codesAfterReset s.hwResets,
      byteIn := Config.beatsAfterReset s.hwResets, hwResets := s.hwResets + 1 } := by
  simp [State.hardwareReset, h]

/-- Settles O52: `RST` gives `softReset`, from which hardware reset differs, if at all, in what a cut command leaves open. -/
theorem hardwareResetIsRstForTheRegisters : Obligations.HardwareResetIsRstForTheRegisters := by
  intro s
  refine ⟨fun h => ?_, s.softReset, execRst_eq s, ?_⟩
  · rw [hardwareReset_of_not_inCommand h]
    exact execRst_eq s
  · cases h : s.inCommand with
    | false => rw [hardwareReset_of_not_inCommand h]
    | true => rw [hardwareReset_of_inCommand h]

end Sys2Proof.Machine
end
